-- ==== Sys2Proof/Word.lean ====
section
/-! DEFINITION. The data types of the spec: bytes, device addresses and line levels (00_scope.md R11, R23; 20_memory.md R53). -/

namespace Sys2Proof

/-- A byte is 8 bits (R11). -/
abbrev Byte := BitVec 8

/-- A DeviceAddress, 8 bytes (R23), held as its 64 bits numbered as R62 numbers them: byte `j` stands at bits
`8j+7 .. 8j`, so bit `i` of the address is bit `i` of the vector. -/
abbrev DeviceAddress := BitVec 64

/-- The level of the line as `Sample()` answers it (R53): `low` is written 0, `high` 1. -/
inductive Level where
  | low
  | high
  deriving DecidableEq, Repr, Inhabited

end Sys2Proof
end

