-- ==== Sys2Proof/Syntax.lean ====
section
/-! DEFINITION. The host commands, one constructor per row of spec/opcode_table.json (30_encoding.md R91). -/

namespace Sys2Proof

/-- A host command with the immediate its word carries (R91, R92). Operands in registers are read by the machine. -/
inductive Instr where
  /-- `RESET` (R146): the reset/presence handshake. -/
  | reset
  /-- `WBIT v` (R122): write one bit. -/
  | wbit (v : Bool)
  /-- `RBIT` (R127): read one bit. -/
  | rbit
  /-- `WBYTE` (R137): write the byte in `WDATA`. -/
  | wbyte
  /-- `RBYTE` (R139): read one byte. -/
  | rbyte
  /-- `SEARCH a` (R180): find one device address; `a` is alarmOnly. -/
  | search (a : Bool)
  /-- `RDROM` (R215): read the address of a lone slave. -/
  | rdrom
  /-- `MATCH` (R218): select one slave by the address in `ABUF`. -/
  | matchRom
  /-- `SKIP` (R221): address all slaves at once. -/
  | skip
  /-- `RDPWR` (R224): read the power supply mode. -/
  | rdpwr
  /-- `IDLEPOLL` (R160): schedule an idle poll. -/
  | idlepoll
  /-- `CRC len` (R205): checksum of the first `len` bytes of `ABUF`. -/
  | crc (len : BitVec 4)
  /-- `GETST` (R170): read the bus state. -/
  | getst
  deriving DecidableEq, Repr

end Sys2Proof
end

