-- ==== Sys2Proof/WellFormed.lean ====
section
/-! DEFINITION. Which commands a word can select (30_encoding.md R91, R93): the one field with reserved values is the
length of `CRC`. -/

namespace Sys2Proof

/-- The command has an encoding: the length of `CRC` is 0 to 8, since 9 to 15 are reserved (R93 (d)). -/
def Instr.WellFormed : Instr → Bool
  | .reset | .wbit _ | .rbit | .wbyte | .rbyte | .search _ | .rdrom | .matchRom | .skip | .rdpwr | .idlepoll | .getst => true
  | .crc len => decide (len.toNat ≤ 8)

end Sys2Proof
end

