-- ==== Sys2Proof/Decode.lean ====
section
/-! DEFINITION. Decoding and encoding of the command word (30_encoding.md R90 to R93). -/

namespace Sys2Proof

/-- Why a command word is reserved: the four clauses of R93. -/
inductive DecodeError where
  /-- (a) `op` is 0x0, 0xE or 0xF. -/
  | reservedOpcode (op : BitVec 4)
  /-- (b) `arg` of a command without immediate is not 0. -/
  | argumentNotZero (op arg : BitVec 4)
  /-- (c) `arg[3:1]` of `WBIT` or `SEARCH` is not 0. -/
  | upperArgumentNotZero (op arg : BitVec 4)
  /-- (d) the length of `CRC` is 9 to 15. -/
  | lengthAboveEight (arg : BitVec 4)
  deriving DecidableEq, Repr

/-- Field `op`, bits 7:4 of the word (R90). -/
def opField (w : Byte) : BitVec 4 := w.extractLsb' 4 4

/-- Field `arg`, bits 3:0 of the word (R90). -/
def argField (w : Byte) : BitVec 4 := w.extractLsb' 0 4

/-- A command whose `arg` must be 0 (R91; R93 (b)). -/
def decodePlain (i : Instr) (op arg : BitVec 4) : Except DecodeError Instr :=
  if arg = 0 then .ok i else .error (.argumentNotZero op arg)

/-- A command with a one-bit immediate in `arg[0]` whose `arg[3:1]` must be 0 (R91; R93 (c)). -/
def decodeFlag (f : Bool → Instr) (op arg : BitVec 4) : Except DecodeError Instr :=
  if arg.extractLsb' 1 3 = 0 then .ok (f (arg.getLsbD 0)) else .error (.upperArgumentNotZero op arg)

/-- Decoding of a command word, total on the 256 words (R90, R91, R93). -/
def decode (w : Byte) : Except DecodeError Instr :=
  let op := opField w
  let arg := argField w
  match op with
  | 0x1#4 => decodePlain .reset op arg
  | 0x2#4 => decodeFlag .wbit op arg
  | 0x3#4 => decodePlain .rbit op arg
  | 0x4#4 => decodePlain .wbyte op arg
  | 0x5#4 => decodePlain .rbyte op arg
  | 0x6#4 => decodeFlag .search op arg
  | 0x7#4 => decodePlain .rdrom op arg
  | 0x8#4 => decodePlain .matchRom op arg
  | 0x9#4 => decodePlain .skip op arg
  | 0xA#4 => decodePlain .rdpwr op arg
  | 0xB#4 => decodePlain .idlepoll op arg
  | 0xC#4 => if arg.toNat ≤ 8 then .ok (.crc arg) else .error (.lengthAboveEight arg)
  | 0xD#4 => decodePlain .getst op arg
  | _ => .error (.reservedOpcode op)

/-- The word of a command (R91): opcode in bits 7:4, immediate in bits 3:0. -/
def encode : Instr → Byte
  | .reset => 0x1#4 ++ 0#4
  | .wbit v => 0x2#4 ++ (0#3 ++ BitVec.ofBool v)
  | .rbit => 0x3#4 ++ 0#4
  | .wbyte => 0x4#4 ++ 0#4
  | .rbyte => 0x5#4 ++ 0#4
  | .search a => 0x6#4 ++ (0#3 ++ BitVec.ofBool a)
  | .rdrom => 0x7#4 ++ 0#4
  | .matchRom => 0x8#4 ++ 0#4
  | .skip => 0x9#4 ++ 0#4
  | .rdpwr => 0xA#4 ++ 0#4
  | .idlepoll => 0xB#4 ++ 0#4
  | .crc len => 0xC#4 ++ len
  | .getst => 0xD#4 ++ 0#4

/-- A command word of the table: one byte; bits above `nbits` are 0. -/
def tableByte (nbits w : Nat) : Byte := BitVec.ofNat 8 (w % 2 ^ nbits)

/-- What the decoder reads from a word numbered as spec/opcode_table.json numbers its bits (every row is one byte). -/
def decodeTableWord (nbits w : Nat) : Option Instr :=
  match decode (tableByte nbits w) with
  | .ok i => some i
  | .error _ => none

end Sys2Proof
end

