-- ==== Sys2Proof/Config.lean ====
section
/-! DEFINITION. The parameters of the model (00_scope.md R6, R7, R8), their defaults and constraints, and the free values
that stand for what the spec leaves open. -/

namespace Sys2Proof

/-- The configuration record of R6 (slot timing), R7 (reset timing) and R8 (protocol constants). Times are in
time-units (R10). -/
structure Config where
  /-- `T_SLOT`: length of every bit slot. -/
  tSlot : Nat
  /-- `T_W1L`: low time of a write-1 slot. -/
  tW1L : Nat
  /-- `T_W0L`: low time of a write-0 slot. -/
  tW0L : Nat
  /-- `T_RDL`: low time that opens a read slot. -/
  tRdl : Nat
  /-- `N_SAMPLES`: samples per read slot. -/
  nSamples : Nat
  /-- `T_RDS`: spacing of the samples. -/
  tRds : Nat
  /-- `T_RDWIN`: read window including the opening low. -/
  tRdWin : Nat
  /-- `T_RSTL`: length of the reset low pulse. -/
  tRstl : Nat
  /-- `T_PDH`: longest wait for the presence pulse to start. -/
  tPdh : Nat
  /-- `T_PDL`: longest wait for the presence pulse to end. -/
  tPdl : Nat
  /-- `T_RSTREM`: wait after the presence pulse ends. -/
  tRstRem : Nat
  /-- `CMD_READ_ROM`. -/
  cmdReadRom : Byte
  /-- `CMD_MATCH_ROM`. -/
  cmdMatchRom : Byte
  /-- `CMD_SEARCH_ROM`. -/
  cmdSearchRom : Byte
  /-- `CMD_ALARM_SEARCH`. -/
  cmdAlarmSearch : Byte
  /-- `CMD_SKIP_ROM`. -/
  cmdSkipRom : Byte
  /-- `CMD_READ_POWER`. -/
  cmdReadPower : Byte
  /-- `CRC_POLY`: polynomial in the right-shifting form of R200. -/
  crcPoly : Byte
  /-- `CRC_SEED_ROM`: seed used when the core validates an address. -/
  crcSeedRom : Byte
  deriving DecidableEq, Repr

/-- The defaults that R6, R7 and R8 fix. PRESUMED where the spec marks them general knowledge (log entry 10). -/
def Config.default : Config where
  tSlot := 70
  tW1L := 6
  tW0L := 60
  tRdl := 1
  nSamples := 6
  tRds := 10
  tRdWin := 60
  tRstl := 480
  tPdh := 74
  tPdl := 254
  tRstRem := 254
  cmdReadRom := 0x33
  cmdMatchRom := 0x55
  cmdSearchRom := 0xF0
  cmdAlarmSearch := 0xEC
  cmdSkipRom := 0xCC
  cmdReadPower := 0xB4
  crcPoly := 0x8C
  crcSeedRom := 0x00

/-- The six command bytes of R8, which must be pairwise distinct. -/
def Config.commandBytes (c : Config) : List Byte :=
  [c.cmdReadRom, c.cmdMatchRom, c.cmdSearchRom, c.cmdAlarmSearch, c.cmdSkipRom, c.cmdReadPower]

/-- The constraints a configuration must meet (R6, R7, R8). `T_W1L <= 0.15 * T_SLOT` is written in whole numbers. -/
abbrev Config.Ok (c : Config) : Prop :=
  (0 < c.tW1L ∧ 100 * c.tW1L ≤ 15 * c.tSlot) ∧
  (c.tW1L < c.tW0L ∧ c.tW0L < c.tSlot) ∧
  1 ≤ c.tRdl ∧ 1 ≤ c.nSamples ∧ c.tRdl ≤ c.tRds ∧
  c.nSamples * c.tRds = c.tRdWin ∧ c.tRdWin ≤ c.tSlot ∧
  480 ≤ c.tRstl ∧ c.commandBytes.Nodup

/-- FREE VALUE: the level of the line at its `n`-th question, where the environment has lined up no answer (R57;
log entry 2). Nothing constrains it. -/
opaque Config.freeLevel : Nat → Level

/-- FREE VALUE: the elapsed time at which the line first has the watched level, if it ever has, at its `n`-th
question, where the environment has lined up no answer (R54, R57; log entry 2). Nothing constrains it. -/
opaque Config.freePoll : Nat → Option Nat

/-- FREE VALUE: the content of `RBUF` after a failed `SEARCH` or `RDROM` (R36; log entry 8). Nothing constrains it. -/
opaque Config.freeRbuf : Nat → DeviceAddress

end Sys2Proof
end

