-- ==== Sys2Proof/Machine/State.lean ====
section
/-! DEFINITION. The state of the block (10_state.md), its line, its host interface, and its reset values (R43). -/

namespace Sys2Proof.Machine

open Sys2Proof

/-- The BusState (R20). -/
inductive BusState where
  /-- `IDLE` = 0: must reset before any command. -/
  | idle
  /-- `ROM_COMMAND` = 1. -/
  | romCommand
  /-- `FUNCTION_COMMAND` = 2. -/
  | functionCommand
  /-- `AWAITING_IDLE` = 3: entered only by `IDLEPOLL`. -/
  | awaitingIdle
  deriving DecidableEq, Repr

/-- The result kinds of `STATUS.RESULT` (R105). -/
inductive Result where
  | ok
  | noPresence
  | lfStillBusy
  | lfNeverReleased
  /-- In the type, produced by no rule (R162, R238). -/
  | lfHeldTooLong
  | noDevices
  | protocolError
  | checksumError
  | stateError
  | illegal
  /-- The reset value only (R28). -/
  | none
  deriving DecidableEq, Repr

/-- The answer of `PollUntil` (R54). -/
inductive PollAnswer where
  | hit (u : Nat)
  | timeout
  deriving DecidableEq, Repr

/-- One event of the line trace: a line primitive with its arguments and answer (R13, R14). -/
inductive LineEvent where
  /-- `L`. -/
  | assertLow
  /-- `Z`. -/
  | release
  /-- `D(n)`. -/
  | delay (n : Nat)
  /-- `S=v`. -/
  | sample (v : Level)
  /-- `P(level,max)=answer`. -/
  | poll (level : Level) (max : Nat) (answer : PollAnswer)
  deriving DecidableEq, Repr

/-- The block's side of the line, and the answers the line will give. -/
structure Line where
  /-- `DRIVE` (R40): the master drives the line low. -/
  drive : Bool
  /-- The line trace (R14), NEWEST event first; `Line.events` is it in time order. -/
  trace : List LineEvent
  /-- The model's own field (R57, log entry 2): the answers to the next `Sample()` calls, next one first. When the list
  is empty the answer is a free value. -/
  samples : List Level
  /-- The model's own field (R54, R57, log entries 2 and 3): for the next `PollUntil` calls, the elapsed time at which
  the line first has the watched level, `none` if it never has. When the list is empty the answer is a free value. -/
  polls : List (Option Nat)
  /-- The model's own field (log entry 2): how many questions the line has been asked; the index of the free values. -/
  asked : Nat
  deriving DecidableEq, Repr

/-- One action of the host (R285). Register reads and writes, one byte each; a command is issued by a write of `CMD`
at address 0x00 (R26, R27). -/
inductive HostAction where
  /-- `HostWrite(a, v)`. -/
  | write (a : Nat) (v : Byte)
  /-- `HostRead(a)`. -/
  | read (a : Nat)
  deriving DecidableEq, Repr

/-- Everything the spec gives the block (10_state.md), with the configuration, the line and the host's pending
actions. -/
structure State where
  /-- The parameters (R6 to R8): constant, no step writes them (log entry 1). -/
  cfg : Config
  /-- `STATE` (R20). -/
  busState : BusState
  /-- `IBUDGET` (R21). -/
  ibudget : BitVec 16
  /-- `STATUS.BUSY` (R28). -/
  busy : Bool
  /-- `STATUS.RESULT` (R28). -/
  result : Result
  /-- `WDATA` (R29). -/
  wdata : Byte
  /-- `RDATA` (R30). -/
  rdata : Byte
  /-- `CRCV` (R31). -/
  crcv : Byte
  /-- `POLY` (R31). -/
  poly : Byte
  /-- `CUR_POS` (R32), signed. -/
  curPos : Byte
  /-- `RES_POS` (R33), signed. -/
  resPos : Byte
  /-- `BUDGET_L` (R34). -/
  budgetL : Byte
  /-- `BUDGET_H` (R34). -/
  budgetH : Byte
  /-- `ABUF[0..7]` (R35). -/
  abuf : DeviceAddress
  /-- `RBUF[0..7]` (R36). -/
  rbuf : DeviceAddress
  /-- The line: `DRIVE` (R40), the trace (R14), the answers (R57). -/
  line : Line
  /-- The model's own field (R36, log entry 8): index of the next free value of `RBUF`. -/
  fresh : Nat
  /-- The model's own field (R285, log entry 5): the host's actions not yet taken, next one first. -/
  host : List HostAction
  /-- The model's own field (R285, log entry 6): address and value of every host read, NEWEST first. -/
  readback : List (Nat × Byte)
  deriving DecidableEq, Repr

/-- Why the machine stops with a fault. -/
inductive Fault where
  /-- Raised by a host action at an address above 0x1F, which is outside the block (R37; log entry 7). Safe: the model
  stops where the spec gives the block no part. -/
  | hostAddressOutside (a : Nat)
  deriving DecidableEq, Repr

/-- Why the machine gives an instruction no meaning. -/
inductive Refusal where
  /-- Raised by an arm of `exec` whose command has no meaning yet; no arm does. Safe. -/
  | notModelled (mnemonic : String)
  deriving DecidableEq, Repr

/-- The state after the block's reset under configuration `c` (R43, R265 to R267). The values of the model's own
fields are named in the assumption log (entries 2, 5, 6, 8). -/
def State.resetWith (c : Config) : State where
  cfg := c
  busState := .idle
  ibudget := 0
  busy := false
  result := .none
  wdata := 0x00
  rdata := 0x00
  crcv := 0x00
  poly := c.crcPoly
  curPos := 0xFF
  resPos := 0xFF
  budgetL := 0x00
  budgetH := 0x00
  abuf := 0
  rbuf := 0
  line := { drive := false, trace := [], samples := [], polls := [], asked := 0 }
  fresh := 0
  host := []
  readback := []

/-- The state after the block's reset (R43), under the default parameters of R6 to R8. -/
def State.reset : State := State.resetWith Config.default

end Sys2Proof.Machine
end

