-- ==== Sys2Proof/Machine/Ops.lean ====
section
/-! DEFINITION. The shared operations: bits and bytes of values (20_memory.md R62), the five line primitives (R50 to R55),
the run of one command from issue to result (00_scope.md R15, R16). -/

namespace Sys2Proof.Machine

open Sys2Proof

/-! ## Bits and bytes -/

/-- `v[i] <- b`: `v` with bit `i` set to `b` (R12). -/
def setBit {n : Nat} (v : BitVec n) (i : Nat) (b : Bool) : BitVec n :=
  if b then v ||| (1#n <<< i) else v &&& ~~~(1#n <<< i)

/-- `B[j]`: byte `j` of an 8-byte buffer (R62). -/
def byteOf (a : DeviceAddress) (j : Nat) : Byte := a.extractLsb' (8 * j) 8

/-- `B[j] <- v`: the buffer with byte `j` replaced (R62). -/
def setByte (a : DeviceAddress) (j : Nat) (v : Byte) : DeviceAddress :=
  (a &&& ~~~(0xFF#64 <<< (8 * j))) ||| (v.setWidth 64 <<< (8 * j))

/-- Bytes 0 to `len - 1` of a buffer, lowest index first. -/
def bytesOf (a : DeviceAddress) (len : Nat) : List Byte := (List.range len).map (byteOf a)

/-- The bits of a byte in the order they cross the line, bit 0 first (R63). -/
def bitsOf (x : Byte) : List Bool := (List.range 8).map x.getLsbD

/-- `zext_8(bit)`. -/
def zextBit (b : Bool) : Byte := if b then 1 else 0

/-! ## The answers of the line (R57) -/

/-- The answer to the `k`-th of the next `Sample()` calls, when no poll comes between: lined up by the environment, else
free (log entry 2). -/
def Line.levelAt (l : Line) (k : Nat) : Level := (l.samples.drop k).headD (Config.freeLevel (l.asked + k))

/-- The elapsed time at which the line first has the level watched by the `k`-th of the next `PollUntil` calls, when no
sample comes between: lined up by the environment, else free (log entries 2 and 3). -/
def Line.pollAt (l : Line) (k : Nat) : Option Nat := (l.polls.drop k).headD (Config.freePoll (l.asked + k))

/-! ## The five line primitives (R13, R50): each appends one event to the trace -/

/-- `AssertLow()` (R51). -/
def Line.assertLow (l : Line) : Line := { l with drive := true, trace := .assertLow :: l.trace }

/-- `Release()` (R52). -/
def Line.release (l : Line) : Line := { l with drive := false, trace := .release :: l.trace }

/-- `Delay(n)` (R55). -/
def Line.delay (n : Nat) (l : Line) : Line := { l with trace := .delay n :: l.trace }

/-- `Sample()` (R53). -/
def Line.sample (l : Line) : Level × Line :=
  (l.levelAt 0,
    { l with samples := l.samples.drop 1, asked := l.asked + 1, trace := .sample (l.levelAt 0) :: l.trace })

/-- What `PollUntil(_, max)` answers when the line first has the level at elapsed time `first` (R54): the bound is
inclusive. -/
def pollAnswer (max : Nat) (first : Option Nat) : PollAnswer :=
  match first with
  | some u => if u ≤ max then .hit u else .timeout
  | none => .timeout

/-- `PollUntil(level, max)` (R54). -/
def Line.pollUntil (level : Level) (max : Nat) (l : Line) : PollAnswer × Line :=
  (pollAnswer max (l.pollAt 0),
    { l with
      polls := l.polls.drop 1
      asked := l.asked + 1
      trace := .poll level max (pollAnswer max (l.pollAt 0)) :: l.trace })

/-! ## The line trace read in time order (R14) and its duration (R286) -/

/-- The line trace in time order (R14). -/
def Line.events (l : Line) : List LineEvent := l.trace.reverse

/-- How long one primitive lasts (R51 to R55): only `Delay` and `PollUntil` take time. -/
def durationOfEvent : LineEvent → Nat
  | .assertLow | .release | .sample _ => 0
  | .delay n => n
  | .poll _ _ (.hit u) => u
  | .poll _ max .timeout => max

/-- How long a part of the trace lasts: the sum of its `Delay` arguments and poll times (R286). -/
def durationOf (es : List LineEvent) : Nat := (es.map durationOfEvent).sum

/-! ## One command, from issue to result -/

/-- The run of a command (R15, R16, R28): `BUSY` is 1 while the body runs and 0 after it; the result of the body is
written to `STATUS.RESULT` exactly once, at the end. This is all that an error records (R235, R245). -/
def runCommand (body : State → Result × State) (s : State) : State :=
  let ended := body { s with busy := true }
  { ended.2 with busy := false, result := ended.1 }

/-- `RBUF` after a failed `SEARCH` or `RDROM`: unspecified, so a free value (R36; log entry 8). -/
def State.unspecifyRbuf (s : State) : State := { s with rbuf := Config.freeRbuf s.fresh, fresh := s.fresh + 1 }

end Sys2Proof.Machine
end

