-- ==== Sys2Proof/Machine/Operands.lean ====
section
/-! DEFINITION. The operands a command takes from registers, read once at issue (30_encoding.md R92; 10_state.md R27). -/

namespace Sys2Proof.Machine

open Sys2Proof

/-- `sext(CUR_POS)`: the cursor position, signed (R92, R32, R66). -/
def State.cursorPosition (s : State) : Int := s.curPos.toInt

/-- The legal cursor positions are -1 to 63 (R32, R181). -/
def cursorLegal (last : Int) : Bool := decide (-1 ≤ last ∧ last ≤ 63)

/-- `{BUDGET_H, BUDGET_L}`: the 16-bit budget operand, low byte at the lower address (R34, R65, R92). -/
def State.budget (s : State) : BitVec 16 := s.budgetH ++ s.budgetL

/-- `len = zext(w[3:0])` (R92). -/
def crcLength (len : BitVec 4) : Nat := len.toNat

/-- `ABUF[0..len-1]`: the data of `CRC` (R92). -/
def State.crcData (s : State) (len : Nat) : List Byte := bytesOf s.abuf len

end Sys2Proof.Machine
end

