-- ==== Sys2Proof/Machine/Checksum.lean ====
section
/-! DEFINITION. The CRC-8 checksum validator (45_checksum.md): `Crc8`, the validity of an address, and the command `CRC`. -/

namespace Sys2Proof.Machine

open Sys2Proof

/-- One bit of `Crc8` (R200): exclusive or of the remainder's low bit and the data bit decides whether the shifted
remainder is combined with the polynomial. -/
def crcBit (poly rem : Byte) (d : Bool) : Byte :=
  if rem.getLsbD 0 ^^ d then (rem >>> 1) ^^^ poly else rem >>> 1

/-- One byte of `Crc8`, bit 0 first (R200). -/
def crcByte (poly rem data : Byte) : Byte := (bitsOf data).foldl (crcBit poly) rem

/-- `Crc8(seed, poly, data)` (R200). -/
def crc8 (seed poly : Byte) (data : List Byte) : Byte := data.foldl (crcByte poly) seed

/-- A DeviceAddress is valid: byte 7 is the checksum of bytes 0 to 6 under the constants, never under the registers
`CRCV` and `POLY` (R23, R31, R203). -/
def addressValid (c : Config) (a : DeviceAddress) : Bool :=
  decide (byteOf a 7 = crc8 c.crcSeedRom c.crcPoly (bytesOf a 7))

/-- The body of `CRC len` (R205). -/
def crcBody (len : BitVec 4) (s : State) : Result × State :=
  if 8 < crcLength len then (.illegal, s)
  else (.ok, { s with crcv := crc8 s.crcv s.poly (s.crcData (crcLength len)) })

/-- `CRC len` (R205): legal in every state; never touches the line. -/
def execCrc (len : BitVec 4) (s : State) : Host.Outcome State Fault Refusal :=
  .next (runCommand (crcBody len) s)

end Sys2Proof.Machine
end

