-- ==== Sys2Proof/Machine/Flags.lean ====
section
/-! DEFINITION. The encodings of the two things that act as flags (10_state.md R39): `STATUS` (R28) with the result codes
of 30_encoding.md R105, and the read slot's low-dominant decision (40_bit_transceiver.md R126); and the code of `STATE` (R20). -/

namespace Sys2Proof.Machine

open Sys2Proof

/-- The 4-bit code of a result (R105). -/
def resultCode : Result → BitVec 4
  | .ok => 0x0
  | .noPresence => 0x1
  | .lfStillBusy => 0x2
  | .lfNeverReleased => 0x3
  | .lfHeldTooLong => 0x4
  | .noDevices => 0x5
  | .protocolError => 0x6
  | .checksumError => 0x7
  | .stateError => 0x8
  | .illegal => 0x9
  | .none => 0xF

/-- The `STATUS` byte: bit 7 `BUSY`, bits 6:4 zero, bits 3:0 `RESULT` (R26, R28). -/
def State.statusByte (s : State) : Byte := BitVec.ofBool s.busy ++ (0#3 ++ resultCode s.result)

/-- The 2-bit code of `STATE` (R20). -/
def busStateCode : BusState → BitVec 2
  | .idle => 0
  | .romCommand => 1
  | .functionCommand => 2
  | .awaitingIdle => 3

/-- `seen_low` after one more sample (R125): set by a low sample, never cleared within the slot. -/
def sawLow (seen : Bool) (v : Level) : Bool := seen || decide (v = .low)

/-- The bit a read slot returns: 0 if any sample was low, else 1 (R126). -/
def readBit (seenLow : Bool) : Bool := !seenLow

end Sys2Proof.Machine
end

