-- ==== Sys2Proof/Machine/Transceiver.lean ====
section
/-! DEFINITION. The bit transceiver (40_bit_transceiver.md): `WriteSlot`, `ReadSlot`, and the commands `WBIT`, `RBIT`. -/

namespace Sys2Proof.Machine

open Sys2Proof

/-- `WriteSlot(v)` (R121). -/
def writeSlot (c : Config) (v : Bool) (l : Line) : Line :=
  if v then
    (((l.assertLow).delay c.tW1L).release).delay (c.tSlot - c.tW1L)
  else
    (((l.assertLow).delay c.tW0L).release).delay (c.tSlot - c.tW0L)

/-- The sampling loop of `ReadSlot` (R125): `n` samples are still to be taken, `T_RDS` apart; `seen` is `seen_low`. -/
def sampleWindow (c : Config) : Nat → Bool → Line → Bool × Line
  | 0, seen, l => (seen, l)
  | n + 1, seen, l =>
    let taken := l.sample
    let spaced := if n = 0 then taken.2 else taken.2.delay c.tRds
    sampleWindow c n (sawLow seen taken.1) spaced

/-- `ReadSlot()` (R125): all samples are always taken, and the slot waits out its remainder (R128). The sum in R129's prose
counts one primitive more than this pseudocode has (log entry 15). -/
def readSlot (c : Config) (l : Line) : Bool × Line :=
  let opened := (((l.assertLow).delay c.tRdl).release).delay (c.tRds - c.tRdl)
  let window := sampleWindow c c.nSamples false opened
  (readBit window.1, window.2.delay (c.tSlot - c.tRdWin))

/-- The body of `WBIT v` (R122). -/
def wbitBody (v : Bool) (s : State) : Result × State :=
  (.ok, { s with line := writeSlot s.cfg v s.line })

/-- `WBIT v` (R122): not gated by `STATE` and does not change it. -/
def execWbit (v : Bool) (s : State) : Host.Outcome State Fault Refusal :=
  .next (runCommand (wbitBody v) s)

/-- The body of `RBIT` (R127). -/
def rbitBody (s : State) : Result × State :=
  let slot := readSlot s.cfg s.line
  (.ok, { s with rdata := zextBit slot.1, line := slot.2 })

/-- `RBIT` (R127): not gated by `STATE` and does not change it. -/
def execRbit (s : State) : Host.Outcome State Fault Refusal :=
  .next (runCommand rbitBody s)

end Sys2Proof.Machine
end

