-- ==== Sys2Proof/Machine/Framer.lean ====
section
/-! DEFINITION. The byte framer (41_byte_framer.md): `WriteByteSeq`, `ReadByteSeq`, and the commands `WBYTE`, `RBYTE`. -/

namespace Sys2Proof.Machine

open Sys2Proof

/-- Write slots for a list of bits, first bit first; nothing between the slots (R131, R135). -/
def writeBits (c : Config) : List Bool → Line → Line
  | [], l => l
  | b :: bs, l => writeBits c bs (writeSlot c b l)

/-- `WriteByteSeq(x)` (R136): 8 write slots, bit 0 first. -/
def writeByteSeq (c : Config) (x : Byte) (l : Line) : Line := writeBits c (bitsOf x) l

/-- The loop of `ReadByteSeq` (R138): `n` slots are still to be read, the next one is bit `k` of `x`. -/
def readByteLoop (c : Config) : Nat → Nat → Byte → Line → Byte × Line
  | 0, _, x, l => (x, l)
  | n + 1, k, x, l =>
    let slot := readSlot c l
    readByteLoop c n (k + 1) (setBit x k slot.1) slot.2

/-- `ReadByteSeq()` (R138): 8 read slots, the first is bit 0. It makes the primitives of its pseudocode, 8 times those of
R125; the sum in R138's prose counts one more in each slot (log entry 15). -/
def readByteSeq (c : Config) (l : Line) : Byte × Line := readByteLoop c 8 0 0x00 l

/-- The body of `WBYTE` (R137). -/
def wbyteBody (s : State) : Result × State :=
  (.ok, { s with line := writeByteSeq s.cfg s.wdata s.line })

/-- `WBYTE` (R137): not gated by `STATE` and does not change it. -/
def execWbyte (s : State) : Host.Outcome State Fault Refusal :=
  .next (runCommand wbyteBody s)

/-- The body of `RBYTE` (R139). -/
def rbyteBody (s : State) : Result × State :=
  let read := readByteSeq s.cfg s.line
  (.ok, { s with rdata := read.1, line := read.2 })

/-- `RBYTE` (R139): not gated by `STATE` and does not change it. -/
def execRbyte (s : State) : Host.Outcome State Fault Refusal :=
  .next (runCommand rbyteBody s)

end Sys2Proof.Machine
end

