-- ==== Sys2Proof/Machine/Presence.lean ====
section
/-! DEFINITION. The reset/presence detector (42_reset_presence.md): `PollIdle`, `ResetSeq`, and the commands `RESET`,
`IDLEPOLL`. -/

namespace Sys2Proof.Machine

open Sys2Proof

/-- What `ResetSeq()` returns (R150). -/
inductive ResetResult where
  | success
  | noPresence
  | stillBusy
  | neverReleased
  deriving DecidableEq, Repr

/-- `PollIdle()` (R156) with `t` reads left: `true` is `released`, `false` is `exhausted`. -/
def pollIdle (c : Config) : Nat → Line → Bool × Line
  | 0, l => (false, l)
  | t + 1, l =>
    let slot := readSlot c l
    if slot.1 then (true, slot.2) else pollIdle c t slot.2

/-- Steps 2 to 6 of `ResetSeq()` on the line (R150, R152 to R155). -/
def resetPulse (c : Config) (l : Line) : ResetResult × Line :=
  let first := (((l.assertLow).delay c.tRstl).release).pollUntil .low c.tPdh
  match first.1 with
  | .timeout => (.noPresence, first.2)
  | .hit _ =>
    let second := first.2.pollUntil .high c.tPdl
    match second.1 with
    | .timeout => (.neverReleased, second.2)
    | .hit _ => (.success, second.2.delay c.tRstRem)

/-- The `STATE` that a reset pulse leaves (R150 steps 3, 4 and 6). -/
def stateAfterPulse : ResetResult → BusState
  | .success => .romCommand
  | .noPresence | .stillBusy | .neverReleased => .idle

/-- `ResetSeq()` (R150): reads `STATE`, `IBUDGET` and the parameters, gives the result, the new `STATE` and the line. -/
def resetSeq (c : Config) (b : BusState) (budget : BitVec 16) (l : Line) : ResetResult × BusState × Line :=
  let polled := if b = .awaitingIdle then pollIdle c budget.toNat l else (true, l)
  if polled.1 then
    let pulse := resetPulse c polled.2
    (pulse.1, stateAfterPulse pulse.1, pulse.2)
  else
    (.stillBusy, b, polled.2)

/-- `ResetSeq()` on the state: it writes `STATE` and touches the line (R145). -/
def State.resetSeq (s : State) : ResetResult × State :=
  let done := Sys2Proof.Machine.resetSeq s.cfg s.busState s.ibudget s.line
  (done.1, { s with busState := done.2.1, line := done.2.2 })

/-- How `RESET` ends for each answer of `ResetSeq()` (R146). -/
def resultOfReset : ResetResult → Result
  | .success => .ok
  | .noPresence => .noPresence
  | .stillBusy => .lfStillBusy
  | .neverReleased => .lfNeverReleased

/-- The body of `RESET` (R146). -/
def resetBody (s : State) : Result × State :=
  let handshake := s.resetSeq
  (resultOfReset handshake.1, handshake.2)

/-- `RESET` (R146). -/
def execReset (s : State) : Host.Outcome State Fault Refusal :=
  .next (runCommand resetBody s)

/-- The body of `IDLEPOLL` (R160). -/
def idlepollBody (s : State) : Result × State :=
  (.ok, { s with ibudget := s.budget, busState := .awaitingIdle })

/-- `IDLEPOLL` (R160): legal in every `STATE`; never touches the line. -/
def execIdlepoll (s : State) : Host.Outcome State Fault Refusal :=
  .next (runCommand idlepollBody s)

end Sys2Proof.Machine
end

