-- ==== Sys2Proof/Machine/Sequencer.lean ====
section
/-! DEFINITION. The bus state machine (43_state_machine.md): the gate of the gated commands, and `GETST`. -/

namespace Sys2Proof.Machine

open Sys2Proof

/-- The gate (R166): the command runs only in `need`; else it ends `STATE_ERROR` with nothing done. The test comes
before every other action. -/
def gated (need : BusState) (body : State → Result × State) (s : State) : Result × State :=
  if s.busState = need then body s else (.stateError, s)

/-- The body of `GETST` (R170). -/
def getstBody (s : State) : Result × State :=
  (.ok, { s with rdata := (busStateCode s.busState).setWidth 8 })

/-- `GETST` (R170): legal in every state; never touches the line. -/
def execGetst (s : State) : Host.Outcome State Fault Refusal :=
  .next (runCommand getstBody s)

end Sys2Proof.Machine
end

