-- ==== Sys2Proof/Machine/Addressing.lean ====
section
/-! DEFINITION. The direct-addressing commands (46_direct_addressing.md): `RDROM`, `MATCH`, `SKIP`, `RDPWR`. -/

namespace Sys2Proof.Machine

open Sys2Proof

/-- The loop that reads an address (R215): `n` bytes are still to be read, the next one is byte `j` of `out`. -/
def readAddressLoop (c : Config) : Nat → Nat → DeviceAddress → Line → DeviceAddress × Line
  | 0, _, out, l => (out, l)
  | n + 1, j, out, l =>
    let read := readByteSeq c l
    readAddressLoop c n (j + 1) (setByte out j read.1) read.2

/-- The part of `RDROM` after a successful handshake (R215). -/
def rdromSelected (s : State) : Result × State :=
  let read := readAddressLoop s.cfg 8 0 0 (writeByteSeq s.cfg s.cfg.cmdReadRom s.line)
  if addressValid s.cfg read.1 then
    (.ok, { s with rbuf := read.1, busState := .functionCommand, line := read.2 })
  else (.checksumError, { s.unspecifyRbuf with busState := .idle, line := read.2 })

/-- The body of `RDROM` (R215). -/
def rdromBody (s : State) : Result × State :=
  let handshake := s.resetSeq
  if handshake.1 = .success then rdromSelected handshake.2 else (.noDevices, handshake.2.unspecifyRbuf)

/-- `RDROM` (R215): composite, legal in every state (R167). -/
def execRdrom (s : State) : Host.Outcome State Fault Refusal :=
  .next (runCommand rdromBody s)

/-- Bytes on the line, first byte first (R64). -/
def writeBytes (c : Config) : List Byte → Line → Line
  | [], l => l
  | b :: bs, l => writeBytes c bs (writeByteSeq c b l)

/-- The body of `MATCH` (R218): it reads nothing from the line and does not test the checksum of `ABUF`. -/
def matchBody : State → Result × State :=
  gated .romCommand fun s =>
    (.ok, { s with
      line := writeBytes s.cfg (bytesOf s.abuf 8) (writeByteSeq s.cfg s.cfg.cmdMatchRom s.line)
      busState := .functionCommand })

/-- `MATCH` (R218). -/
def execMatch (s : State) : Host.Outcome State Fault Refusal :=
  .next (runCommand matchBody s)

/-- The body of `SKIP` (R221). -/
def skipBody : State → Result × State :=
  gated .romCommand fun s =>
    (.ok, { s with line := writeByteSeq s.cfg s.cfg.cmdSkipRom s.line, busState := .functionCommand })

/-- `SKIP` (R221). -/
def execSkip (s : State) : Host.Outcome State Fault Refusal :=
  .next (runCommand skipBody s)

/-- The body of `RDPWR` (R224): `RDATA` is 0x00 for Parasite, 0x01 for External. -/
def rdpwrBody : State → Result × State :=
  gated .functionCommand fun s =>
    let slot := readSlot s.cfg (writeByteSeq s.cfg s.cfg.cmdReadPower s.line)
    (.ok, { s with rdata := zextBit slot.1, line := slot.2, busState := .idle })

/-- `RDPWR` (R224). -/
def execRdpwr (s : State) : Host.Outcome State Fault Refusal :=
  .next (runCommand rdpwrBody s)

end Sys2Proof.Machine
end

