-- ==== Sys2Proof/Machine/Search.lean ====
section
/-! DEFINITION. The ROM search state machine (44_rom_search.md): the walk over the 64 address bits, and `SEARCH`. -/

namespace Sys2Proof.Machine

open Sys2Proof

/-- The direction at a conflict at bit `i` and the recorded position after it (R184; 90_conflicts.md C2): `last` is the
cursor position, `cursor` the cursor's address, `mark` is `rec`. -/
def conflictChoice (last : Int) (cursor : DeviceAddress) (i mark : Nat) : Bool × Nat :=
  if (i : Int) = last then (true, mark)
  else if last < (i : Int) then (false, i)
  else if cursor.getLsbD i then (true, mark)
  else (false, i)

/-- The bit to write and the recorded position for the pair read at bit `i`, other than `(1, 1)` (R101, R184, R186). -/
def searchChoice (last : Int) (cursor : DeviceAddress) (i mark : Nat) (bitVal bitComplement : Bool) : Bool × Nat :=
  if !bitVal && !bitComplement then conflictChoice last cursor i mark else (bitVal, mark)

/-- What the walk has found: the address and the recorded position (R183). -/
structure Found where
  /-- `out`. -/
  address : DeviceAddress
  /-- `rec`, 0 to 64. -/
  mark : Nat
  deriving DecidableEq, Repr

/-- Step 3 of `SEARCH` (R180, R183) with `n` bits left, the next one `i`: `none` when a pair reads `(1, 1)`, after which
no write slot follows (R185). -/
def searchWalk (c : Config) (last : Int) (cursor : DeviceAddress) : Nat → Nat → Found → Line → Option Found × Line
  | 0, _, f, l => (some f, l)
  | n + 1, i, f, l =>
    let direct := readSlot c l
    let complement := readSlot c direct.2
    if direct.1 && complement.1 then (none, complement.2)
    else
      let choice := searchChoice last cursor i f.mark direct.1 complement.1
      searchWalk c last cursor n (i + 1) ⟨setBit f.address i choice.1, choice.2⟩ (writeSlot c choice.1 complement.2)

/-- `RES_POS` after every failure but `ILLEGAL`: -1 (R33). -/
def resPosError : Byte := 0xFF

/-- A failed `SEARCH` (R33, R36): `RES_POS` is -1 and `RBUF` is unspecified. -/
def State.searchFailed (s : State) : State := { s.unspecifyRbuf with resPos := resPosError }

/-- The command byte of step 2 (R180, R190). -/
def searchCommand (c : Config) (a : Bool) : Byte := if a then c.cmdAlarmSearch else c.cmdSearchRom

/-- Steps 2 to 4 of `SEARCH` (R180), after a successful handshake. -/
def searchSelected (a : Bool) (s : State) : Result × State :=
  let walk := searchWalk s.cfg s.cursorPosition s.abuf 64 0 ⟨0, 64⟩ (writeByteSeq s.cfg (searchCommand s.cfg a) s.line)
  match walk.1 with
  | none => (.protocolError, { s.searchFailed with busState := .idle, line := walk.2 })
  | some found =>
    if addressValid s.cfg found.address then
      (.ok, { s with
        rbuf := found.address
        resPos := BitVec.ofNat 8 found.mark
        busState := .functionCommand
        line := walk.2 })
    else (.checksumError, { s.searchFailed with busState := .idle, line := walk.2 })

/-- The body of `SEARCH a` (R180): the cursor test (R181), the handshake (R182), the walk. -/
def searchBody (a : Bool) (s : State) : Result × State :=
  if cursorLegal s.cursorPosition then
    let handshake := s.resetSeq
    if handshake.1 = .success then searchSelected a handshake.2 else (.noDevices, handshake.2.searchFailed)
  else (.illegal, s)

/-- `SEARCH a` (R180): composite, legal in every state (R167). -/
def execSearch (a : Bool) (s : State) : Host.Outcome State Fault Refusal :=
  .next (runCommand (searchBody a) s)

end Sys2Proof.Machine
end

