-- ==== Sys2Proof/Machine/Dispatch.lean ====
section
/-! DEFINITION. One arm per host command (30_encoding.md R91). -/

namespace Sys2Proof.Machine

open Sys2Proof

def exec (i : Instr) (s : State) : Host.Outcome State Fault Refusal :=
  match i with
  | .reset => Sys2Proof.Machine.execReset s
  | .wbit v => Sys2Proof.Machine.execWbit v s
  | .rbit => Sys2Proof.Machine.execRbit s
  | .wbyte => Sys2Proof.Machine.execWbyte s
  | .rbyte => Sys2Proof.Machine.execRbyte s
  | .search a => Sys2Proof.Machine.execSearch a s
  | .rdrom => Sys2Proof.Machine.execRdrom s
  | .matchRom => Sys2Proof.Machine.execMatch s
  | .skip => Sys2Proof.Machine.execSkip s
  | .rdpwr => Sys2Proof.Machine.execRdpwr s
  | .idlepoll => Sys2Proof.Machine.execIdlepoll s
  | .crc len => Sys2Proof.Machine.execCrc len s
  | .getst => Sys2Proof.Machine.execGetst s

end Sys2Proof.Machine
end

