-- ==== Sys2Proof/Machine/HostPort.lean ====
section
/-! DEFINITION. The host's side (10_state.md R26 to R37; 70_reset_and_hazards.md R273, R285): the register window, the issue
of a command word, and one host action. -/

namespace Sys2Proof.Machine

open Sys2Proof

/-- `HostRead(a)` for `a` in 0x00 to 0x1F (R26): `CMD` and the reserved locations read 0x00. It has no side effect (R70). -/
def hostRead (a : Nat) (s : State) : Byte :=
  match a with
  | 0x01 => s.statusByte
  | 0x02 => s.wdata
  | 0x03 => s.rdata
  | 0x04 => s.crcv
  | 0x05 => s.poly
  | 0x06 => s.curPos
  | 0x07 => s.resPos
  | 0x08 => s.budgetL
  | 0x09 => s.budgetH
  | _ =>
    if 0x10 ≤ a ∧ a < 0x18 then byteOf s.abuf (a - 0x10)
    else if 0x18 ≤ a ∧ a < 0x20 then byteOf s.rbuf (a - 0x18)
    else 0x00

/-- `HostWrite(a, v)` for `a` in 0x01 to 0x1F (R26): a write to a read-only or reserved location is ignored. -/
def hostStore (a : Nat) (v : Byte) (s : State) : State :=
  match a with
  | 0x02 => { s with wdata := v }
  | 0x04 => { s with crcv := v }
  | 0x05 => { s with poly := v }
  | 0x06 => { s with curPos := v }
  | 0x08 => { s with budgetL := v }
  | 0x09 => { s with budgetH := v }
  | _ => if 0x10 ≤ a ∧ a < 0x18 then { s with abuf := setByte s.abuf (a - 0x10) v } else s

/-- A reserved command word ends at once with result `ILLEGAL` and changes nothing else (R93, R243). -/
def reservedBody (s : State) : Result × State := (.illegal, s)

/-- The issue of a command word (R27, R90): the command it selects runs, or the word is reserved. -/
def issue (w : Byte) (s : State) : Host.Outcome State Fault Refusal :=
  match decode w with
  | .ok i => exec i s
  | .error _ => .next (runCommand reservedBody s)

/-- A host write (R26, R27). While `BUSY` is 1 every write is ignored (R27, R273). -/
def hostWrite (a : Nat) (v : Byte) (s : State) : Host.Outcome State Fault Refusal :=
  if s.busy then .next s
  else if a = 0x00 then issue v s
  else .next (hostStore a v s)

/-- One host action (R285). An address above 0x1F is outside the block (R37). -/
def hostAct (act : HostAction) (s : State) : Host.Outcome State Fault Refusal :=
  match act with
  | .write a v => if a < 0x20 then hostWrite a v s else .fault (.hostAddressOutside a)
  | .read a =>
    if a < 0x20 then .next { s with readback := (a, hostRead a s) :: s.readback } else .fault (.hostAddressOutside a)

/-- The next host action is taken; with none left the block waits between commands and nothing changes (R71 (d), R285;
log entry 5). -/
def hostTurn (s : State) : Host.Outcome State Fault Refusal :=
  match s.host with
  | [] => .next s
  | act :: rest => hostAct act { s with host := rest }

/-- The state in which the host's next action is the write of the word `w` to `CMD`, with `BUSY` 0 so that it is
taken (R27). -/
def placeCommand (w : Byte) (s : State) : State := { s with busy := false, host := .write 0x00 w :: s.host }

end Sys2Proof.Machine
end

