-- ==== Sys2Proof/Machine/Step.lean ====
section
/-! DEFINITION. One step of the block: one host action, a whole command if it writes `CMD` (00_scope.md R16). -/

namespace Sys2Proof.Machine

open Sys2Proof

/-- One step (R16, R285). -/
def step (s : State) : Host.Outcome State Fault Refusal := hostTurn s

/-- `s` with the command word of the table as the host's next write of `CMD` (log entry 5). -/
def State.withFetchWord (s : State) (nbits w : Nat) : State := placeCommand (tableByte nbits w) s

end Sys2Proof.Machine
end

