-- ==== Sys2Proof/Machine/Slots.lean ====
section
/-! DEFINITION. The line trace at slot level (00_scope.md R14; 30_encoding.md R95 to R98): the frames the core puts on the
line and the primitives each is made of. No rule of the core depends on this file; statements about traces are said with it. -/

namespace Sys2Proof.Machine

open Sys2Proof

/-- How a reset frame ended, with the elapsed times of its polls (R98, R159). -/
inductive Handshake where
  /-- The presence poll timed out. -/
  | noPresence
  /-- The presence pulse started after `u1` units and did not end within `T_PDL`. -/
  | neverReleased (u1 : Nat)
  /-- The presence pulse started after `u1` units and ended `u2` units later. -/
  | success (u1 u2 : Nat)
  deriving DecidableEq, Repr

/-- One frame on the line (R14): `W0`, `W1`, a read slot with its samples, or `RST`. -/
inductive Slot where
  | write (v : Bool)
  | read (samples : List Level)
  | reset (h : Handshake)
  deriving DecidableEq, Repr

/-- The bit a read slot with these samples returns: the AND of the sampled levels (R126). -/
def bitOfSamples (samples : List Level) : Bool := samples.all fun v => decide (v = .high)

/-- The samples of a read slot, `T_RDS` apart (R125). -/
def windowEvents (c : Config) : List Level → List LineEvent
  | [] => []
  | [v] => [.sample v]
  | v :: w :: rest => .sample v :: .delay c.tRds :: windowEvents c (w :: rest)

/-- The primitives of a reset frame after its low pulse (R159). -/
def Handshake.events (c : Config) : Handshake → List LineEvent
  | .noPresence => [.poll .low c.tPdh .timeout]
  | .neverReleased u1 => [.poll .low c.tPdh (.hit u1), .poll .high c.tPdl .timeout]
  | .success u1 u2 => [.poll .low c.tPdh (.hit u1), .poll .high c.tPdl (.hit u2), .delay c.tRstRem]

/-- The primitives of a frame, in time order (R121, R125, R159). -/
def Slot.events (c : Config) : Slot → List LineEvent
  | .write true => [.assertLow, .delay c.tW1L, .release, .delay (c.tSlot - c.tW1L)]
  | .write false => [.assertLow, .delay c.tW0L, .release, .delay (c.tSlot - c.tW0L)]
  | .read samples =>
    [.assertLow, .delay c.tRdl, .release, .delay (c.tRds - c.tRdl)] ++ windowEvents c samples ++
      [.delay (c.tSlot - c.tRdWin)]
  | .reset h => [.assertLow, .delay c.tRstl, .release] ++ h.events c

/-- The primitives of a sequence of frames: nothing stands between two frames (R131, R135). -/
def slotEvents (c : Config) (slots : List Slot) : List LineEvent := slots.flatMap (Slot.events c)

/-- The frame is one the core can make: every read slot takes all its samples (R125), and a poll that hit did so within
its bound (R54). -/
def Slot.Complete (c : Config) : Slot → Bool
  | .write _ => true
  | .read samples => decide (samples.length = c.nSamples)
  | .reset .noPresence => true
  | .reset (.neverReleased u1) => decide (u1 ≤ c.tPdh)
  | .reset (.success u1 u2) => decide (u1 ≤ c.tPdh) && decide (u2 ≤ c.tPdl)

/-- The write slots of a byte, bit 0 first (R63, R136). -/
def byteSlots (x : Byte) : List Slot := (bitsOf x).map Slot.write

/-! ## The line before and after frames -/

/-- The samples that the `k`-th of the next read slots takes, when no poll comes between (R125). -/
def Line.slotSamples (c : Config) (l : Line) (k : Nat) : List Level :=
  (List.range c.nSamples).map fun j => l.levelAt (k * c.nSamples + j)

/-- The bit that the `k`-th of the next read slots returns, when no poll comes between (R126). -/
def Line.bitAt (c : Config) (l : Line) (k : Nat) : Bool := bitOfSamples (l.slotSamples c k)

/-- The next `n` read slots, when no poll comes between. -/
def Line.readFrames (c : Config) (l : Line) (n : Nat) : List Slot :=
  (List.range n).map fun k => .read (l.slotSamples c k)

/-- How many levels a frame samples. -/
def Slot.samplesTaken : Slot → Nat
  | .write _ | .reset _ => 0
  | .read samples => samples.length

/-- How many polls a frame makes (R150). -/
def Slot.pollsTaken : Slot → Nat
  | .write _ | .read _ => 0
  | .reset .noPresence => 1
  | .reset (.neverReleased _) | .reset (.success _ _) => 2

/-- The line after these frames: their primitives are appended to the trace, their answers have been used up, and the
line is released. -/
def Line.after (c : Config) (slots : List Slot) (l : Line) : Line where
  drive := l.drive && slots.isEmpty
  trace := (slotEvents c slots).reverse ++ l.trace
  samples := l.samples.drop (slots.map Slot.samplesTaken).sum
  polls := l.polls.drop (slots.map Slot.pollsTaken).sum
  asked := l.asked + ((slots.map Slot.samplesTaken).sum + (slots.map Slot.pollsTaken).sum)

/-- The primitives between two moments of the line: what a command that began at `l` and ended at `m` has put into the
trace (R14). -/
def Line.since (l m : Line) : List LineEvent := m.events.drop l.events.length

/-- How the next reset pulse goes: the two polls of steps 3 and 4 against their bounds (R150, R153, R154). -/
def Line.nextHandshake (c : Config) (l : Line) : Handshake :=
  match pollAnswer c.tPdh (l.pollAt 0) with
  | .timeout => .noPresence
  | .hit u1 =>
    match pollAnswer c.tPdl (l.pollAt 1) with
    | .timeout => .neverReleased u1
    | .hit u2 => .success u1 u2

/-- What `ResetSeq()` returns after a reset frame that ended so (R150). -/
def Handshake.outcome : Handshake → ResetResult
  | .noPresence => .noPresence
  | .neverReleased _ => .neverReleased
  | .success _ _ => .success

/-- The bit that R184 and R186 give at address bit `i` for the pair read there: at a conflict 1 at the cursor position,
0 above it, the cursor's bit below it; otherwise the bit read. -/
def searchBit (last : Int) (cursor : DeviceAddress) (i : Nat) (bitVal bitComplement : Bool) : Bool :=
  if bitVal = false ∧ bitComplement = false then
    if (i : Int) = last then true else if last < (i : Int) then false else cursor.getLsbD i
  else bitVal

/-- Address bit `i` is a conflict at which a walk that found `out` took 0 (R184): the 1-branch there is unexplored. The
reads are those of the line `l`, two for each bit. -/
def unexplored (c : Config) (l : Line) (out : DeviceAddress) (i : Nat) : Bool :=
  !l.bitAt c (2 * i) && !l.bitAt c (2 * i + 1) && !out.getLsbD i

/-- The frames of the address phase of a search (R101): for each bit the read slot, the read slot of the complement, and
the write slot of the bit of `out`. -/
def searchFrames (c : Config) (l : Line) (out : DeviceAddress) (n : Nat) : List Slot :=
  (List.range n).flatMap fun i =>
    [.read (l.slotSamples c (2 * i)), .read (l.slotSamples c (2 * i + 1)), .write (out.getLsbD i)]

/-- The write slots of an address, byte 0 first, bit 0 of each byte first (R64). -/
def addressSlots (a : DeviceAddress) : List Slot := (List.range 64).map fun i => .write (a.getLsbD i)

end Sys2Proof.Machine
end

