-- ==== Sys2Proof/Machine/RefBus.lean ====
section
/-! DEFINITION. The reference environment of 20_memory.md R77 to R86, slot by slot. It is evidence, not part of the block
(R77): no rule of the core depends on it; a statement may take it as a premise about the line's answers (R57). -/

namespace Sys2Proof.Machine

open Sys2Proof

/-- What a slave does with the next slots (R79 to R84). A number is the address bit it stands at; a list holds the bits of
the byte it is collecting, first bit first. -/
inductive SlaveMode where
  /-- Mode `rom` (R80): it collects a ROM command byte. -/
  | rom (got : List Bool)
  /-- Mode `search` before the first read slot of bit `i` (R81). -/
  | searchBit (i : Nat)
  /-- Mode `search` before the second read slot of bit `i` (R81). -/
  | searchComplement (i : Nat)
  /-- Mode `search` before the write slot of bit `i` (R81). -/
  | searchDecision (i : Nat)
  /-- Mode `readrom` at bit `i` (R83). -/
  | readRom (i : Nat)
  /-- Mode `match` at bit `i` (R82). -/
  | matching (i : Nat)
  /-- Mode `func` (R84): it collects a function command byte. -/
  | func (got : List Bool)
  /-- Mode `pwr` (R84). -/
  | pwr
  /-- After a device-specific function byte: outside the spec (R84), so it may answer anything. -/
  | deviceSpecific
  deriving DecidableEq, Repr

/-- A slave of the reference environment (R78). -/
structure Slave where
  /-- Its 64-bit address. -/
  rom : DeviceAddress
  /-- It is in an alarm condition. -/
  alarm : Bool
  /-- It uses parasite power. -/
  parasite : Bool
  /-- It still takes part. -/
  active : Bool
  /-- Its mode with the bit index. -/
  mode : SlaveMode
  deriving DecidableEq, Repr

/-- The environment (R78): the slaves, and the counter `busy` of read slots still to be held low. DESIGN CHOICE: the spec
does not say which event starts a slow operation (R86); here only the environment that a statement starts from carries a
`busy` above 0, and no frame raises it (log entry 18). -/
structure Bus where
  slaves : List Slave
  busy : Nat
  deriving DecidableEq, Repr

/-- The byte that 8 bits make, first bit least significant (R63, R80). -/
def byteOfBits (bits : List Bool) : Byte :=
  (List.range 8).foldl (fun x k => setBit x k (bits.getD k false)) 0x00

/-- An active slave drives 0 in a read slot (R81, R83, R84). -/
def Slave.drivesLow (v : Slave) : Bool :=
  v.active && match v.mode with
  | .searchBit i => !v.rom.getLsbD i
  | .searchComplement i => v.rom.getLsbD i
  | .readRom i => !v.rom.getLsbD i
  | .pwr => v.parasite
  | _ => false

/-- An active slave is doing something outside the spec (R84). -/
def Slave.outsideSpec (v : Slave) : Bool := v.active && decide (v.mode = .deviceSpecific)

/-- An active slave after a read slot (R81, R83). Log entry 13 for a slot a mode says nothing of. -/
def Slave.afterRead (v : Slave) : Slave :=
  if v.active then
    match v.mode with
    | .searchBit i => { v with mode := .searchComplement i }
    | .searchComplement i => { v with mode := .searchDecision i }
    | .readRom i => { v with mode := if i = 63 then .func [] else .readRom (i + 1) }
    | _ => v
  else v

/-- What a slave does when it has collected a ROM command byte (R80). -/
def Slave.romCommand (c : Config) (v : Slave) (x : Byte) : Slave :=
  if x = c.cmdSearchRom then { v with mode := .searchBit 0 }
  else if x = c.cmdAlarmSearch then
    if v.alarm then { v with mode := .searchBit 0 } else { v with active := false }
  else if x = c.cmdReadRom then { v with mode := .readRom 0 }
  else if x = c.cmdMatchRom then { v with mode := .matching 0 }
  else if x = c.cmdSkipRom then { v with mode := .func [] }
  else { v with active := false }

/-- What a slave does when it has collected a function command byte (R84). -/
def Slave.functionCommand (c : Config) (v : Slave) (x : Byte) : Slave :=
  { v with mode := if x = c.cmdReadPower then .pwr else .deviceSpecific }

/-- An active slave after a write slot (R80, R81, R82, R84). Log entry 13 for a slot a mode says nothing of. -/
def Slave.afterWrite (c : Config) (b : Bool) (v : Slave) : Slave :=
  if v.active then
    match v.mode with
    | .rom got =>
      if got.length = 7 then v.romCommand c (byteOfBits (got ++ [b])) else { v with mode := .rom (got ++ [b]) }
    | .searchDecision i =>
      if v.rom.getLsbD i = b then { v with mode := if i = 63 then .func [] else .searchBit (i + 1) }
      else { v with active := false }
    | .matching i =>
      if v.rom.getLsbD i = b then { v with mode := if i = 63 then .func [] else .matching (i + 1) }
      else { v with active := false }
    | .func got =>
      if got.length = 7 then v.functionCommand c (byteOfBits (got ++ [b])) else { v with mode := .func (got ++ [b]) }
    | _ => v
  else v

/-- A slave after a reset frame (R79): active, in mode `rom`, with an empty input byte. -/
def Slave.afterReset (v : Slave) : Slave := { v with active := true, mode := .rom [] }

/-- The environment may answer a read slot with this bit (R78): 0 while `busy` is above 0 or if any active slave drives 0,
1 otherwise. A slave doing something outside the spec may drive 0 or not (R84), so 0 is possible too where such a slave is
active; 1 is not where another drives 0. -/
def Bus.mayRead (bus : Bus) (bit : Bool) : Bool :=
  if 0 < bus.busy ∨ bus.slaves.any Slave.drivesLow = true then bit == false
  else bit || bus.slaves.any Slave.outsideSpec

/-- The environment answers a reset frame so (R79): no presence if there is no slave, else a presence pulse within both
bounds. -/
def Bus.mayReset (bus : Bus) (h : Handshake) : Bool :=
  match h with
  | .noPresence => bus.slaves.isEmpty
  | .neverReleased _ => false
  | .success _ _ => !bus.slaves.isEmpty

/-- The environment after one frame; `none` if the frame's answers are not the environment's (R78 to R86). A read slot
counts `busy` down and no frame sets it, which is a DESIGN CHOICE: R86 names no event that starts a slow operation (log
entry 18). -/
def Bus.take (c : Config) (bus : Bus) (slot : Slot) : Option Bus :=
  match slot with
  | .write b => some { bus with slaves := bus.slaves.map (Slave.afterWrite c b) }
  | .read samples =>
    if bus.mayRead (bitOfSamples samples) then
      some { slaves := bus.slaves.map Slave.afterRead, busy := bus.busy - 1 }
    else none
  | .reset h => if bus.mayReset h then some { bus with slaves := bus.slaves.map Slave.afterReset } else none

/-- The environment after a sequence of frames; `none` if some answer is not the environment's. -/
def Bus.run (c : Config) : List Slot → Bus → Option Bus
  | [], bus => some bus
  | slot :: slots, bus =>
    match bus.take c slot with
    | some next => Bus.run c slots next
    | none => none

/-- A part of the line trace is one that this environment can have answered, and it is left as `after`: the premise of a
statement about the reference environment (R57). -/
def Bus.Answers (c : Config) (bus : Bus) (events : List LineEvent) (after : Bus) : Prop :=
  ∃ slots, (∀ slot ∈ slots, slot.Complete c = true) ∧ events = slotEvents c slots ∧ Bus.run c slots bus = some after

/-- `key(A)` (R191): the 64-bit number whose most significant bit is address bit 0, `sum over i of A.bit(i) * 2^(63 - i)`. -/
def addressKey (a : DeviceAddress) : Nat :=
  ((List.range 64).map fun i => (a.getLsbD i).toNat * 2 ^ (63 - i)).sum

/-- The addresses that take part in a search (R80, R190): of all slaves, or of those in alarm for an alarm search. -/
def Bus.searched (bus : Bus) (alarmOnly : Bool) : List DeviceAddress :=
  (bus.slaves.filter fun v => !alarmOnly || v.alarm).map Slave.rom

/-- The lowest-numbered bit where two addresses differ (R191). -/
def FirstDifference (a b : DeviceAddress) (n : Nat) : Prop :=
  n < 64 ∧ a.getLsbD n ≠ b.getLsbD n ∧ ∀ i < n, a.getLsbD i = b.getLsbD i

/-- `b` is the address of the list that follows `a` in ascending `key` (R191). -/
def NextInKey (addresses : List DeviceAddress) (a b : DeviceAddress) : Prop :=
  b ∈ addresses ∧ addressKey a < addressKey b ∧ ∀ x ∈ addresses, addressKey a < addressKey x → addressKey b ≤ addressKey x

/-- The position an enumeration returns with `a` (R189, R192): 64 with the address of greatest `key`, else the bit where
the following address differs first. -/
def ReturnedPosition (addresses : List DeviceAddress) (a : DeviceAddress) (p : Nat) : Prop :=
  (p = 64 ∧ ∀ x ∈ addresses, addressKey x ≤ addressKey a) ∨
    ∃ b, NextInKey addresses a b ∧ FirstDifference a b p

end Sys2Proof.Machine
end

