-- ==== Sys2Proof/Safety.lean ====
section
/-! DEFINITION. What holds of the block between two host actions, and what a safe step is. Statements are said in these
terms. -/

namespace Sys2Proof

open Sys2Proof.Machine

/-- Between commands the block is quiet: no command runs and the line is released (R28, R40). -/
def Machine.State.Quiet (s : State) : Prop := s.busy = false ∧ s.line.drive = false

/-- The line trace is made of whole frames, one after the other: no slot and no reset frame is cut short, and nothing
stands between them (R69, R97, R131, R275). -/
def Machine.State.WholeFrames (s : State) : Prop :=
  ∃ slots, (∀ slot ∈ slots, slot.Complete s.cfg = true) ∧ s.line.events = slotEvents s.cfg slots

/-- `RES_POS` holds -1 or 0 to 64 (R33, R66). -/
def Machine.State.ResPosLegal (s : State) : Prop := s.resPos = 0xFF ∨ s.resPos.toNat ≤ 64

/-- No command has ended `LF_HELD_TOO_LONG` (R162). -/
def Machine.State.NeverHeldTooLong (s : State) : Prop := s.result ≠ .lfHeldTooLong

/-- The invariant of the block between host actions. -/
def Machine.State.Inv (s : State) : Prop :=
  s.Quiet ∧ s.WholeFrames ∧ s.ResPosLegal ∧ s.NeverHeldTooLong

/-- A step is safe when it answers a next state: it neither faults nor is refused. -/
def Machine.State.SafeStep (s : State) : Prop := ∃ t, step s = .next t

/-- The host's next action, if there is one, is inside the register window (R26, R37). -/
def Machine.State.HostInside (s : State) : Prop :=
  match s.host with
  | .write a _ :: _ => a < 0x20
  | .read a :: _ => a < 0x20
  | [] => True

/-- The handshake at the head of `RESET`, `SEARCH` and `RDROM` will be good, and it leaves the line as `r` (R150, R156): the
presence pulse starts and ends within its bounds; in `AWAITING_IDLE` a read slot within the budget returns 1 before that. It
is said of the state alone. -/
def Machine.State.GoodHandshake (s : State) (r : Line) : Prop :=
  ∃ (polled : List Slot) (u1 u2 : Nat),
    let m := s.line.after s.cfg polled
    (s.busState ≠ .awaitingIdle ∧ polled = [] ∨
      s.busState = .awaitingIdle ∧ ∃ k < s.ibudget.toNat, (∀ j < k, s.line.bitAt s.cfg j = false) ∧
        s.line.bitAt s.cfg k = true ∧ polled = s.line.readFrames s.cfg (k + 1)) ∧
    m.pollAt 0 = some u1 ∧ u1 ≤ s.cfg.tPdh ∧ m.pollAt 1 = some u2 ∧ u2 ≤ s.cfg.tPdl ∧
    r = m.after s.cfg [.reset (.success u1 u2)]

/-- The idle-check reads that a handshake spends before its reset pulse (R156, R287): none when `STATE` is not
`AWAITING_IDLE`; else those up to the first that returns 1, which is within the budget. -/
def Machine.State.IdleReads (s : State) (n : Nat) : Prop :=
  s.busState ≠ .awaitingIdle ∧ n = 0 ∨
    s.busState = .awaitingIdle ∧ ∃ k < s.ibudget.toNat, n = k + 1 ∧ (∀ j < k, s.line.bitAt s.cfg j = false) ∧
      s.line.bitAt s.cfg k = true

/-- What every command leaves as it was: the registers only the host writes (R29, R32, R34, R35, and `POLY` of R31), the
parameters, and the host's lists. -/
structure Machine.State.HostSideKept (s t : State) : Prop where
  cfg : t.cfg = s.cfg
  wdata : t.wdata = s.wdata
  poly : t.poly = s.poly
  curPos : t.curPos = s.curPos
  budgetL : t.budgetL = s.budgetL
  budgetH : t.budgetH = s.budgetH
  abuf : t.abuf = s.abuf
  host : t.host = s.host
  readback : t.readback = s.readback

/-! ## The tables of R42 and R168, as data -/

/-- The locations of `RBUF`. -/
def rbufLocations : List Nat := [0x18, 0x19, 0x1A, 0x1B, 0x1C, 0x1D, 0x1E, 0x1F]

/-- The locations of `ABUF`. -/
def abufLocations : List Nat := [0x10, 0x11, 0x12, 0x13, 0x14, 0x15, 0x16, 0x17]

/-- The locations of the window that a command which ends with this result writes (R42); `STATUS` is left out, as there. -/
def locationsWritten : Instr → Result → List Nat
  | .rbit, .ok | .rbyte, .ok | .rdpwr, .ok | .getst, .ok => [0x03]
  | .crc _, .ok => [0x04]
  | .search _, .illegal => []
  | .search _, _ => 0x07 :: rbufLocations
  | .rdrom, _ => rbufLocations
  | _, _ => []

/-- The locations of the window that a command reads (R42). -/
def locationsRead : Instr → List Nat
  | .wbyte => [0x02]
  | .search _ => 0x06 :: abufLocations
  | .matchRom => abufLocations
  | .idlepoll => [0x08, 0x09]
  | .crc _ => 0x04 :: 0x05 :: abufLocations
  | .reset | .wbit _ | .rbit | .rbyte | .rdrom | .skip | .rdpwr | .getst => []

/-- The commands that read `STATE` (R42). -/
def readsBusState : Instr → Bool
  | .reset | .search _ | .rdrom | .matchRom | .skip | .rdpwr | .getst => true
  | .wbit _ | .rbit | .wbyte | .rbyte | .idlepoll | .crc _ => false

/-- The commands that write `STATE` when they end with this result (R42). -/
def writesBusState : Instr → Result → Bool
  | .reset, _ | .rdrom, _ | .idlepoll, _ => true
  | .search _, r => r != .illegal
  | .matchRom, r | .skip, r | .rdpwr, r => r == .ok
  | .wbit _, _ | .rbit, _ | .wbyte, _ | .rbyte, _ | .crc _, _ | .getst, _ => false

/-- The commands that write `IBUDGET` (R42). -/
def writesIdleBudget : Instr → Bool
  | .idlepoll => true
  | .reset | .wbit _ | .rbit | .wbyte | .rbyte | .search _ | .rdrom | .matchRom | .skip | .rdpwr | .crc _ | .getst => false

/-- The commands that read `IBUDGET` (R42). -/
def readsIdleBudget : Instr → Bool
  | .reset | .search _ | .rdrom => true
  | .wbit _ | .rbit | .wbyte | .rbyte | .matchRom | .skip | .rdpwr | .idlepoll | .crc _ | .getst => false

/-- A row of the transition table (R168): command, `STATE` before, result, `STATE` after. A combination that no row lists
is `false`. -/
def transitionListed (i : Instr) (before : BusState) (r : Result) (after : BusState) : Bool :=
  match i, r with
  | .reset, .ok => after == .romCommand
  | .reset, .noPresence | .reset, .lfNeverReleased => after == .idle
  | .reset, .lfStillBusy => before == .awaitingIdle && after == .awaitingIdle
  | .search _, .ok | .rdrom, .ok => after == .functionCommand
  | .search _, .noDevices | .rdrom, .noDevices => after == .idle || (before == .awaitingIdle && after == .awaitingIdle)
  | .search _, .protocolError | .search _, .checksumError | .rdrom, .checksumError => after == .idle
  | .search _, .illegal => after == before
  | .matchRom, .ok | .skip, .ok => before == .romCommand && after == .functionCommand
  | .matchRom, .stateError | .skip, .stateError => before != .romCommand && after == before
  | .rdpwr, .ok => before == .functionCommand && after == .idle
  | .rdpwr, .stateError => before != .functionCommand && after == before
  | .idlepoll, .ok => after == .awaitingIdle
  | .wbit _, .ok | .rbit, .ok | .wbyte, .ok | .rbyte, .ok | .getst, .ok => after == before
  | .crc len, .ok => decide (len.toNat ≤ 8) && after == before
  | .crc len, .illegal => decide (8 < len.toNat) && after == before
  | _, _ => false

end Sys2Proof
end

