-- ==== Sys2Proof/Certificates/Slice0/Obligations.lean ====
section
/-! DEFINITION. The statements about the block, each from a numbered rule of spec/. `Line.after`, `Line.bitAt`,
`Line.slotSamples`, `Line.readFrames` (Machine/Slots.lean) say which frames a command has put on the line and which answers
its read slots got. `{ s with … }` on the right of an equation states the whole frame: every field not named, and so every
register, the parameters and the host's lists, is as in `s`. -/

open Sys2Proof Sys2Proof.Machine

/-! ## Encoding (30_encoding.md) -/

/-- R91, R92: the table. A word selects a row exactly if it has the row's match under the row's mask; the immediates are
`v = w[0]`, `a = w[0]`, `len = w[3:0]`, with `len` 0 to 8. -/
def Obligations.CommandTableSelects : Prop :=
  ∀ w : Byte,
    (decode w = .ok .reset ↔ w &&& 0xFF = 0x10) ∧
    (∀ v, decode w = .ok (.wbit v) ↔ w &&& 0xFE = 0x20 ∧ v = w.getLsbD 0) ∧
    (decode w = .ok .rbit ↔ w &&& 0xFF = 0x30) ∧
    (decode w = .ok .wbyte ↔ w &&& 0xFF = 0x40) ∧
    (decode w = .ok .rbyte ↔ w &&& 0xFF = 0x50) ∧
    (∀ a, decode w = .ok (.search a) ↔ w &&& 0xFE = 0x60 ∧ a = w.getLsbD 0) ∧
    (decode w = .ok .rdrom ↔ w &&& 0xFF = 0x70) ∧
    (decode w = .ok .matchRom ↔ w &&& 0xFF = 0x80) ∧
    (decode w = .ok .skip ↔ w &&& 0xFF = 0x90) ∧
    (decode w = .ok .rdpwr ↔ w &&& 0xFF = 0xA0) ∧
    (decode w = .ok .idlepoll ↔ w &&& 0xFF = 0xB0) ∧
    (∀ len : BitVec 4, decode w = .ok (.crc len) ↔ w &&& 0xF0 = 0xC0 ∧ len = w.extractLsb' 0 4 ∧ len.toNat ≤ 8) ∧
    (decode w = .ok .getst ↔ w &&& 0xFF = 0xD0)

/-- Words written out from R91, one of each family: what they decode to. -/
def Obligations.WrittenOutWordsDecode : Prop :=
  decode 0b00100001 = .ok (.wbit true) ∧ decode 0b01000000 = .ok .wbyte ∧ decode 0b00010000 = .ok .reset ∧
  decode 0b01100001 = .ok (.search true) ∧ decode 0b11000111 = .ok (.crc 7) ∧ decode 0b10000000 = .ok .matchRom ∧
  decode 0b11010000 = .ok .getst

/-- R93: a word is reserved exactly under one of the clauses (a) to (d), 233 words are, and a reserved word ends at once
with `ILLEGAL`, performs no line primitive and changes no register but `STATUS`. The issue of the word is the host's
write of it to `CMD`. -/
def Obligations.ReservedWordEndsIllegal : Prop :=
  (∀ w : Byte, (∀ i, decode w ≠ .ok i) ↔
    let op := w.extractLsb' 4 4
    let arg := w.extractLsb' 0 4
    (op = 0x0#4 ∨ op = 0xE#4 ∨ op = 0xF#4) ∨
    (op ∈ [0x1#4, 0x3#4, 0x4#4, 0x5#4, 0x7#4, 0x8#4, 0x9#4, 0xA#4, 0xB#4, 0xD#4] ∧ arg ≠ 0#4) ∨
    (op ∈ [0x2#4, 0x6#4] ∧ arg.extractLsb' 1 3 ≠ 0#3) ∨
    (op = 0xC#4 ∧ 9 ≤ arg.toNat)) ∧
  ((List.range 256).filter fun n => (decodeTableWord 8 n).isNone).length = 233 ∧
  (∀ (s : State) (w : Byte) (rest : List HostAction), (∀ i, decode w ≠ .ok i) → s.busy = false →
    s.host = .write 0x00 w :: rest → step s = .next { s with host := rest, result := .illegal })

/-- R90, R91: a word decodes to a command exactly if the command is well-formed and the word is its encoding; so every
well-formed command, with every value of its immediate, is read back from its own word. -/
def Obligations.DecodeEncodeAgree : Prop :=
  (∀ (i : Instr), i.WellFormed = true → decode (encode i) = .ok i) ∧
  (∀ (w : Byte) (i : Instr), decode w = .ok i → i.WellFormed = true ∧ encode i = w)

/-! ## The step and the host's window (10_state.md R26 to R37) -/

/-- A step runs the decoded command: while `BUSY` is 0, the host's write of a word that decodes to `i` makes the step
`exec i`, the action being taken from the host's list; and the word placed by `withFetchWord`
(the model's own, log entry 5) is run by the next step. -/
def Obligations.StepRunsDecodedCommand : Prop :=
  (∀ (s : State) (w : Byte) (i : Instr) (rest : List HostAction),
    decode w = .ok i → s.busy = false → s.host = .write 0x00 w :: rest → step s = exec i { s with host := rest }) ∧
  (∀ (s : State) (n : Nat) (i : Instr),
    decodeTableWord 8 n = some i → step (s.withFetchWord 8 n) = exec i { s with busy := false })

/-- R26, R37: what the host reads after its own write, for every location but `CMD`: the readable and writable ones
hold the value written, every other location is as before, and a write to a read-only or reserved location is ignored. -/
def Obligations.HostWriteThenRead : Prop :=
  ∀ (s : State) (a : Nat) (v : Byte) (rest : List HostAction), 0x00 < a → a < 0x20 → s.busy = false →
    s.host = .write a v :: rest →
    ∃ t, step s = .next t ∧
      (a ∈ [0x02, 0x04, 0x05, 0x06, 0x08, 0x09] ++ abufLocations → hostRead a t = v) ∧
      (a ∉ [0x02, 0x04, 0x05, 0x06, 0x08, 0x09] ++ abufLocations → t = { s with host := rest }) ∧
      (∀ b, b ≠ a → hostRead b t = hostRead b s) ∧
      t.busState = s.busState ∧ t.ibudget = s.ibudget ∧ t.line = s.line

/-- R70: a host read has no side effect; the model only records the value it returned (log entry 6). R26, R28, R37, R62,
R105, what it returns: `STATUS` is `{BUSY, 000, code of RESULT}` with the codes of R105, every other register reads as it
stands, byte `j` of a buffer holds bits `8j` to `8j + 7`, and `CMD` and the reserved locations read 0x00. -/
def Obligations.HostReadsTheWindow : Prop :=
  (∀ (s : State) (a : Nat) (rest : List HostAction), a < 0x20 → s.host = .read a :: rest →
    step s = .next { s with host := rest, readback := (a, hostRead a s) :: s.readback }) ∧
  (∀ s : State,
    hostRead 0x01 s = BitVec.ofBool s.busy ++ (0#3 ++ match s.result with
      | .ok => 0x0#4
      | .noPresence => 0x1#4
      | .lfStillBusy => 0x2#4
      | .lfNeverReleased => 0x3#4
      | .lfHeldTooLong => 0x4#4
      | .noDevices => 0x5#4
      | .protocolError => 0x6#4
      | .checksumError => 0x7#4
      | .stateError => 0x8#4
      | .illegal => 0x9#4
      | .none => 0xF#4) ∧
    hostRead 0x02 s = s.wdata ∧ hostRead 0x03 s = s.rdata ∧ hostRead 0x04 s = s.crcv ∧ hostRead 0x05 s = s.poly ∧
    hostRead 0x06 s = s.curPos ∧ hostRead 0x07 s = s.resPos ∧ hostRead 0x08 s = s.budgetL ∧ hostRead 0x09 s = s.budgetH ∧
    ∀ j < 8, ∀ k < 8, (hostRead (0x10 + j) s).getLsbD k = s.abuf.getLsbD (8 * j + k) ∧
      (hostRead (0x18 + j) s).getLsbD k = s.rbuf.getLsbD (8 * j + k)) ∧
  (∀ (s : State) (a : Nat), a ∈ [0x00, 0x0A, 0x0B, 0x0C, 0x0D, 0x0E, 0x0F] → hostRead a s = 0x00)

/-- The edges of the host interface. While `BUSY` is 1 a host write, of `CMD` or of an operand register, is ignored (R27,
R273; log entry 11). A host access above 0x1F is outside the block (R37), which the model makes a named fault (log entry 7).
With no host action left nothing happens (R71 (d), R285), which is the model's choice (log entry 5). -/
def Obligations.HostInterfaceEdges : Prop :=
  (∀ (s : State) (a : Nat) (v : Byte) (rest : List HostAction), s.busy = true → a < 0x20 →
    s.host = .write a v :: rest → step s = .next { s with host := rest }) ∧
  (∀ (s : State) (a : Nat) (v : Byte) (rest : List HostAction), 0x20 ≤ a →
    (s.host = .write a v :: rest ∨ s.host = .read a :: rest) → step s = .fault (.hostAddressOutside a)) ∧
  (∀ s : State, s.host = [] → step s = .next s)

/-! ## Reset of the block (10_state.md R43; 70_reset_and_hazards.md R266, R267) -/

/-- R43, R266, R267: every register after the block's reset, and the empty trace. -/
def Obligations.ResetValues : Prop :=
  State.reset.busState = .idle ∧ State.reset.ibudget = 0 ∧ hostRead 0x01 State.reset = 0x0F ∧
  State.reset.wdata = 0x00 ∧ State.reset.rdata = 0x00 ∧ State.reset.crcv = 0x00 ∧ State.reset.poly = 0x8C ∧
  State.reset.curPos = 0xFF ∧ State.reset.resPos = 0xFF ∧ State.reset.budgetL = 0x00 ∧ State.reset.budgetH = 0x00 ∧
  (∀ j < 8, hostRead (0x10 + j) State.reset = 0x00 ∧ hostRead (0x18 + j) State.reset = 0x00) ∧
  State.reset.line.drive = false ∧ State.reset.line.events = []

/-! ## Bit transceiver (40_bit_transceiver.md) -/

/-- R121, R122: `WBIT v` completes in every state with `OK`; it makes the four primitives of its slot, asks the line
nothing, leaves the line released, and writes no register but `STATUS`. -/
def Obligations.WriteBitResult : Prop :=
  ∀ (s : State) (v : Bool), ∃ l : Line,
    exec (.wbit v) s = .next { s with busy := false, result := .ok, line := l } ∧
    l.events = s.line.events ++
      (if v then [.assertLow, .delay s.cfg.tW1L, .release, .delay (s.cfg.tSlot - s.cfg.tW1L)]
        else [.assertLow, .delay s.cfg.tW0L, .release, .delay (s.cfg.tSlot - s.cfg.tW0L)]) ∧
    l.drive = false ∧ l.samples = s.line.samples ∧ l.polls = s.line.polls ∧ l.asked = s.line.asked

/-- R125, R126, R127: `RBIT` completes in every state with `OK`; `RDATA` is 1 exactly if all `N_SAMPLES` samples are high;
all samples are taken; no other register is written. -/
def Obligations.ReadBitResult : Prop :=
  ∀ s : State, ∃ (l : Line) (samples : List Level),
    samples = (List.range s.cfg.nSamples).map s.line.levelAt ∧
    exec .rbit s = .next { s with
      busy := false, result := .ok, line := l,
      rdata := if ∀ v ∈ samples, v = .high then 0x01 else 0x00 } ∧
    l.events = s.line.events ++ ([.assertLow, .delay s.cfg.tRdl, .release, .delay (s.cfg.tRds - s.cfg.tRdl)] ++
      windowEvents s.cfg samples ++ [.delay (s.cfg.tSlot - s.cfg.tRdWin)]) ∧
    l.drive = false ∧ l.samples = s.line.samples.drop s.cfg.nSamples ∧ l.polls = s.line.polls ∧
    l.asked = s.line.asked + s.cfg.nSamples

/-- R123: both forms of the write slot take exactly `T_SLOT` units and exactly four primitives, and the master drives low
for `T_W1L` units of a 1-slot and `T_W0L` units of a 0-slot. -/
def Obligations.WriteSlotTiming : Prop :=
  ∀ (s t : State) (v : Bool), s.cfg.Ok → exec (.wbit v) s = .next t →
    durationOf (s.line.since t.line) = s.cfg.tSlot ∧ (s.line.since t.line).length = 4 ∧
    (s.line.since t.line).take 3 = [.assertLow, .delay (if v then s.cfg.tW1L else s.cfg.tW0L), .release]

/-- R125, R128: a read slot lasts `T_SLOT` units, whatever the line answers. Its number of primitives is that of the
pseudocode of R125 and of the list in R129 (four, then `N_SAMPLES` samples with `N_SAMPLES - 1` delays, then one): `4 + 2 *
N_SAMPLES`. R129 adds its own list up to `5 + 2 * N_SAMPLES`, one too many (log entry 15), so R129 is not cited. -/
def Obligations.ReadSlotTiming : Prop :=
  ∀ s t : State, s.cfg.Ok → exec .rbit s = .next t →
    durationOf (s.line.since t.line) = s.cfg.tSlot ∧ (s.line.since t.line).length = 4 + 2 * s.cfg.nSamples

/-! ## Byte framer (41_byte_framer.md) -/

/-- R63, R136, R137: `WBYTE` completes in every state with `OK`; it makes eight write slots, slot `k` carrying bit `k` of
`WDATA`, with nothing between them, and writes no register but `STATUS`. -/
def Obligations.WriteByteResult : Prop :=
  ∀ s : State, exec .wbyte s = .next { s with
    busy := false, result := .ok,
    line := s.line.after s.cfg
      [.write (s.wdata.getLsbD 0), .write (s.wdata.getLsbD 1), .write (s.wdata.getLsbD 2), .write (s.wdata.getLsbD 3),
        .write (s.wdata.getLsbD 4), .write (s.wdata.getLsbD 5), .write (s.wdata.getLsbD 6), .write (s.wdata.getLsbD 7)] }

/-- R63, R138, R139: `RBYTE` completes in every state with `OK`; it makes eight read slots and bit `k` of `RDATA` is the
bit of the `k`-th; no other register is written. -/
def Obligations.ReadByteResult : Prop :=
  ∀ s : State, ∃ x : Byte, (∀ k < 8, x.getLsbD k = s.line.bitAt s.cfg k) ∧
    exec .rbyte s = .next { s with
      busy := false, result := .ok, rdata := x, line := s.line.after s.cfg (s.line.readFrames s.cfg 8) }

/-- R141: the framer keeps no count across commands. Eight `WBIT` commands with the bits of `WDATA`, bit 0 first, leave
the same state as one `WBYTE`; eight `RBIT` commands read the same eight bits as one `RBYTE` and leave the same line. -/
def Obligations.EightBitsMakeAByte : Prop :=
  (∀ (s : State) (t : Nat → State), t 0 = s →
    (∀ k < 8, exec (.wbit (s.wdata.getLsbD k)) (t k) = .next (t (k + 1))) → exec .wbyte s = .next (t 8)) ∧
  (∀ (s u : State) (t : Nat → State), t 0 = s → (∀ k < 8, exec .rbit (t k) = .next (t (k + 1))) →
    exec .rbyte s = .next u →
    u.line = (t 8).line ∧ ∀ k < 8, (t (k + 1)).rdata = if u.rdata.getLsbD k then 0x01 else 0x00)

/-- R140: the round trip. A loopback slave has stored the bits of the write slots that `WBYTE` made and drives them in the
same order in the next eight read slots; then `RBYTE` leaves `RDATA` as the byte written, whatever the byte. -/
def Obligations.LoopbackReturnsTheByte : Prop :=
  ∀ (s t u : State) (stored : List Bool), s.cfg.Ok → exec .wbyte s = .next t →
    s.line.since t.line = slotEvents s.cfg (stored.map .write) →
    (∀ k < 8, t.line.bitAt t.cfg k = stored.getD k false) → exec .rbyte t = .next u → u.rdata = s.wdata

/-! ## Reset/presence detector (42_reset_presence.md) -/

/-- R146, R150, R153, R154, R159, from every state but `AWAITING_IDLE`: `RESET` drives one reset frame and ends `OK` in
`ROM_COMMAND`, `NO_PRESENCE` in `IDLE`, or `LF_NEVER_RELEASED` in `IDLE`, as the two polls answer within their bounds; no
data register is written. -/
def Obligations.ResetHandshakeResult : Prop :=
  ∀ s : State, s.busState ≠ .awaitingIdle →
    (∀ u1 u2, s.line.pollAt 0 = some u1 → u1 ≤ s.cfg.tPdh → s.line.pollAt 1 = some u2 → u2 ≤ s.cfg.tPdl →
      ∃ l : Line, exec .reset s = .next { s with busy := false, result := .ok, busState := .romCommand, line := l } ∧
        l.events = s.line.events ++ [.assertLow, .delay s.cfg.tRstl, .release, .poll .low s.cfg.tPdh (.hit u1),
          .poll .high s.cfg.tPdl (.hit u2), .delay s.cfg.tRstRem] ∧ l.drive = false) ∧
    ((∀ u1, s.line.pollAt 0 = some u1 → s.cfg.tPdh < u1) →
      ∃ l : Line, exec .reset s = .next { s with busy := false, result := .noPresence, busState := .idle, line := l } ∧
        l.events = s.line.events ++ [.assertLow, .delay s.cfg.tRstl, .release, .poll .low s.cfg.tPdh .timeout] ∧
        l.drive = false) ∧
    (∀ u1, s.line.pollAt 0 = some u1 → u1 ≤ s.cfg.tPdh → (∀ u2, s.line.pollAt 1 = some u2 → s.cfg.tPdl < u2) →
      ∃ l : Line,
        exec .reset s = .next { s with busy := false, result := .lfNeverReleased, busState := .idle, line := l } ∧
        l.events = s.line.events ++ [.assertLow, .delay s.cfg.tRstl, .release, .poll .low s.cfg.tPdh (.hit u1),
          .poll .high s.cfg.tPdl .timeout] ∧ l.drive = false)

/-- R54, R163: both bounds of the handshake are inclusive, here with the defaults: 74 and 254 units are `OK`, a presence
pulse that starts at 75 is `NO_PRESENCE`, one that ends at 255 is `LF_NEVER_RELEASED`. -/
def Obligations.ResetBoundsInclusive : Prop :=
  ∀ (s t : State) (rest : List (Option Nat)), s.cfg = Config.default → s.busState ≠ .awaitingIdle →
    exec .reset s = .next t →
    (s.line.polls = some 74 :: some 254 :: rest → t.result = .ok) ∧
    (s.line.polls = some 74 :: some 255 :: rest → t.result = .lfNeverReleased) ∧
    (s.line.polls = some 75 :: rest → t.result = .noPresence)

/-- R150, R156, R157, R268, a released reading within the budget: `RESET` in `AWAITING_IDLE` makes the read slots up to
the first that returns 1, passes through `IDLE`, and then does what `RESET` does from `IDLE` on the line as it stands
then; `IBUDGET` keeps its number. -/
def Obligations.ResetAfterReleasedIdlePoll : Prop :=
  ∀ (s : State) (k : Nat), s.busState = .awaitingIdle → k < s.ibudget.toNat →
    (∀ j < k, s.line.bitAt s.cfg j = false) → s.line.bitAt s.cfg k = true →
    ∃ t, exec .reset s = .next t ∧ t.ibudget = s.ibudget ∧
      exec .reset { s with busState := .idle, line := s.line.after s.cfg (s.line.readFrames s.cfg (k + 1)) } = .next t

/-- R151, R156, R157: with no released reading within the budget `RESET` ends `LF_STILL_BUSY` after exactly `IBUDGET` read
slots; no reset pulse is driven, and `STATE` and `IBUDGET` are unchanged. -/
def Obligations.ResetAfterSpentIdlePoll : Prop :=
  ∀ s : State, s.busState = .awaitingIdle → (∀ j < s.ibudget.toNat, s.line.bitAt s.cfg j = false) →
    exec .reset s = .next { s with
      busy := false, result := .lfStillBusy, line := s.line.after s.cfg (s.line.readFrames s.cfg s.ibudget.toNat) }

/-- R157, R281: a budget of 0 makes `RESET`, `SEARCH` and `RDROM` fail at once, with no line activity, and leaves
`AWAITING_IDLE`. -/
def Obligations.ZeroBudgetFailsAtOnce : Prop :=
  ∀ (s t : State) (i : Instr), s.busState = .awaitingIdle → s.ibudget = 0 →
    (i = .reset ∨ i = .rdrom ∨ (∃ a, i = .search a ∧ -1 ≤ s.curPos.toInt ∧ s.curPos.toInt ≤ 63)) → exec i s = .next t →
    t.result = (if i = .reset then .lfStillBusy else .noDevices) ∧ t.line = s.line ∧ t.busState = .awaitingIdle

/-- R34, R160: `IDLEPOLL` completes in every state with `OK`: `IBUDGET` is `{BUDGET_H, BUDGET_L}`, `STATE` is
`AWAITING_IDLE`, and the line is not touched. -/
def Obligations.IdlePollResult : Prop :=
  ∀ s : State, ∃ n : BitVec 16, n.toNat = 256 * s.budgetH.toNat + s.budgetL.toNat ∧
    exec .idlepoll s = .next { s with busy := false, result := .ok, ibudget := n, busState := .awaitingIdle }

/-! ## Bus state machine (43_state_machine.md) -/

/-- R20, R170: `GETST` completes in every state with `OK`: `RDATA` is the code of `STATE`, and nothing else changes. -/
def Obligations.GetStateResult : Prop :=
  ∀ s : State, exec .getst s = .next { s with
    busy := false, result := .ok,
    rdata := match s.busState with
      | .idle => 0x00
      | .romCommand => 0x01
      | .functionCommand => 0x02
      | .awaitingIdle => 0x03 }

/-- R166, R174: a gated command outside its state ends `STATE_ERROR`, does not touch the line, and changes nothing but
`STATUS`. -/
def Obligations.GatedCommandsOutsideTheirState : Prop :=
  ∀ s : State,
    (s.busState ≠ .romCommand →
      exec .matchRom s = .next { s with busy := false, result := .stateError } ∧
      exec .skip s = .next { s with busy := false, result := .stateError }) ∧
    (s.busState ≠ .functionCommand → exec .rdpwr s = .next { s with busy := false, result := .stateError })

/-- R168: the transition table is complete: whatever a command finds on the line, command, `STATE` before, result and
`STATE` after are a row of the table. -/
def Obligations.TransitionTableComplete : Prop :=
  ∀ (i : Instr) (s t : State), exec i s = .next t → transitionListed i s.busState t.result t.busState = true

/-- R172: `AWAITING_IDLE` is entered only by `IDLEPOLL` and left only by a handshake command, `ROM_COMMAND` is entered only
by a successful `RESET`, `FUNCTION_COMMAND` only by a successful ROM command; over all steps of the block, host accesses
included. -/
def Obligations.StateEnteredOnlySo : Prop :=
  ∀ s t : State, step s = .next t → s.busState ≠ t.busState →
    ∃ (w : Byte) (i : Instr) (rest : List HostAction), s.host = .write 0x00 w :: rest ∧ decode w = .ok i ∧
      (t.busState = .awaitingIdle → i = .idlepoll) ∧
      (s.busState = .awaitingIdle → i = .reset ∨ i = .rdrom ∨ ∃ a, i = .search a) ∧
      (t.busState = .romCommand → i = .reset ∧ t.result = .ok) ∧
      (t.busState = .functionCommand → t.result = .ok ∧ (i = .matchRom ∨ i = .skip ∨ i = .rdrom ∨ ∃ a, i = .search a))

/-! ## ROM search (44_rom_search.md) -/

/-- R32, R181: `SEARCH` with a cursor position outside -1 to 63 ends `ILLEGAL` before any other action: empty trace, and
nothing changes but `STATUS`. -/
def Obligations.SearchIllegalCursor : Prop :=
  ∀ (s : State) (a : Bool), s.curPos.toInt < -1 ∨ 63 < s.curPos.toInt →
    exec (.search a) s = .next { s with busy := false, result := .illegal }

/-- R33, R36, R182, R215, R239: `SEARCH` (with a legal cursor) and `RDROM` begin with the handshake that `RESET` would make
in the same state. The handshake is good exactly if `RESET` would end `OK`. When it fails, for whichever reason, the command
ends `NO_DEVICES` with `STATE` and the line as the handshake left them; `RES_POS` is -1 after `SEARCH` and unwritten by
`RDROM`; `RBUF` is unspecified. -/
def Obligations.CompositeCommandsBeginWithReset : Prop :=
  ∀ s r : State, exec .reset s = .next r →
    (∀ l : Line, s.GoodHandshake l ↔ r.result = .ok ∧ r.line = l) ∧
    (r.result ≠ .ok →
      (∃ (unspecified : DeviceAddress) (n : Nat), exec .rdrom s = .next { s with
        busy := false, result := .noDevices, busState := r.busState, line := r.line, rbuf := unspecified, fresh := n }) ∧
      (∀ a : Bool, -1 ≤ s.curPos.toInt → s.curPos.toInt ≤ 63 →
        ∃ (unspecified : DeviceAddress) (n : Nat), exec (.search a) s = .next { s with
          busy := false, result := .noDevices, busState := r.busState, line := r.line, rbuf := unspecified, fresh := n,
          resPos := 0xFF }))

/-- R183, R184, R186, R187, R190: `SEARCH` after a good handshake, when no pair reads `(1, 1)`. `m` is the line after the
handshake and the command byte; its read slots `2i` and `2i + 1` are the pair of bit `i`. Every bit of the address is the
one R184 and R186 give; all 64 groups are on the line, the write slot carrying that bit; the position is the highest
conflict at which 0 was taken, or 64. With a valid address the command completes `OK` in `FUNCTION_COMMAND`; otherwise it
ends `CHECKSUM_ERROR` in `IDLE`. -/
def Obligations.SearchFollowsDirectionRule : Prop :=
  ∀ (s : State) (a : Bool) (out : DeviceAddress) (p : Nat) (r m : Line),
    -1 ≤ s.curPos.toInt → s.curPos.toInt ≤ 63 → s.GoodHandshake r →
    m = r.after s.cfg (byteSlots (if a then s.cfg.cmdAlarmSearch else s.cfg.cmdSearchRom)) →
    (∀ i < 64, ¬ (m.bitAt s.cfg (2 * i) = true ∧ m.bitAt s.cfg (2 * i + 1) = true)) →
    (∀ i < 64, out.getLsbD i =
      if m.bitAt s.cfg (2 * i) = false ∧ m.bitAt s.cfg (2 * i + 1) = false then
        if (i : Int) = s.curPos.toInt then true
        else if s.curPos.toInt < (i : Int) then false
        else s.abuf.getLsbD i
      else m.bitAt s.cfg (2 * i)) →
    ((p < 64 ∧ unexplored s.cfg m out p = true ∧ ∀ i, p < i → i < 64 → unexplored s.cfg m out i = false) ∨
      (p = 64 ∧ ∀ i < 64, unexplored s.cfg m out i = false)) →
    (byteOf out 7 = crc8 s.cfg.crcSeedRom s.cfg.crcPoly (bytesOf out 7) →
      exec (.search a) s = .next { s with
        busy := false, result := .ok, busState := .functionCommand, rbuf := out, resPos := BitVec.ofNat 8 p,
        line := m.after s.cfg (searchFrames s.cfg m out 64) }) ∧
    (byteOf out 7 ≠ crc8 s.cfg.crcSeedRom s.cfg.crcPoly (bytesOf out 7) →
      ∃ (unspecified : DeviceAddress) (n : Nat), exec (.search a) s = .next { s with
        busy := false, result := .checksumError, busState := .idle, rbuf := unspecified, fresh := n, resPos := 0xFF,
        line := m.after s.cfg (searchFrames s.cfg m out 64) })

/-- R185, R193: the first pair that reads `(1, 1)`, at bit `k`, ends `SEARCH` with `PROTOCOL_ERROR` in `IDLE` and
`RES_POS` = -1; after the handshake the command has made `8 + 3k + 2` slots, the last two being the pair: no write slot
for bit `k` and no later bit; the bits below `k` were written as R184 and R186 say. -/
def Obligations.SearchProtocolError : Prop :=
  ∀ (s : State) (a : Bool) (k : Nat) (r m : Line),
    -1 ≤ s.curPos.toInt → s.curPos.toInt ≤ 63 → s.GoodHandshake r →
    m = r.after s.cfg (byteSlots (if a then s.cfg.cmdAlarmSearch else s.cfg.cmdSearchRom)) → k < 64 →
    (∀ i < k, ¬ (m.bitAt s.cfg (2 * i) = true ∧ m.bitAt s.cfg (2 * i + 1) = true)) →
    m.bitAt s.cfg (2 * k) = true → m.bitAt s.cfg (2 * k + 1) = true →
    ∃ (unspecified out : DeviceAddress) (n : Nat),
      exec (.search a) s = .next { s with
        busy := false, result := .protocolError, busState := .idle, rbuf := unspecified, fresh := n, resPos := 0xFF,
        line := m.after s.cfg (searchFrames s.cfg m out k ++
          [Slot.read (m.slotSamples s.cfg (2 * k)), .read (m.slotSamples s.cfg (2 * k + 1))]) } ∧
      (byteSlots (if a then s.cfg.cmdAlarmSearch else s.cfg.cmdSearchRom) ++ (searchFrames s.cfg m out k ++
        [Slot.read (m.slotSamples s.cfg (2 * k)), .read (m.slotSamples s.cfg (2 * k + 1))])).length = 8 + 3 * k + 2 ∧
      ∀ i < k, out.getLsbD i =
        if m.bitAt s.cfg (2 * i) = false ∧ m.bitAt s.cfg (2 * i + 1) = false then
          if (i : Int) = s.curPos.toInt then true
          else if s.curPos.toInt < (i : Int) then false
          else s.abuf.getLsbD i
        else m.bitAt s.cfg (2 * i)

/-- R196: one device alone. When every pair is a bit of the valid address `d` and its complement, the search completes `OK`
with that address and position 64, whatever the cursor. -/
def Obligations.SearchLoneDevice : Prop :=
  ∀ (s : State) (a : Bool) (d : DeviceAddress) (r m : Line),
    -1 ≤ s.curPos.toInt → s.curPos.toInt ≤ 63 → s.GoodHandshake r →
    m = r.after s.cfg (byteSlots (if a then s.cfg.cmdAlarmSearch else s.cfg.cmdSearchRom)) →
    (∀ i < 64, m.bitAt s.cfg (2 * i) = d.getLsbD i ∧ m.bitAt s.cfg (2 * i + 1) = !d.getLsbD i) →
    byteOf d 7 = crc8 s.cfg.crcSeedRom s.cfg.crcPoly (bytesOf d 7) →
    ∃ t, exec (.search a) s = .next t ∧ t.result = .ok ∧ t.rbuf = d ∧ t.resPos = 0x40 ∧ t.busState = .functionCommand

/-- R197: a line that reads 0 in every read slot but passes the handshake. A fresh `SEARCH` ends `OK` with the all-zero
address and position 0x3F, under every polynomial with the seed 0x00 of R8. -/
def Obligations.SearchOnHeldLine : Prop :=
  ∀ (s : State) (a : Bool) (r : Line), s.curPos = 0xFF → s.cfg.crcSeedRom = 0x00 → s.GoodHandshake r →
    (∀ k < 128, r.bitAt s.cfg k = false) →
    ∃ t, exec (.search a) s = .next t ∧ t.result = .ok ∧ t.rbuf = 0 ∧ t.resPos = 0x3F ∧ t.busState = .functionCommand

/-- R35, R194: which cursor bits `SEARCH` reads. With `last` = -1 no bit of `ABUF` matters; otherwise only the bits below
`last` do: two states that agree on the rest give the same outcome. -/
def Obligations.SearchReadsOnlyBitsBelowCursor : Prop :=
  ∀ (s t : State) (a : Bool) (other : DeviceAddress),
    (∀ i : Nat, i < 64 → (i : Int) < s.curPos.toInt → other.getLsbD i = s.abuf.getLsbD i) → exec (.search a) s = .next t →
    exec (.search a) { s with abuf := other } = .next { t with abuf := other }

/-- R33, R36, R187, R188: what `SEARCH` leaves in its result registers: after `OK` a valid address and a position 0 to 64;
after every other result except `ILLEGAL` the position -1; after `ILLEGAL` both as they were. `RDROM` after `OK` leaves a
valid address, and never writes `RES_POS`. -/
def Obligations.SearchResultRegisters : Prop :=
  (∀ (s t : State) (a : Bool), exec (.search a) s = .next t →
    (t.result = .ok → addressValid s.cfg t.rbuf = true ∧ t.resPos.toNat ≤ 64) ∧
    (t.result ≠ .ok → t.result ≠ .illegal → t.resPos = 0xFF) ∧
    (t.result = .illegal → t.rbuf = s.rbuf ∧ t.resPos = s.resPos)) ∧
  (∀ s t : State, exec .rdrom s = .next t →
    t.resPos = s.resPos ∧ (t.result = .ok → addressValid s.cfg t.rbuf = true))

/-! ## Checksum (45_checksum.md) -/

/-- R200: `Crc8` of no data is the seed; a further byte is taken bit by bit, least significant first, each bit shifting
the remainder right and combining it with the polynomial exactly if the remainder's low bit and the data bit differ.
R201: chaining, over any byte lists. -/
def Obligations.CrcBitRule : Prop :=
  (∀ seed poly : Byte, crc8 seed poly [] = seed) ∧
  (∀ (seed poly d : Byte) (ds : List Byte), ∃ rem : Nat → Byte, rem 0 = seed ∧
    (∀ k < 8, rem (k + 1) =
      if ((rem k).getLsbD 0 ^^ d.getLsbD k) = true then (rem k >>> 1) ^^^ poly else rem k >>> 1) ∧
    crc8 seed poly (d :: ds) = crc8 (rem 8) poly ds) ∧
  (∀ (seed poly : Byte) (x y : List Byte), crc8 seed poly (x ++ y) = crc8 (crc8 seed poly x) poly y)

/-- R205: `CRC len` completes with `OK` for every length 0 to 8 in every state: `CRCV` becomes the checksum of the first
`len` bytes of `ABUF` under the registers `CRCV` and `POLY`; a longer length is `ILLEGAL`; nothing else changes. -/
def Obligations.CrcResult : Prop :=
  ∀ (s : State) (len : BitVec 4),
    (len.toNat ≤ 8 → exec (.crc len) s = .next { s with
      busy := false, result := .ok, crcv := crc8 s.crcv s.poly ((List.range len.toNat).map (byteOf s.abuf)) }) ∧
    (8 < len.toNat → exec (.crc len) s = .next { s with busy := false, result := .illegal })

/-- R203: an address is valid exactly if the checksum of all its eight bytes is 0. That a valid address gives 0 holds for
every polynomial; the converse needs bit 7 of the polynomial (log entry 12), as `CRC_POLY` has it. -/
def Obligations.ValidExactlyIfZeroRemainder : Prop :=
  (∀ (c : Config) (a : DeviceAddress), addressValid c a = true → crc8 c.crcSeedRom c.crcPoly (bytesOf a 8) = 0x00) ∧
  (∀ (c : Config) (a : DeviceAddress), c.crcPoly.getLsbD 7 = true →
    crc8 c.crcSeedRom c.crcPoly (bytesOf a 8) = 0x00 → addressValid c a = true)

/-- R204: single-bit sensitivity. When bit 7 of the polynomial is 1, flipping any one of the 64 bits of a valid address
gives one that is not valid. -/
def Obligations.SingleBitFlipInvalidates : Prop :=
  ∀ (c : Config) (a : DeviceAddress) (i : Nat), c.crcPoly.getLsbD 7 = true → i < 64 → addressValid c a = true →
    addressValid c (a ^^^ (1#64 <<< i)) = false

/-- R31, R187: the address check of `SEARCH` and `RDROM` never looks at `CRCV` and `POLY`: with other values there the
outcome is the same but for those two registers. -/
def Obligations.AddressCheckIgnoresRegisters : Prop :=
  ∀ (s t : State) (i : Instr) (x y : Byte), (i = .rdrom ∨ ∃ a, i = .search a) → exec i s = .next t →
    exec i { s with crcv := x, poly := y } = .next { t with crcv := x, poly := y }

/-! ## Direct addressing (46_direct_addressing.md) -/

/-- R64, R218: `MATCH` in `ROM_COMMAND` completes `OK` in `FUNCTION_COMMAND` after the command byte and the 64 bits of
`ABUF`, byte 0 first and bit 0 first, whatever address `ABUF` holds; no other register is written and nothing is read from
the line. -/
def Obligations.MatchResult : Prop :=
  ∀ s : State, s.busState = .romCommand → exec .matchRom s = .next { s with
    busy := false, result := .ok, busState := .functionCommand,
    line := s.line.after s.cfg (byteSlots s.cfg.cmdMatchRom ++ (List.range 64).map fun i => .write (s.abuf.getLsbD i)) }

/-- R221: `SKIP` in `ROM_COMMAND` completes `OK` in `FUNCTION_COMMAND` after the command byte; no other register is
written. -/
def Obligations.SkipResult : Prop :=
  ∀ s : State, s.busState = .romCommand → exec .skip s = .next { s with
    busy := false, result := .ok, busState := .functionCommand,
    line := s.line.after s.cfg (byteSlots s.cfg.cmdSkipRom) }

/-- R224: `RDPWR` in `FUNCTION_COMMAND` completes `OK` in `IDLE` after the command byte and one read slot; `RDATA` is 0x00
(Parasite) or 0x01 (External) as the slot reads; no other register is written. -/
def Obligations.ReadPowerResult : Prop :=
  ∀ s : State, s.busState = .functionCommand → exec .rdpwr s = .next { s with
    busy := false, result := .ok, busState := .idle,
    rdata := if s.line.bitAt s.cfg 0 then 0x01 else 0x00,
    line := s.line.after s.cfg (byteSlots s.cfg.cmdReadPower ++ [Slot.read (s.line.slotSamples s.cfg 0)]) }

/-- R64, R215: `RDROM` after a good handshake: the command byte, then 64 read slots, bit `i` of the address being the
`i`-th; with a valid address it completes `OK` in `FUNCTION_COMMAND` with the address in `RBUF`; otherwise it ends
`CHECKSUM_ERROR` in `IDLE` with `RBUF` unspecified. -/
def Obligations.ReadRomResult : Prop :=
  ∀ (s : State) (out : DeviceAddress) (r m : Line), s.GoodHandshake r →
    m = r.after s.cfg (byteSlots s.cfg.cmdReadRom) → (∀ i < 64, out.getLsbD i = m.bitAt s.cfg i) →
    (byteOf out 7 = crc8 s.cfg.crcSeedRom s.cfg.crcPoly (bytesOf out 7) → exec .rdrom s = .next { s with
      busy := false, result := .ok, busState := .functionCommand, rbuf := out,
      line := m.after s.cfg (m.readFrames s.cfg 64) }) ∧
    (byteOf out 7 ≠ crc8 s.cfg.crcSeedRom s.cfg.crcPoly (bytesOf out 7) →
      ∃ (unspecified : DeviceAddress) (n : Nat), exec .rdrom s = .next { s with
        busy := false, result := .checksumError, busState := .idle, rbuf := unspecified, fresh := n,
        line := m.after s.cfg (m.readFrames s.cfg 64) })

/-! ## All commands -/

/-- R16, R275: every command ends, in every state and whatever the line answers, with `BUSY` 0 (R28). -/
def Obligations.EveryCommandEnds : Prop :=
  ∀ (i : Instr) (s : State), ∃ t, exec i s = .next t ∧ t.busy = false

/-- R105, R162: the results a command can end with; in particular no command ends `LF_HELD_TOO_LONG` or `NONE`. -/
def Obligations.ResultsOfEachCommand : Prop :=
  ∀ (i : Instr) (s t : State), exec i s = .next t →
    t.result ≠ .lfHeldTooLong ∧ t.result ≠ .none ∧
    (t.result = .noPresence ∨ t.result = .lfStillBusy ∨ t.result = .lfNeverReleased → i = .reset) ∧
    (t.result = .noDevices ∨ t.result = .checksumError → i = .rdrom ∨ ∃ a, i = .search a) ∧
    (t.result = .protocolError → ∃ a, i = .search a) ∧
    (t.result = .stateError → i = .matchRom ∨ i = .skip ∨ i = .rdpwr) ∧
    (t.result = .illegal → (∃ a, i = .search a) ∨ ∃ len, i = .crc len ∧ 8 < len.toNat)

/-- R29, R32, R34, R35: the registers that only the host writes are left by every command as they were, and so are
`POLY`, the parameters and the host's lists; `IBUDGET` is written by `IDLEPOLL` only (R21). -/
def Obligations.HostRegistersKept : Prop :=
  ∀ (i : Instr) (s t : State), exec i s = .next t → s.HostSideKept t ∧ (i ≠ .idlepoll → t.ibudget = s.ibudget)

/-- R42, the columns 'writes': a location of the window that the table does not list for the command and its result, and
that is not `STATUS`, reads as before; `STATE` changes only where the table lists it for the command and its result (so not
in a `MATCH`, `SKIP` or `RDPWR` that ends `STATE_ERROR`, nor in a `SEARCH` that ends `ILLEGAL`); `IBUDGET` changes only where
the table lists it. -/
def Obligations.OnlyListedRegistersWritten : Prop :=
  ∀ (i : Instr) (s t : State), exec i s = .next t →
    (∀ a, a ≠ 0x01 → a ∉ locationsWritten i t.result → hostRead a t = hostRead a s) ∧
    (writesBusState i t.result = false → t.busState = s.busState) ∧
    (writesIdleBudget i = false → t.ibudget = s.ibudget)

/-- R42, the column 'reads', as a statement about what can be learnt: when two states agree on what the table lists for
the command, on the parameters and on the line, the command ends with the same result and the same line, and the registers
it writes, `STATE` and `IBUDGET` among them, hold the same values; but for `RBUF` after a failure, which is unspecified
(R36). -/
def Obligations.OnlyListedRegistersRead : Prop :=
  ∀ (i : Instr) (s s' t t' : State), s.cfg = s'.cfg → s.line = s'.line →
    (∀ a ∈ locationsRead i, hostRead a s = hostRead a s') → (readsBusState i = true → s.busState = s'.busState) →
    (readsIdleBudget i = true → s.ibudget = s'.ibudget) → exec i s = .next t → exec i s' = .next t' →
    t.result = t'.result ∧ t.line = t'.line ∧ (writesBusState i t.result = true → t.busState = t'.busState) ∧
    (writesIdleBudget i = true → t.ibudget = t'.ibudget) ∧
    (∀ a ∈ locationsWritten i t.result, t.result = .ok ∨ a ∉ rbufLocations → hostRead a t = hostRead a t')

/-- R70, R166: the commands that do not touch the line: `CRC`, `GETST` and `IDLEPOLL` always, and every command that ends
`STATE_ERROR` or `ILLEGAL`. -/
def Obligations.LineUntouched : Prop :=
  ∀ (i : Instr) (s t : State), exec i s = .next t →
    ((∃ len, i = .crc len) ∨ i = .getst ∨ i = .idlepoll ∨ t.result = .stateError ∨ t.result = .illegal) → t.line = s.line

/-- R286, R287, with the parameters for the default numbers: every row of the table of durations. `n` idle-check reads come
before a reset pulse, and `u1` and `u2` are the times at which the polls after them are answered. A composite command lasts
as long as `RESET` would in the same state (which ends in `r`) and then its slots; a `SEARCH` that ends `PROTOCOL_ERROR` at
the first pair `(1, 1)`, at bit `k`, makes `10 + 3k` of them. -/
def Obligations.DurationsOfCommands : Prop :=
  ∀ (i : Instr) (s t r : State), s.cfg.Ok → exec i s = .next t → exec .reset s = .next r →
    let lasted := durationOf (s.line.since t.line)
    let handshake := durationOf (s.line.since r.line)
    (((∃ v, i = .wbit v) ∨ i = .rbit) → lasted = s.cfg.tSlot) ∧
    ((i = .wbyte ∨ i = .rbyte) → lasted = 8 * s.cfg.tSlot) ∧
    (i = .skip → t.result = .ok → lasted = 8 * s.cfg.tSlot) ∧
    (i = .matchRom → t.result = .ok → lasted = 72 * s.cfg.tSlot) ∧
    (i = .rdpwr → t.result = .ok → lasted = 9 * s.cfg.tSlot) ∧
    (i = .reset → t.result = .lfStillBusy → lasted = s.ibudget.toNat * s.cfg.tSlot) ∧
    (i = .reset → t.result ≠ .lfStillBusy → ∃ n, s.IdleReads n ∧
      let m := s.line.after s.cfg (s.line.readFrames s.cfg n)
      (t.result = .noPresence → lasted = n * s.cfg.tSlot + s.cfg.tRstl + s.cfg.tPdh) ∧
      (t.result = .lfNeverReleased → ∃ u1, m.pollAt 0 = some u1 ∧ u1 ≤ s.cfg.tPdh ∧
        lasted = n * s.cfg.tSlot + s.cfg.tRstl + u1 + s.cfg.tPdl) ∧
      (t.result = .ok → ∃ u1 u2, m.pollAt 0 = some u1 ∧ u1 ≤ s.cfg.tPdh ∧ m.pollAt 1 = some u2 ∧ u2 ≤ s.cfg.tPdl ∧
        lasted = n * s.cfg.tSlot + s.cfg.tRstl + u1 + u2 + s.cfg.tRstRem)) ∧
    ((i = .rdrom ∨ ∃ a, i = .search a) → t.result = .noDevices → lasted = handshake) ∧
    (i = .rdrom → t.result = .ok ∨ t.result = .checksumError → lasted = handshake + 72 * s.cfg.tSlot) ∧
    ((∃ a, i = .search a) → t.result = .ok ∨ t.result = .checksumError → lasted = handshake + 200 * s.cfg.tSlot) ∧
    (∀ a, i = .search a → t.result = .protocolError → ∃ k < 64,
      let m := r.line.after s.cfg (byteSlots (if a then s.cfg.cmdAlarmSearch else s.cfg.cmdSearchRom))
      (∀ j < k, ¬ (m.bitAt s.cfg (2 * j) = true ∧ m.bitAt s.cfg (2 * j + 1) = true)) ∧
      m.bitAt s.cfg (2 * k) = true ∧ m.bitAt s.cfg (2 * k + 1) = true ∧
      lasted = handshake + (10 + 3 * k) * s.cfg.tSlot) ∧
    ((i = .idlepoll ∨ i = .getst ∨ (∃ len, i = .crc len) ∨ t.result = .stateError ∨ t.result = .illegal) → lasted = 0)

/-- R69, R71, R131, R245, R275: a step only appends to the trace, and what it appends is made of whole frames: no slot and
no reset frame is cut short, nothing stands between two of them, and nothing is undone. -/
def Obligations.StepsAppendWholeFrames : Prop :=
  ∀ s t : State, step s = .next t →
    ∃ slots, (∀ slot ∈ slots, slot.Complete s.cfg = true) ∧ t.line.events = s.line.events ++ slotEvents s.cfg slots

/-- The invariant holds after the block's reset: no command runs, the line is released (R28, R40), the trace is whole
frames, `RES_POS` is legal (R33), no command ended `LF_HELD_TOO_LONG` (R162). -/
def Obligations.ResetMeetsInvariant : Prop := State.reset.Inv

/-- R28, R33, R40, R162, R275: every step keeps the invariant, from every state that meets it. -/
def Obligations.StepKeepsInvariant : Prop := ∀ s t : State, s.Inv → step s = .next t → t.Inv

/-! ## Against the reference environment (20_memory.md R77 to R86), taken as a premise (R57). The slots of log entry 13
in which the environment is the model's choice change no outcome stated here; that no frame starts a slow operation is the
model's choice too (log entry 18). -/

/-- R82, R218: `MATCH` on the reference environment after a reset frame: exactly the slaves with the address in `ABUF` are
still active, and they await a function command. -/
def Obligations.MatchSelectsExactlyTheAddress : Prop :=
  ∀ (s t : State) (bus after : Bus), s.cfg.Ok → s.busState = .romCommand →
    (∀ v ∈ bus.slaves, v.active = true ∧ v.mode = .rom []) → exec .matchRom s = .next t →
    bus.Answers s.cfg (s.line.since t.line) after →
    after.slaves.map Slave.rom = bus.slaves.map Slave.rom ∧
    ∀ v ∈ after.slaves, (v.active = true ↔ v.rom = s.abuf) ∧ (v.active = true → v.mode = .func [])

/-- R79, R180, R191, R192: a fresh search on the reference environment, with slaves that answer it at valid addresses, from
every state whose idle poll, if there is one, does not fail: the handshake succeeds (R79), and the search ends `OK` with the address of least `key` among them, and returns the position where the following address differs first, or
64 when there is no other. -/
def Obligations.FreshSearchFindsLeastKey : Prop :=
  ∀ (s t : State) (a : Bool) (bus after : Bus), s.cfg.Ok → s.curPos = 0xFF → bus.busy = 0 →
    bus.searched a ≠ [] → (∀ d ∈ bus.searched a, addressValid s.cfg d = true) →
    (∃ n, s.IdleReads n) → exec (.search a) s = .next t →
    bus.Answers s.cfg (s.line.since t.line) after →
    t.result = .ok ∧ t.rbuf ∈ bus.searched a ∧ (∀ d ∈ bus.searched a, addressKey t.rbuf ≤ addressKey d) ∧
    ReturnedPosition (bus.searched a) t.rbuf t.resPos.toNat

/-- R79, R184, R189, R191, R192: the next call of an enumeration on the reference environment, from every state whose idle
poll, if there is one, does not fail. When the position in the cursor is
the one R189 gives for the cursor's address, below 64 (so an address follows it), the search ends `OK` with the address
that follows in ascending `key`, and returns the position for the call after it. The cursor's own address need not be
present any more. With the statement on the fresh search this is the enumeration of R192: every address once, in ascending
`key`, 64 with the last one and with no other. -/
def Obligations.SearchContinuesInKeyOrder : Prop :=
  ∀ (s t : State) (a : Bool) (bus after : Bus), s.cfg.Ok → bus.busy = 0 →
    (∀ d ∈ bus.searched a, addressValid s.cfg d = true) →
    ReturnedPosition (bus.searched a) s.abuf s.curPos.toNat → s.curPos.toNat < 64 →
    (∃ n, s.IdleReads n) → exec (.search a) s = .next t →
    bus.Answers s.cfg (s.line.since t.line) after →
    t.result = .ok ∧ NextInKey (bus.searched a) s.abuf t.rbuf ∧
    ReturnedPosition (bus.searched a) t.rbuf t.resPos.toNat

/-- R188, R195: a cursor of any origin. Whatever the legal cursor, a search that ends `OK` on the reference environment has
found a valid address that is present, and exactly the slaves with that address still take part. -/
def Obligations.FoundDeviceIsPresent : Prop :=
  ∀ (s t : State) (a : Bool) (bus after : Bus), s.cfg.Ok → bus.busy = 0 → exec (.search a) s = .next t →
    t.result = .ok → bus.Answers s.cfg (s.line.since t.line) after →
    t.rbuf ∈ bus.searched a ∧ addressValid s.cfg t.rbuf = true ∧
    ∀ v ∈ after.slaves, v.active = true ↔ (v.rom = t.rbuf ∧ (a = false ∨ v.alarm = true))

/-- R79, R190: an alarm search with slaves on the bus and none in alarm, from every state whose idle poll, if there is one,
does not fail: the presence pulse comes from all slaves, bit 0 reads `(1, 1)`, and the command ends `PROTOCOL_ERROR` in
`IDLE`, not `NO_DEVICES`. -/
def Obligations.AlarmSearchWithoutAlarm : Prop :=
  ∀ (s t : State) (bus after : Bus), s.cfg.Ok → -1 ≤ s.curPos.toInt → s.curPos.toInt ≤ 63 → bus.busy = 0 →
    bus.slaves ≠ [] → bus.searched true = [] → (∃ n, s.IdleReads n) →
    exec (.search true) s = .next t → bus.Answers s.cfg (s.line.since t.line) after →
    t.result = .protocolError ∧ t.busState = .idle ∧ t.resPos = 0xFF

/-- R78, R84, R224, R278: `RDPWR` on the reference environment whose active slaves await a function command: `RDATA` is
0x00 exactly if at least one addressed slave uses parasite power. -/
def Obligations.ReadPowerFindsParasite : Prop :=
  ∀ (s t : State) (bus after : Bus), s.cfg.Ok → s.busState = .functionCommand → bus.busy = 0 →
    (∀ v ∈ bus.slaves, v.active = true → v.mode = .func []) → exec .rdpwr s = .next t →
    bus.Answers s.cfg (s.line.since t.line) after →
    t.rdata = if ∃ v ∈ bus.slaves, v.active = true ∧ v.parasite = true then 0x00 else 0x01
end

