-- ==== Sys2Proof/Laws/Bits.lean ====
section
/-! SUPPORT. Bits and bytes of values: reading what was written, and leaving the rest alone. -/

namespace Sys2Proof.Machine

open Sys2Proof

theorem setBit_getLsbD {n : Nat} (v : BitVec n) (i : Nat) (b : Bool) (j : Nat) (hj : j < n) :
    (setBit v i b).getLsbD j = if j = i then b else v.getLsbD j := by
  unfold setBit
  cases b <;> simp [hj] <;> grind

theorem byteOf_getLsbD (a : DeviceAddress) (j k : Nat) (hk : k < 8) :
    (byteOf a j).getLsbD k = a.getLsbD (8 * j + k) := by
  simp [byteOf, hk]

theorem lowByte_getLsbD (k : Nat) : (0xFF#64).getLsbD k = decide (k < 8) := by
  by_cases h : k < 64
  · revert h; revert k; decide
  · rw [BitVec.getLsbD_of_ge _ _ (by omega)]
    simp; omega

theorem setByte_getLsbD (a : DeviceAddress) (j : Nat) (v : Byte) (i : Nat) (hi : i < 64) :
    (setByte a j v).getLsbD i = if 8 * j ≤ i ∧ i < 8 * j + 8 then v.getLsbD (i - 8 * j) else a.getLsbD i := by
  have hv : ¬ i - 8 * j < 8 → v.getLsbD (i - 8 * j) = false := fun h => BitVec.getLsbD_of_ge _ _ (by omega)
  simp only [setByte, BitVec.getLsbD_or, BitVec.getLsbD_and, BitVec.getLsbD_not, BitVec.getLsbD_shiftLeft,
    lowByte_getLsbD, BitVec.getLsbD_setWidth]
  grind

/-- Two addresses with the same 64 bits are equal (R62). -/
theorem address_ext {a b : DeviceAddress} (h : ∀ i < 64, a.getLsbD i = b.getLsbD i) : a = b :=
  BitVec.eq_of_getLsbD_eq fun i hi => h i hi

/-- A byte of a buffer reads as it was written. -/
theorem byteOf_setByte_same (a : DeviceAddress) (j : Nat) (v : Byte) (hj : j < 8) : byteOf (setByte a j v) j = v := by
  refine BitVec.eq_of_getLsbD_eq fun k hk => ?_
  rw [byteOf_getLsbD _ _ _ hk, setByte_getLsbD _ _ _ _ (by omega)]
  have : 8 * j ≤ 8 * j + k ∧ 8 * j + k < 8 * j + 8 := by omega
  simp [this]

/-- Writing a byte of a buffer leaves the other bytes alone. -/
theorem byteOf_setByte_other (a : DeviceAddress) (i j : Nat) (v : Byte) (hi : i < 8) (hij : i ≠ j) :
    byteOf (setByte a j v) i = byteOf a i := by
  refine BitVec.eq_of_getLsbD_eq fun k hk => ?_
  rw [byteOf_getLsbD _ _ _ hk, byteOf_getLsbD _ _ _ hk, setByte_getLsbD _ _ _ _ (by omega)]
  have : ¬ (8 * j ≤ 8 * i + k ∧ 8 * i + k < 8 * j + 8) := by omega
  simp [this]

/-- Bits 0 to 7 of a byte as they cross the line (R63). -/
theorem bitsOf_getElem? (x : Byte) (k : Nat) (hk : k < 8) : (bitsOf x)[k]? = some (x.getLsbD k) := by
  simp [bitsOf, hk]

@[simp] theorem bitsOf_length (x : Byte) : (bitsOf x).length = 8 := by simp [bitsOf]

end Sys2Proof.Machine
end

