-- ==== Sys2Proof/Laws/State.lean ====
section
/-! SUPPORT. One lemma per field per named update of the state and of the line, true by rfl, so that no later proof unfolds
a record update. -/

namespace Sys2Proof.Machine

open Sys2Proof

/-! ## The line primitives -/

@[simp] theorem Line.assertLow_drive (l : Line) : l.assertLow.drive = true := rfl
@[simp] theorem Line.assertLow_trace (l : Line) : l.assertLow.trace = .assertLow :: l.trace := rfl
@[simp] theorem Line.assertLow_samples (l : Line) : l.assertLow.samples = l.samples := rfl
@[simp] theorem Line.assertLow_polls (l : Line) : l.assertLow.polls = l.polls := rfl
@[simp] theorem Line.assertLow_asked (l : Line) : l.assertLow.asked = l.asked := rfl

@[simp] theorem Line.release_drive (l : Line) : l.release.drive = false := rfl
@[simp] theorem Line.release_trace (l : Line) : l.release.trace = .release :: l.trace := rfl
@[simp] theorem Line.release_samples (l : Line) : l.release.samples = l.samples := rfl
@[simp] theorem Line.release_polls (l : Line) : l.release.polls = l.polls := rfl
@[simp] theorem Line.release_asked (l : Line) : l.release.asked = l.asked := rfl

@[simp] theorem Line.delay_drive (n : Nat) (l : Line) : (l.delay n).drive = l.drive := rfl
@[simp] theorem Line.delay_trace (n : Nat) (l : Line) : (l.delay n).trace = .delay n :: l.trace := rfl
@[simp] theorem Line.delay_samples (n : Nat) (l : Line) : (l.delay n).samples = l.samples := rfl
@[simp] theorem Line.delay_polls (n : Nat) (l : Line) : (l.delay n).polls = l.polls := rfl
@[simp] theorem Line.delay_asked (n : Nat) (l : Line) : (l.delay n).asked = l.asked := rfl

@[simp] theorem Line.sample_level (l : Line) : l.sample.1 = l.levelAt 0 := rfl
@[simp] theorem Line.sample_drive (l : Line) : l.sample.2.drive = l.drive := rfl
@[simp] theorem Line.sample_trace (l : Line) : l.sample.2.trace = .sample (l.levelAt 0) :: l.trace := rfl
@[simp] theorem Line.sample_samples (l : Line) : l.sample.2.samples = l.samples.drop 1 := rfl
@[simp] theorem Line.sample_polls (l : Line) : l.sample.2.polls = l.polls := rfl
@[simp] theorem Line.sample_asked (l : Line) : l.sample.2.asked = l.asked + 1 := rfl

@[simp] theorem Line.pollUntil_answer (v : Level) (m : Nat) (l : Line) :
    (l.pollUntil v m).1 = pollAnswer m (l.pollAt 0) := rfl
@[simp] theorem Line.pollUntil_drive (v : Level) (m : Nat) (l : Line) : (l.pollUntil v m).2.drive = l.drive := rfl
@[simp] theorem Line.pollUntil_trace (v : Level) (m : Nat) (l : Line) :
    (l.pollUntil v m).2.trace = .poll v m (pollAnswer m (l.pollAt 0)) :: l.trace := rfl
@[simp] theorem Line.pollUntil_samples (v : Level) (m : Nat) (l : Line) : (l.pollUntil v m).2.samples = l.samples := rfl
@[simp] theorem Line.pollUntil_polls (v : Level) (m : Nat) (l : Line) :
    (l.pollUntil v m).2.polls = l.polls.drop 1 := rfl
@[simp] theorem Line.pollUntil_asked (v : Level) (m : Nat) (l : Line) : (l.pollUntil v m).2.asked = l.asked + 1 := rfl

/-! ## The answers of the line depend only on what is lined up and on how often it was asked -/

theorem Line.levelAt_congr {l m : Line} (hs : l.samples = m.samples) (ha : l.asked = m.asked) (k : Nat) :
    l.levelAt k = m.levelAt k := by
  simp only [Line.levelAt, hs, ha]

theorem Line.pollAt_congr {l m : Line} (hp : l.polls = m.polls) (ha : l.asked = m.asked) (k : Nat) :
    l.pollAt k = m.pollAt k := by
  simp only [Line.pollAt, hp, ha]

@[simp] theorem Line.assertLow_levelAt (l : Line) (k : Nat) : l.assertLow.levelAt k = l.levelAt k := rfl
@[simp] theorem Line.release_levelAt (l : Line) (k : Nat) : l.release.levelAt k = l.levelAt k := rfl
@[simp] theorem Line.delay_levelAt (n : Nat) (l : Line) (k : Nat) : (l.delay n).levelAt k = l.levelAt k := rfl
@[simp] theorem Line.assertLow_pollAt (l : Line) (k : Nat) : l.assertLow.pollAt k = l.pollAt k := rfl
@[simp] theorem Line.release_pollAt (l : Line) (k : Nat) : l.release.pollAt k = l.pollAt k := rfl
@[simp] theorem Line.delay_pollAt (n : Nat) (l : Line) (k : Nat) : (l.delay n).pollAt k = l.pollAt k := rfl

@[simp] theorem Line.sample_levelAt (l : Line) (k : Nat) : l.sample.2.levelAt k = l.levelAt (k + 1) := by
  simp [Line.levelAt, Nat.add_comm, Nat.add_left_comm]

@[simp] theorem Line.pollUntil_pollAt (v : Level) (m : Nat) (l : Line) (k : Nat) :
    (l.pollUntil v m).2.pollAt k = l.pollAt (k + 1) := by
  simp [Line.pollAt, Nat.add_comm, Nat.add_left_comm]

/-! ## The trace in time order -/

@[simp] theorem Line.assertLow_events (l : Line) : l.assertLow.events = l.events ++ [.assertLow] := by
  simp [Line.events]

@[simp] theorem Line.release_events (l : Line) : l.release.events = l.events ++ [.release] := by
  simp [Line.events]

@[simp] theorem Line.delay_events (n : Nat) (l : Line) : (l.delay n).events = l.events ++ [.delay n] := by
  simp [Line.events]

@[simp] theorem Line.sample_events (l : Line) : l.sample.2.events = l.events ++ [.sample (l.levelAt 0)] := by
  simp [Line.events]

@[simp] theorem Line.pollUntil_events (v : Level) (m : Nat) (l : Line) :
    (l.pollUntil v m).2.events = l.events ++ [.poll v m (pollAnswer m (l.pollAt 0))] := by
  simp [Line.events]

/-! ## The run of a command -/

@[simp] theorem runCommand_busy (body : State → Result × State) (s : State) : (runCommand body s).busy = false := rfl
@[simp] theorem runCommand_result (body : State → Result × State) (s : State) :
    (runCommand body s).result = (body { s with busy := true }).1 := rfl
@[simp] theorem runCommand_cfg (body : State → Result × State) (s : State) :
    (runCommand body s).cfg = (body { s with busy := true }).2.cfg := rfl
@[simp] theorem runCommand_busState (body : State → Result × State) (s : State) :
    (runCommand body s).busState = (body { s with busy := true }).2.busState := rfl
@[simp] theorem runCommand_ibudget (body : State → Result × State) (s : State) :
    (runCommand body s).ibudget = (body { s with busy := true }).2.ibudget := rfl
@[simp] theorem runCommand_wdata (body : State → Result × State) (s : State) :
    (runCommand body s).wdata = (body { s with busy := true }).2.wdata := rfl
@[simp] theorem runCommand_rdata (body : State → Result × State) (s : State) :
    (runCommand body s).rdata = (body { s with busy := true }).2.rdata := rfl
@[simp] theorem runCommand_crcv (body : State → Result × State) (s : State) :
    (runCommand body s).crcv = (body { s with busy := true }).2.crcv := rfl
@[simp] theorem runCommand_poly (body : State → Result × State) (s : State) :
    (runCommand body s).poly = (body { s with busy := true }).2.poly := rfl
@[simp] theorem runCommand_curPos (body : State → Result × State) (s : State) :
    (runCommand body s).curPos = (body { s with busy := true }).2.curPos := rfl
@[simp] theorem runCommand_resPos (body : State → Result × State) (s : State) :
    (runCommand body s).resPos = (body { s with busy := true }).2.resPos := rfl
@[simp] theorem runCommand_budgetL (body : State → Result × State) (s : State) :
    (runCommand body s).budgetL = (body { s with busy := true }).2.budgetL := rfl
@[simp] theorem runCommand_budgetH (body : State → Result × State) (s : State) :
    (runCommand body s).budgetH = (body { s with busy := true }).2.budgetH := rfl
@[simp] theorem runCommand_abuf (body : State → Result × State) (s : State) :
    (runCommand body s).abuf = (body { s with busy := true }).2.abuf := rfl
@[simp] theorem runCommand_rbuf (body : State → Result × State) (s : State) :
    (runCommand body s).rbuf = (body { s with busy := true }).2.rbuf := rfl
@[simp] theorem runCommand_line (body : State → Result × State) (s : State) :
    (runCommand body s).line = (body { s with busy := true }).2.line := rfl
@[simp] theorem runCommand_fresh (body : State → Result × State) (s : State) :
    (runCommand body s).fresh = (body { s with busy := true }).2.fresh := rfl
@[simp] theorem runCommand_host (body : State → Result × State) (s : State) :
    (runCommand body s).host = (body { s with busy := true }).2.host := rfl
@[simp] theorem runCommand_readback (body : State → Result × State) (s : State) :
    (runCommand body s).readback = (body { s with busy := true }).2.readback := rfl

/-! ## A failed search leaves everything but RBUF, RES_POS and the index of the free values -/

@[simp] theorem State.searchFailed_resPos (s : State) : s.searchFailed.resPos = resPosError := rfl
@[simp] theorem State.searchFailed_line (s : State) : s.searchFailed.line = s.line := rfl
@[simp] theorem State.searchFailed_busState (s : State) : s.searchFailed.busState = s.busState := rfl
@[simp] theorem State.searchFailed_cfg (s : State) : s.searchFailed.cfg = s.cfg := rfl
@[simp] theorem State.unspecifyRbuf_resPos (s : State) : s.unspecifyRbuf.resPos = s.resPos := rfl
@[simp] theorem State.unspecifyRbuf_line (s : State) : s.unspecifyRbuf.line = s.line := rfl
@[simp] theorem State.unspecifyRbuf_busState (s : State) : s.unspecifyRbuf.busState = s.busState := rfl
@[simp] theorem State.unspecifyRbuf_cfg (s : State) : s.unspecifyRbuf.cfg = s.cfg := rfl

end Sys2Proof.Machine
end

