-- ==== Sys2Proof/Laws/Frames.lean ====
section
/-! SUPPORT. What each micro-operation does to the line, said once: it appends whole frames (`Line.after`) and returns the
bits those frames read (`Line.bitAt`). -/

namespace Sys2Proof.Machine

open Sys2Proof

theorem Line.ext {l m : Line} (hd : l.drive = m.drive) (ht : l.trace = m.trace) (hs : l.samples = m.samples)
    (hp : l.polls = m.polls) (ha : l.asked = m.asked) : l = m := by
  cases l; cases m; simp_all

/-! ## Frames one after the other -/

@[simp] theorem slotEvents_nil (c : Config) : slotEvents c [] = [] := rfl

theorem slotEvents_cons (c : Config) (slot : Slot) (slots : List Slot) :
    slotEvents c (slot :: slots) = slot.events c ++ slotEvents c slots := rfl

theorem slotEvents_append (c : Config) (a b : List Slot) : slotEvents c (a ++ b) = slotEvents c a ++ slotEvents c b := by
  simp [slotEvents]

@[simp] theorem Line.after_nil (c : Config) (l : Line) : l.after c [] = l := by
  simp [Line.after]

theorem Line.after_after (c : Config) (l : Line) (a b : List Slot) : (l.after c a).after c b = l.after c (a ++ b) := by
  refine Line.ext ?_ ?_ ?_ ?_ ?_
  · cases a <;> simp [Line.after]
  · simp [Line.after, slotEvents_append]
  · simp [Line.after]
  · simp [Line.after]
  · simp [Line.after]; omega

@[simp] theorem Line.after_events (c : Config) (l : Line) (slots : List Slot) :
    (l.after c slots).events = l.events ++ slotEvents c slots := by
  simp [Line.events, Line.after]

theorem Line.after_drive (c : Config) (l : Line) (slots : List Slot) (h : slots ≠ []) :
    (l.after c slots).drive = false := by
  cases slots <;> simp_all [Line.after]

/-- A released line stays released. -/
theorem Line.after_released (c : Config) (l : Line) (slots : List Slot) (h : l.drive = false) :
    (l.after c slots).drive = false := by
  simp [Line.after, h]

/-! ## The answers left after frames that poll nothing -/

theorem Line.levelAt_after (c : Config) (l : Line) (slots : List Slot) (k : Nat)
    (hp : (slots.map Slot.pollsTaken).sum = 0) :
    (l.after c slots).levelAt k = l.levelAt ((slots.map Slot.samplesTaken).sum + k) := by
  simp [Line.levelAt, Line.after, hp, Nat.add_assoc]

theorem Line.slotSamples_after (c : Config) (l : Line) (slots : List Slot) (n k : Nat)
    (hp : (slots.map Slot.pollsTaken).sum = 0) (hs : (slots.map Slot.samplesTaken).sum = n * c.nSamples) :
    (l.after c slots).slotSamples c k = l.slotSamples c (n + k) := by
  simp only [Line.slotSamples, Line.levelAt_after c l slots _ hp, hs, Nat.add_mul, Nat.add_assoc]

theorem Line.bitAt_after (c : Config) (l : Line) (slots : List Slot) (n k : Nat)
    (hp : (slots.map Slot.pollsTaken).sum = 0) (hs : (slots.map Slot.samplesTaken).sum = n * c.nSamples) :
    (l.after c slots).bitAt c k = l.bitAt c (n + k) := by
  simp only [Line.bitAt, Line.slotSamples_after c l slots n k hp hs]

@[simp] theorem Line.slotSamples_length (c : Config) (l : Line) (k : Nat) : (l.slotSamples c k).length = c.nSamples := by
  simp [Line.slotSamples]

/-! ## Write slots -/

/-- `WriteSlot(v)` puts one write slot on the line (R121). -/
theorem writeSlot_eq (c : Config) (v : Bool) (l : Line) : writeSlot c v l = l.after c [.write v] := by
  cases v <;>
    exact Line.ext (by simp [writeSlot, Line.after]) (by simp [writeSlot, Line.after, slotEvents, Slot.events])
      (by simp [writeSlot, Line.after, Slot.samplesTaken]) (by simp [writeSlot, Line.after, Slot.pollsTaken])
      (by simp [writeSlot, Line.after, Slot.samplesTaken, Slot.pollsTaken])

theorem writeBits_eq (c : Config) (bs : List Bool) (l : Line) : writeBits c bs l = l.after c (bs.map .write) := by
  induction bs generalizing l with
  | nil => simp [writeBits]
  | cons b bs ih => simp [writeBits, ih, writeSlot_eq, Line.after_after]

/-- `WriteByteSeq(x)` puts eight write slots on the line, bit 0 first (R136). -/
theorem writeByteSeq_eq (c : Config) (x : Byte) (l : Line) : writeByteSeq c x l = l.after c (byteSlots x) :=
  writeBits_eq c (bitsOf x) l

theorem writeSlots_samples (bs : List Bool) : ((bs.map Slot.write).map Slot.samplesTaken).sum = 0 := by
  induction bs <;> simp_all [Slot.samplesTaken]

theorem writeSlots_polls (bs : List Bool) : ((bs.map Slot.write).map Slot.pollsTaken).sum = 0 := by
  induction bs <;> simp_all [Slot.pollsTaken]

@[simp] theorem byteSlots_samples (x : Byte) : ((byteSlots x).map Slot.samplesTaken).sum = 0 := writeSlots_samples _

@[simp] theorem byteSlots_polls (x : Byte) : ((byteSlots x).map Slot.pollsTaken).sum = 0 := writeSlots_polls _

/-- Writing a byte takes no answer from the line. -/
@[simp] theorem Line.bitAt_after_byteSlots (c : Config) (l : Line) (x : Byte) (k : Nat) :
    (l.after c (byteSlots x)).bitAt c k = l.bitAt c k := by
  rw [Line.bitAt_after c l _ 0 k (by simp) (by simp), Nat.zero_add]

/-! ## Read slots -/

theorem bitOfSamples_nil : bitOfSamples [] = true := rfl

theorem bitOfSamples_cons (v : Level) (vs : List Level) :
    bitOfSamples (v :: vs) = (decide (v = .high) && bitOfSamples vs) := by simp [bitOfSamples]

theorem range_map_succ {α : Type} (f : Nat → α) (n : Nat) :
    (List.range (n + 1)).map f = f 0 :: (List.range n).map fun k => f (k + 1) := by
  rw [List.range_succ_eq_map, List.map_cons, List.map_map]; rfl

theorem windowEvents_cons (c : Config) (v : Level) (f : Nat → Level) (n : Nat) :
    windowEvents c (v :: (List.range n).map f) =
      .sample v :: (if n = 0 then [] else [.delay c.tRds]) ++ windowEvents c ((List.range n).map f) := by
  cases n with
  | zero => simp [windowEvents]
  | succ n => simp [range_map_succ, windowEvents]

/-- The sampling loop (R125): `seen_low` is set exactly if some of the `n` samples is low. -/
theorem sampleWindow_eq (c : Config) (n : Nat) (seen : Bool) (l : Line) :
    sampleWindow c n seen l =
      (seen || !bitOfSamples ((List.range n).map l.levelAt),
        { l with
          trace := (windowEvents c ((List.range n).map l.levelAt)).reverse ++ l.trace
          samples := l.samples.drop n
          asked := l.asked + n }) := by
  induction n generalizing seen l with
  | zero => simp [sampleWindow, bitOfSamples_nil, windowEvents]
  | succ n ih =>
    have hlevel : ∀ k, (if n = 0 then l.sample.2 else l.sample.2.delay c.tRds).levelAt k = l.levelAt (k + 1) := by
      intro k; split <;> simp
    rw [sampleWindow]
    simp only [ih]
    rw [range_map_succ, windowEvents_cons]
    have hmap : (List.range n).map (if n = 0 then l.sample.2 else l.sample.2.delay c.tRds).levelAt =
        (List.range n).map fun k => l.levelAt (k + 1) := List.map_congr_left fun k _ => hlevel k
    rw [hmap, bitOfSamples_cons]
    refine Prod.ext ?_ (Line.ext ?_ ?_ ?_ ?_ ?_)
    · cases h : l.levelAt 0 <;> simp [sawLow, h]
    · dsimp only; split <;> rfl
    · dsimp only; split <;> simp_all
    · dsimp only; split <;> simp
    · dsimp only; split <;> rfl
    · dsimp only; split <;> simp <;> omega

/-- `ReadSlot()` takes `N_SAMPLES` samples, returns their AND, and puts one whole read slot on the line (R125, R126). -/
theorem readSlot_eq (c : Config) (l : Line) :
    readSlot c l = (l.bitAt c 0, l.after c [.read (l.slotSamples c 0)]) := by
  have hlevels : (List.range c.nSamples).map l.levelAt = l.slotSamples c 0 := by
    simp [Line.slotSamples]
  have hopened : (List.range c.nSamples).map
      ((((l.assertLow).delay c.tRdl).release).delay (c.tRds - c.tRdl)).levelAt = l.slotSamples c 0 := by
    rw [← hlevels]; rfl
  simp only [readSlot, sampleWindow_eq, hopened]
  refine Prod.ext ?_ (Line.ext ?_ ?_ ?_ ?_ ?_)
  · simp [readBit, Line.bitAt]
  · simp [Line.after]
  · simp [Line.after, slotEvents, Slot.events]
  · simp [Line.after, Slot.samplesTaken]
  · simp [Line.after, Slot.pollsTaken]
  · simp [Line.after, Slot.samplesTaken, Slot.pollsTaken]

theorem Line.readFrames_succ (c : Config) (l : Line) (n : Nat) :
    l.readFrames c (n + 1) = l.readFrames c n ++ [.read (l.slotSamples c n)] := by
  simp [Line.readFrames, List.range_succ]

@[simp] theorem Line.readFrames_length (c : Config) (l : Line) (n : Nat) : (l.readFrames c n).length = n := by
  simp [Line.readFrames]

@[simp] theorem Line.readFrames_samples (c : Config) (l : Line) (n : Nat) :
    ((l.readFrames c n).map Slot.samplesTaken).sum = n * c.nSamples := by
  induction n with
  | zero => simp [Line.readFrames]
  | succ n ih => simp [Line.readFrames_succ, ih, Slot.samplesTaken, Nat.add_mul]

@[simp] theorem Line.readFrames_polls (c : Config) (l : Line) (n : Nat) :
    ((l.readFrames c n).map Slot.pollsTaken).sum = 0 := by
  induction n with
  | zero => simp [Line.readFrames]
  | succ n ih => simp [Line.readFrames_succ, ih, Slot.pollsTaken]

/-- After `n` read slots the `k`-th next one is the one `n + k` places on. -/
theorem Line.bitAt_after_readFrames (c : Config) (l : Line) (n k : Nat) :
    (l.after c (l.readFrames c n)).bitAt c k = l.bitAt c (n + k) :=
  Line.bitAt_after c l _ n k (by simp) (by simp)

theorem Line.slotSamples_after_readFrames (c : Config) (l : Line) (n k : Nat) :
    (l.after c (l.readFrames c n)).slotSamples c k = l.slotSamples c (n + k) :=
  Line.slotSamples_after c l _ n k (by simp) (by simp)

/-- One more read slot after `n`. -/
theorem Line.readSlot_after_readFrames (c : Config) (l : Line) (n : Nat) :
    readSlot c (l.after c (l.readFrames c n)) = (l.bitAt c n, l.after c (l.readFrames c (n + 1))) := by
  rw [readSlot_eq, Line.bitAt_after_readFrames, Line.slotSamples_after_readFrames, Line.after_after, Nat.add_zero,
    ← Line.readFrames_succ]

/-- The loop of `ReadByteSeq` from the `m`-th read slot on: bit `k + j` of the result is read slot `m + j` (R138). -/
theorem readByteLoop_spec (c : Config) (l : Line) (n k m : Nat) (x : Byte) :
    (readByteLoop c n k x (l.after c (l.readFrames c m))).2 = l.after c (l.readFrames c (m + n)) ∧
      ∀ j < 8, (readByteLoop c n k x (l.after c (l.readFrames c m))).1.getLsbD j =
        if k ≤ j ∧ j < k + n then l.bitAt c (m + (j - k)) else x.getLsbD j := by
  induction n generalizing k m x with
  | zero => simp only [readByteLoop, Nat.add_zero, true_and]; intro j _; split <;> first | rfl | omega
  | succ n ih =>
    rw [readByteLoop, Line.readSlot_after_readFrames]
    dsimp only
    obtain ⟨hl, hb⟩ := ih (k + 1) (m + 1) (setBit x k (l.bitAt c m))
    refine ⟨by rw [hl]; congr 2; omega, fun j hj => ?_⟩
    rw [hb j hj, setBit_getLsbD _ _ _ _ hj]
    by_cases hk : j = k
    · subst hk; simp
    · have : (k + 1 ≤ j ∧ j < k + 1 + n) ↔ (k ≤ j ∧ j < k + (n + 1)) := by omega
      simp only [this, hk, if_false]
      split
      · congr 1; omega
      · rfl

/-- `ReadByteSeq()` after `m` read slots: eight more, bit `k` is the `k`-th of them (R138). -/
theorem readByteSeq_spec (c : Config) (l : Line) (m : Nat) :
    (readByteSeq c (l.after c (l.readFrames c m))).2 = l.after c (l.readFrames c (m + 8)) ∧
      ∀ j < 8, (readByteSeq c (l.after c (l.readFrames c m))).1.getLsbD j = l.bitAt c (m + j) := by
  obtain ⟨hl, hb⟩ := readByteLoop_spec c l 8 0 m 0x00
  exact ⟨hl, fun j hj => by rw [readByteSeq, hb j hj]; simp [hj]⟩

end Sys2Proof.Machine
end

