-- ==== Sys2Proof/Laws/Handshake.lean ====
section
/-! SUPPORT. What the idle poll and the reset handshake do, said once (42_reset_presence.md R150, R156). -/

namespace Sys2Proof.Machine

open Sys2Proof

theorem pollAnswer_some (max u : Nat) (h : u ≤ max) : pollAnswer max (some u) = .hit u := by simp [pollAnswer, h]

theorem pollAnswer_hit {max : Nat} {first : Option Nat} {u : Nat} (h : pollAnswer max first = .hit u) :
    first = some u ∧ u ≤ max := by
  unfold pollAnswer at h
  split at h
  · split at h <;> simp_all
  · simp at h

theorem pollAnswer_timeout {max : Nat} {first : Option Nat} (h : ∀ u, first = some u → max < u) :
    pollAnswer max first = .timeout := by
  unfold pollAnswer
  split
  · rename_i u; simp [Nat.not_le.mpr (h u rfl)]
  · rfl

/-- The poll of `PollUntil(_, max)` times out exactly if the line does not have the level within `max` (R54). -/
theorem pollAnswer_eq_timeout {max : Nat} {first : Option Nat} :
    pollAnswer max first = .timeout ↔ ∀ u, first = some u → max < u := by
  refine ⟨fun h u hu => ?_, pollAnswer_timeout⟩
  by_contra hle
  subst hu
  rw [pollAnswer_some _ _ (by omega)] at h
  simp at h

/-! ## The reset pulse -/

/-- A reset pulse puts one reset frame on the line and returns how it ended (R150 steps 2 to 6). -/
theorem resetPulse_eq (c : Config) (l : Line) :
    resetPulse c l = ((l.nextHandshake c).outcome, l.after c [.reset (l.nextHandshake c)]) := by
  have h0 : (((l.assertLow).delay c.tRstl).release).pollAt 0 = l.pollAt 0 := rfl
  have h1 : (((l.assertLow).delay c.tRstl).release).pollAt 1 = l.pollAt 1 := rfl
  simp only [resetPulse, Line.pollUntil_answer, Line.pollUntil_pollAt, h0, h1, Nat.zero_add, Line.nextHandshake]
  cases hp : pollAnswer c.tPdh (l.pollAt 0) with
  | timeout =>
    refine Prod.ext rfl (Line.ext ?_ ?_ ?_ ?_ ?_) <;>
      simp [Line.after, slotEvents, Slot.events, Handshake.events, Slot.samplesTaken, Slot.pollsTaken, h0, hp]
  | hit u1 =>
    cases hq : pollAnswer c.tPdl (l.pollAt 1) with
    | timeout =>
      refine Prod.ext rfl (Line.ext ?_ ?_ ?_ ?_ ?_) <;>
        simp [Line.after, slotEvents, Slot.events, Handshake.events, Slot.samplesTaken, Slot.pollsTaken, hp, hq]
    | hit u2 =>
      refine Prod.ext rfl (Line.ext ?_ ?_ ?_ ?_ ?_) <;>
        simp [Line.after, slotEvents, Slot.events, Handshake.events, Slot.samplesTaken, Slot.pollsTaken, hp, hq]

theorem Line.nextHandshake_complete (c : Config) (l : Line) : (Slot.reset (l.nextHandshake c)).Complete c = true := by
  unfold Line.nextHandshake
  split
  · rfl
  · rename_i u1 h1
    split
    · simp [Slot.Complete, (pollAnswer_hit h1).2]
    · rename_i u2 h2
      simp [Slot.Complete, (pollAnswer_hit h1).2, (pollAnswer_hit h2).2]

theorem Handshake.outcome_ne_stillBusy (h : Handshake) : h.outcome ≠ .stillBusy := by cases h <;> simp [Handshake.outcome]

/-! ## The idle poll -/

theorem pollIdle_from (c : Config) (l : Line) (n m : Nat) :
    (∃ k < n, (∀ j < k, l.bitAt c (m + j) = false) ∧ l.bitAt c (m + k) = true ∧
        pollIdle c n (l.after c (l.readFrames c m)) = (true, l.after c (l.readFrames c (m + k + 1)))) ∨
      ((∀ j < n, l.bitAt c (m + j) = false) ∧
        pollIdle c n (l.after c (l.readFrames c m)) = (false, l.after c (l.readFrames c (m + n)))) := by
  induction n generalizing m with
  | zero => exact .inr ⟨by simp, by simp [pollIdle]⟩
  | succ n ih =>
    rw [pollIdle, Line.readSlot_after_readFrames]
    dsimp only
    cases hb : l.bitAt c m with
    | true => exact .inl ⟨0, by omega, by simp, by simpa using hb, by simp⟩
    | false =>
      simp only [Bool.false_eq_true, if_false]
      rcases ih (m + 1) with ⟨k, hk, hz, ho, he⟩ | ⟨hz, he⟩
      · refine .inl ⟨k + 1, by omega, fun j hj => ?_, ?_, ?_⟩
        · cases j with
          | zero => simpa using hb
          | succ j => rw [← hz j (by omega)]; congr 1; omega
        · rw [← ho]; congr 1; omega
        · rw [he]; congr 3; omega
      · refine .inr ⟨fun j hj => ?_, ?_⟩
        · cases j with
          | zero => simpa using hb
          | succ j => rw [← hz j (by omega)]; congr 1; omega
        · rw [he]; congr 3; omega

/-- The idle poll ends at the first read slot that returns 1, or spends the whole budget (R156). -/
theorem pollIdle_cases (c : Config) (n : Nat) (l : Line) :
    (∃ k < n, (∀ j < k, l.bitAt c j = false) ∧ l.bitAt c k = true ∧
        pollIdle c n l = (true, l.after c (l.readFrames c (k + 1)))) ∨
      ((∀ j < n, l.bitAt c j = false) ∧ pollIdle c n l = (false, l.after c (l.readFrames c n))) := by
  simpa [Line.readFrames] using pollIdle_from c l n 0

/-- With no read slot returning 1 within the budget the poll is exhausted (R156). -/
theorem pollIdle_exhausted (c : Config) (n : Nat) (l : Line) (h : ∀ j < n, l.bitAt c j = false) :
    pollIdle c n l = (false, l.after c (l.readFrames c n)) := by
  rcases pollIdle_cases c n l with ⟨k, hk, -, ho, -⟩ | ⟨-, he⟩
  · simp [h k hk] at ho
  · exact he

/-- The first read slot within the budget that returns 1 ends the poll (R156). -/
theorem pollIdle_released (c : Config) (n k : Nat) (l : Line) (hk : k < n) (hz : ∀ j < k, l.bitAt c j = false)
    (ho : l.bitAt c k = true) : pollIdle c n l = (true, l.after c (l.readFrames c (k + 1))) := by
  rcases pollIdle_cases c n l with ⟨k', hk', hz', ho', he⟩ | ⟨hz', -⟩
  · rcases Nat.lt_trichotomy k k' with h | h | h
    · simp [hz' k h] at ho
    · subst h; exact he
    · simp [hz k' h] at ho'
  · simp [hz' k hk] at ho

theorem Line.readFrames_complete (c : Config) (l : Line) (n : Nat) :
    ∀ slot ∈ l.readFrames c n, slot.Complete c = true := by
  intro slot hs
  obtain ⟨k, -, rfl⟩ := List.mem_map.mp hs
  simp [Slot.Complete]

/-! ## The handshake -/

/-- Everything `ResetSeq()` can do (R150): a reset frame at once when `STATE` is not `AWAITING_IDLE`; read slots up to the
first released one and then a reset frame; or a spent budget and no reset frame. -/
theorem resetSeq_cases (c : Config) (b : BusState) (budget : BitVec 16) (l : Line) :
    (b ≠ .awaitingIdle ∧ resetSeq c b budget l =
        ((l.nextHandshake c).outcome, stateAfterPulse (l.nextHandshake c).outcome,
          l.after c [.reset (l.nextHandshake c)])) ∨
      (b = .awaitingIdle ∧ ∃ k < budget.toNat, (∀ j < k, l.bitAt c j = false) ∧ l.bitAt c k = true ∧
        resetSeq c b budget l =
          let m := l.after c (l.readFrames c (k + 1))
          ((m.nextHandshake c).outcome, stateAfterPulse (m.nextHandshake c).outcome,
            m.after c [.reset (m.nextHandshake c)])) ∨
      (b = .awaitingIdle ∧ (∀ j < budget.toNat, l.bitAt c j = false) ∧
        resetSeq c b budget l = (.stillBusy, .awaitingIdle, l.after c (l.readFrames c budget.toNat))) := by
  by_cases hb : b = .awaitingIdle
  · subst hb
    rcases pollIdle_cases c budget.toNat l with ⟨k, hk, hz, ho, he⟩ | ⟨hz, he⟩
    · exact .inr (.inl ⟨rfl, k, hk, hz, ho, by simp [resetSeq, he, resetPulse_eq]⟩)
    · exact .inr (.inr ⟨rfl, hz, by simp [resetSeq, he]⟩)
  · exact .inl ⟨hb, by simp [resetSeq, hb, resetPulse_eq]⟩

/-- The frames of a handshake are whole ones (R150). -/
theorem resetSeq_frames (c : Config) (b : BusState) (budget : BitVec 16) (l : Line) :
    ∃ slots, (∀ slot ∈ slots, slot.Complete c = true) ∧ (resetSeq c b budget l).2.2 = l.after c slots := by
  rcases resetSeq_cases c b budget l with ⟨-, he⟩ | ⟨-, k, -, -, -, he⟩ | ⟨-, -, he⟩
  · exact ⟨[.reset (l.nextHandshake c)], by simpa using Line.nextHandshake_complete c l, by rw [he]⟩
  · refine ⟨l.readFrames c (k + 1) ++ [.reset ((l.after c (l.readFrames c (k + 1))).nextHandshake c)], ?_, ?_⟩
    · intro slot hs
      rcases List.mem_append.mp hs with h | h
      · exact Line.readFrames_complete c l _ slot h
      · rw [List.mem_singleton.mp h]; exact Line.nextHandshake_complete c _
    · rw [he]; simp [Line.after_after]
  · exact ⟨_, Line.readFrames_complete c l _, by rw [he]⟩

/-- The `STATE` a handshake leaves follows from its result (R150, R168). -/
theorem resetSeq_state (c : Config) (b : BusState) (budget : BitVec 16) (l : Line) :
    (resetSeq c b budget l).2.1 =
      match (resetSeq c b budget l).1 with
      | .success => .romCommand
      | .noPresence | .neverReleased => .idle
      | .stillBusy => .awaitingIdle := by
  rcases resetSeq_cases c b budget l with ⟨-, he⟩ | ⟨-, k, -, -, -, he⟩ | ⟨-, -, he⟩
  · rw [he]; dsimp only; cases l.nextHandshake c <;> rfl
  · rw [he]; dsimp only; cases (l.after c (l.readFrames c (k + 1))).nextHandshake c <;> rfl
  · rw [he]

/-- A spent idle poll is possible only in `AWAITING_IDLE` (R150 step 1). -/
theorem resetSeq_stillBusy (c : Config) (b : BusState) (budget : BitVec 16) (l : Line)
    (h : (resetSeq c b budget l).1 = .stillBusy) : b = .awaitingIdle := by
  rcases resetSeq_cases c b budget l with ⟨-, he⟩ | ⟨hb, -⟩ | ⟨hb, -⟩
  · rw [he] at h; exact absurd h (Handshake.outcome_ne_stillBusy _)
  · exact hb
  · exact hb

end Sys2Proof.Machine
end

