-- ==== Sys2Proof/Laws/Addresses.lean ====
section
/-! SUPPORT. Addresses on the line: the 64 read slots of `RDROM` and the write slots of `MATCH` (20_memory.md R64). -/

namespace Sys2Proof.Machine

open Sys2Proof

/-- The bytes of an address, byte 0 first and bit 0 first, are its 64 bits in order (R64). -/
theorem bytesOf_bits (a : DeviceAddress) : (bytesOf a 8).flatMap bitsOf = (List.range 64).map a.getLsbD := by
  have h : ∀ j, bitsOf (byteOf a j) = (List.range 8).map fun k => a.getLsbD (8 * j + k) := fun j =>
    List.map_congr_left fun k hk => byteOf_getLsbD a j k (List.mem_range.mp hk)
  have hr : (List.range 8).map (byteOf a) = [byteOf a 0, byteOf a 1, byteOf a 2, byteOf a 3, byteOf a 4, byteOf a 5,
      byteOf a 6, byteOf a 7] := rfl
  simp only [bytesOf, hr, List.flatMap_cons, List.flatMap_nil, h]
  rfl

theorem writeBytes_eq (c : Config) (bs : List Byte) (l : Line) :
    writeBytes c bs l = l.after c ((bs.flatMap bitsOf).map .write) := by
  induction bs generalizing l with
  | nil => simp [writeBytes]
  | cons b bs ih => simp [writeBytes, ih, writeByteSeq_eq, byteSlots, Line.after_after]

/-- Writing the eight bytes of an address is writing its 64 bits (R64, R218). -/
theorem writeBytes_address (c : Config) (a : DeviceAddress) (l : Line) :
    writeBytes c (bytesOf a 8) l = l.after c (addressSlots a) := by
  rw [writeBytes_eq, bytesOf_bits, List.map_map]; rfl

/-- The loop of `RDROM` from byte `j` on, after `8 * j` read slots (R215). -/
theorem readAddressLoop_spec (c : Config) (l : Line) (n j : Nat) (out : DeviceAddress) :
    (readAddressLoop c n j out (l.after c (l.readFrames c (8 * j)))).2 = l.after c (l.readFrames c (8 * (j + n))) ∧
      ∀ i < 64, (readAddressLoop c n j out (l.after c (l.readFrames c (8 * j)))).1.getLsbD i =
        if 8 * j ≤ i ∧ i < 8 * (j + n) then l.bitAt c i else out.getLsbD i := by
  induction n generalizing j out with
  | zero => simp only [readAddressLoop, Nat.add_zero, true_and]; intro i _; split <;> first | rfl | omega
  | succ n ih =>
    obtain ⟨hl, hb⟩ := readByteSeq_spec c l (8 * j)
    obtain ⟨hl', hb'⟩ := ih (j + 1) (setByte out j (readByteSeq c (l.after c (l.readFrames c (8 * j)))).1)
    rw [readAddressLoop, hl]
    refine ⟨by rw [show 8 * j + 8 = 8 * (j + 1) by ring, hl']; congr 2; ring, fun i hi => ?_⟩
    rw [show 8 * j + 8 = 8 * (j + 1) by ring, hb' i hi, setByte_getLsbD _ _ _ _ hi]
    by_cases h : 8 * j ≤ i ∧ i < 8 * j + 8
    · rw [if_neg (by omega), if_pos h, if_pos (by omega), hb (i - 8 * j) (by omega)]
      congr 1; omega
    · rw [if_neg h]
      by_cases h' : 8 * (j + 1) ≤ i ∧ i < 8 * (j + 1 + n)
      · rw [if_pos h', if_pos (by omega)]
      · rw [if_neg h', if_neg (by omega)]

/-- Reading an address is 64 read slots, bit `i` the `i`-th of them (R64, R215). -/
theorem readAddress_spec (c : Config) (l : Line) :
    (readAddressLoop c 8 0 0 l).2 = l.after c (l.readFrames c 64) ∧
      ∀ i < 64, (readAddressLoop c 8 0 0 l).1.getLsbD i = l.bitAt c i := by
  have h := readAddressLoop_spec c l 8 0 0
  simp only [Nat.mul_zero, show l.readFrames c 0 = [] from rfl, Line.after_nil, Nat.zero_add] at h
  exact ⟨h.1, fun i hi => by rw [h.2 i hi]; simp [hi]⟩

end Sys2Proof.Machine
end

