-- ==== Sys2Proof/Laws/Walk.lean ====
section
/-! SUPPORT. What the walk of the ROM search does, said once (44_rom_search.md R183 to R186). -/

namespace Sys2Proof.Machine

open Sys2Proof

/-- The bit chosen does not depend on the recorded position (R184, R186). -/
theorem searchChoice_bit (last : Int) (cursor : DeviceAddress) (i mark : Nat) (b nb : Bool) :
    (searchChoice last cursor i mark b nb).1 = searchBit last cursor i b nb := by
  cases b <;> cases nb <;> simp only [searchChoice, searchBit, conflictChoice] <;> grind

/-- The recorded position becomes `i` exactly at a conflict where 0 is taken (R184). -/
theorem searchChoice_mark (last : Int) (cursor : DeviceAddress) (i mark : Nat) (b nb : Bool) :
    (searchChoice last cursor i mark b nb).2 =
      if !b && !nb && !searchBit last cursor i b nb then i else mark := by
  cases b <;> cases nb <;> simp only [searchChoice, searchBit, conflictChoice] <;> grind

theorem searchFrames_succ (c : Config) (l : Line) (out : DeviceAddress) (n : Nat) :
    searchFrames c l out (n + 1) = searchFrames c l out n ++
      [.read (l.slotSamples c (2 * n)), .read (l.slotSamples c (2 * n + 1)), .write (out.getLsbD n)] := by
  simp [searchFrames, List.range_succ]

theorem searchFrames_congr (c : Config) (l : Line) (a b : DeviceAddress) (n : Nat)
    (h : ∀ i < n, a.getLsbD i = b.getLsbD i) : searchFrames c l a n = searchFrames c l b n := by
  induction n with
  | zero => rfl
  | succ n ih => rw [searchFrames_succ, searchFrames_succ, ih fun i hi => h i (by omega), h n (by omega)]

@[simp] theorem searchFrames_samples (c : Config) (l : Line) (out : DeviceAddress) (n : Nat) :
    ((searchFrames c l out n).map Slot.samplesTaken).sum = 2 * n * c.nSamples := by
  induction n with
  | zero => simp [searchFrames]
  | succ n ih => simp [searchFrames_succ, ih, Slot.samplesTaken]; ring

@[simp] theorem searchFrames_polls (c : Config) (l : Line) (out : DeviceAddress) (n : Nat) :
    ((searchFrames c l out n).map Slot.pollsTaken).sum = 0 := by
  induction n with
  | zero => simp [searchFrames]
  | succ n ih => simp [searchFrames_succ, ih, Slot.pollsTaken]

theorem searchFrames_complete (c : Config) (l : Line) (out : DeviceAddress) (n : Nat) :
    ∀ slot ∈ searchFrames c l out n, slot.Complete c = true := by
  intro slot hs
  obtain ⟨i, -, hi⟩ := List.mem_flatMap.mp hs
  simp only [List.mem_cons, List.not_mem_nil, or_false] at hi
  rcases hi with rfl | rfl | rfl <;> simp [Slot.Complete]

theorem searchFrames_length (c : Config) (l : Line) (out : DeviceAddress) (n : Nat) :
    (searchFrames c l out n).length = 3 * n := by
  induction n with
  | zero => rfl
  | succ n ih => simp [searchFrames_succ, ih]; omega

/-- The two read slots of bit `i`, after the groups of the bits below it (R183). -/
theorem readPair_after_searchFrames (c : Config) (l : Line) (out : DeviceAddress) (i : Nat) :
    readSlot c (l.after c (searchFrames c l out i)) =
        (l.bitAt c (2 * i), l.after c (searchFrames c l out i ++ [.read (l.slotSamples c (2 * i))])) ∧
      readSlot c (l.after c (searchFrames c l out i ++ [.read (l.slotSamples c (2 * i))])) =
        (l.bitAt c (2 * i + 1), l.after c (searchFrames c l out i ++
          [.read (l.slotSamples c (2 * i)), .read (l.slotSamples c (2 * i + 1))])) := by
  constructor
  · rw [readSlot_eq, Line.bitAt_after c l _ (2 * i) 0 (by simp) (by simp),
      Line.slotSamples_after c l _ (2 * i) 0 (by simp) (by simp), Line.after_after, Nat.add_zero]
  · have hs : ((searchFrames c l out i ++ [Slot.read (l.slotSamples c (2 * i))]).map Slot.samplesTaken).sum =
        (2 * i + 1) * c.nSamples := by simp [Slot.samplesTaken]; ring
    have hp : ((searchFrames c l out i ++ [Slot.read (l.slotSamples c (2 * i))]).map Slot.pollsTaken).sum = 0 := by
      simp [Slot.pollsTaken]
    rw [readSlot_eq, Line.bitAt_after c l _ (2 * i + 1) 0 hp hs, Line.slotSamples_after c l _ (2 * i + 1) 0 hp hs,
      Line.after_after, Nat.add_zero]
    simp

/-- What the walk has found after bit `i` of the line `l` (R183, R184, R186). -/
def Found.next (c : Config) (last : Int) (cursor : DeviceAddress) (l : Line) (i : Nat) (f : Found) : Found :=
  let out := setBit f.address i (searchBit last cursor i (l.bitAt c (2 * i)) (l.bitAt c (2 * i + 1)))
  ⟨out, if unexplored c l out i then i else f.mark⟩

theorem Found.next_bit (c : Config) (last : Int) (cursor : DeviceAddress) (l : Line) (i : Nat) (f : Found)
    (hi : i < 64) : (f.next c last cursor l i).address.getLsbD i =
      searchBit last cursor i (l.bitAt c (2 * i)) (l.bitAt c (2 * i + 1)) := by
  simp only [Found.next, setBit_getLsbD _ _ _ _ hi, if_true]

theorem Found.next_below (c : Config) (last : Int) (cursor : DeviceAddress) (l : Line) (i j : Nat) (f : Found)
    (hi : i < 64) (hj : j < i) : (f.next c last cursor l i).address.getLsbD j = f.address.getLsbD j := by
  simp only [Found.next, setBit_getLsbD _ _ _ _ (Nat.lt_trans hj hi)]
  rw [if_neg (by omega)]

theorem Found.next_mark (c : Config) (last : Int) (cursor : DeviceAddress) (l : Line) (i : Nat) (f : Found)
    (out : DeviceAddress) (ho : out.getLsbD i = (f.next c last cursor l i).address.getLsbD i) :
    (f.next c last cursor l i).mark = if unexplored c l out i then i else f.mark := by
  have : unexplored c l out i = unexplored c l (f.next c last cursor l i).address i := by
    simp only [unexplored, ho]
  rw [this]; rfl

/-- One pass of the loop (R183). -/
theorem searchWalk_step (c : Config) (last : Int) (cursor : DeviceAddress) (l : Line) (n i : Nat) (f : Found)
    (hi : i < 64) (hpair : ¬ (l.bitAt c (2 * i) = true ∧ l.bitAt c (2 * i + 1) = true)) :
    searchWalk c last cursor (n + 1) i f (l.after c (searchFrames c l f.address i)) =
      searchWalk c last cursor n (i + 1) (f.next c last cursor l i)
        (l.after c (searchFrames c l (f.next c last cursor l i).address (i + 1))) := by
  obtain ⟨h1, h2⟩ := readPair_after_searchFrames c l f.address i
  have hand : (l.bitAt c (2 * i) && l.bitAt c (2 * i + 1)) = false := by
    cases h : l.bitAt c (2 * i) <;> cases h' : l.bitAt c (2 * i + 1) <;> simp_all
  have hframes : searchFrames c l (f.next c last cursor l i).address i = searchFrames c l f.address i :=
    searchFrames_congr c l _ _ _ fun j hj => Found.next_below c last cursor l i j f hi hj
  have hline : writeSlot c (searchBit last cursor i (l.bitAt c (2 * i)) (l.bitAt c (2 * i + 1)))
      (l.after c (searchFrames c l f.address i ++
        [.read (l.slotSamples c (2 * i)), .read (l.slotSamples c (2 * i + 1))])) =
      l.after c (searchFrames c l (f.next c last cursor l i).address (i + 1)) := by
    rw [writeSlot_eq, Line.after_after, searchFrames_succ, hframes, Found.next_bit _ _ _ _ _ _ hi]
    simp
  have hfound : (⟨setBit f.address i (searchBit last cursor i (l.bitAt c (2 * i)) (l.bitAt c (2 * i + 1))),
      if !l.bitAt c (2 * i) && !l.bitAt c (2 * i + 1) &&
        !searchBit last cursor i (l.bitAt c (2 * i)) (l.bitAt c (2 * i + 1)) then i else f.mark⟩ : Found) =
      f.next c last cursor l i := by
    simp only [Found.next, unexplored, setBit_getLsbD _ _ _ _ hi, if_true]
  rw [searchWalk, h1]
  dsimp only
  rw [h2]
  dsimp only
  rw [hand, searchChoice_bit, searchChoice_mark, hline, hfound]
  simp

/-- The walk over the bits from `i` on, when no pair reads `(1, 1)` (R183, R184, R186): it goes to the end, every bit is
the one R184 and R186 give, and the recorded position is the highest unexplored one, or the one recorded before. -/
theorem searchWalk_completes (c : Config) (last : Int) (cursor : DeviceAddress) (l : Line) (n i : Nat) (f : Found)
    (hn : i + n = 64) (hpair : ∀ j, i ≤ j → j < 64 → ¬ (l.bitAt c (2 * j) = true ∧ l.bitAt c (2 * j + 1) = true)) :
    ∃ g : Found,
      searchWalk c last cursor n i f (l.after c (searchFrames c l f.address i)) =
        (some g, l.after c (searchFrames c l g.address 64)) ∧
      (∀ j < i, g.address.getLsbD j = f.address.getLsbD j) ∧
      (∀ j, i ≤ j → j < 64 →
        g.address.getLsbD j = searchBit last cursor j (l.bitAt c (2 * j)) (l.bitAt c (2 * j + 1))) ∧
      ((∃ m, i ≤ m ∧ m < 64 ∧ unexplored c l g.address m = true ∧
          (∀ j, m < j → j < 64 → unexplored c l g.address j = false) ∧ g.mark = m) ∨
        ((∀ j, i ≤ j → j < 64 → unexplored c l g.address j = false) ∧ g.mark = f.mark)) := by
  induction n generalizing i f with
  | zero =>
    obtain rfl : i = 64 := by omega
    exact ⟨f, by simp [searchWalk], fun _ _ => rfl, fun j h1 h2 => by omega, .inr ⟨fun j h1 h2 => by omega, rfl⟩⟩
  | succ n ih =>
    have hi : i < 64 := by omega
    have hstep := searchWalk_step c last cursor l n i f hi (hpair i le_rfl hi)
    obtain ⟨g, hg, hlow, hbits, hmark⟩ :=
      ih (i + 1) (f.next c last cursor l i) (by omega) (fun j h1 h2 => hpair j (by omega) h2)
    have hsame := hlow i (by omega)
    have hnext := Found.next_mark c last cursor l i f g.address hsame
    refine ⟨g, hstep.trans hg, fun j hj => ?_, fun j h1 h2 => ?_, ?_⟩
    · rw [hlow j (by omega), Found.next_below c last cursor l i j f hi hj]
    · rcases Nat.eq_or_lt_of_le h1 with rfl | h
      · rw [hsame, Found.next_bit c last cursor l i f hi]
      · exact hbits j (by omega) h2
    · rcases hmark with ⟨m, h1, h2, h3, h4, h5⟩ | ⟨h1, h2⟩
      · exact .inl ⟨m, by omega, h2, h3, h4, h5⟩
      · rw [hnext] at h2
        cases hu : unexplored c l g.address i with
        | true => exact .inl ⟨i, le_rfl, hi, hu, fun j hj hj' => h1 j (by omega) hj', by rw [h2, hu]; rfl⟩
        | false =>
          refine .inr ⟨fun j hj hj' => ?_, by rw [h2, hu]; rfl⟩
          rcases Nat.eq_or_lt_of_le hj with rfl | h
          · exact hu
          · exact h1 j (by omega) hj'

/-- The walk over the bits from `i` on, when `k` is the first bit whose pair reads `(1, 1)` (R185): it ends after the two
read slots of bit `k`, with no write slot for it. -/
theorem searchWalk_aborts (c : Config) (last : Int) (cursor : DeviceAddress) (l : Line) (n i k : Nat) (f : Found)
    (hn : i + n = 64) (hik : i ≤ k) (hk : k < 64)
    (hpair : ∀ j, i ≤ j → j < k → ¬ (l.bitAt c (2 * j) = true ∧ l.bitAt c (2 * j + 1) = true))
    (h1 : l.bitAt c (2 * k) = true) (h2 : l.bitAt c (2 * k + 1) = true) :
    ∃ out : DeviceAddress,
      searchWalk c last cursor n i f (l.after c (searchFrames c l f.address i)) =
        (none, l.after c (searchFrames c l out k ++
          [.read (l.slotSamples c (2 * k)), .read (l.slotSamples c (2 * k + 1))])) ∧
      (∀ j < i, out.getLsbD j = f.address.getLsbD j) ∧
      ∀ j, i ≤ j → j < k →
        out.getLsbD j = searchBit last cursor j (l.bitAt c (2 * j)) (l.bitAt c (2 * j + 1)) := by
  induction n generalizing i f with
  | zero => omega
  | succ n ih =>
    have hi : i < 64 := by omega
    rcases Nat.eq_or_lt_of_le hik with rfl | hlt
    · obtain ⟨p1, p2⟩ := readPair_after_searchFrames c l f.address i
      refine ⟨f.address, ?_, fun _ _ => rfl, fun j a b => by omega⟩
      rw [searchWalk, p1]
      dsimp only
      rw [p2]
      dsimp only
      simp [h1, h2]
    · have hstep := searchWalk_step c last cursor l n i f hi (hpair i le_rfl hlt)
      obtain ⟨out, ho, hlow, hbits⟩ :=
        ih (i + 1) (f.next c last cursor l i) (by omega) (by omega) (fun j a b => hpair j (by omega) b)
      refine ⟨out, hstep.trans ho, fun j hj => ?_, fun j a b => ?_⟩
      · rw [hlow j (by omega), Found.next_below c last cursor l i j f hi hj]
      · rcases Nat.eq_or_lt_of_le a with rfl | h
        · rw [hlow i (by omega), Found.next_bit c last cursor l i f hi]
        · exact hbits j (by omega) b

end Sys2Proof.Machine
end

