-- ==== Sys2Proof/Laws/Search.lean ====
section
/-! SUPPORT. Everything the composite commands can do after a successful handshake, said once: `SEARCH` (R180 steps 2 to 4)
and `RDROM` (R215). -/

namespace Sys2Proof.Machine

open Sys2Proof

/-- The recorded position of a completed search (R184): the highest conflict at which 0 was taken, or 64. -/
def RecordedPosition (c : Config) (m : Line) (out : DeviceAddress) (p : Nat) : Prop :=
  (p < 64 ∧ unexplored c m out p = true ∧ ∀ i, p < i → i < 64 → unexplored c m out i = false) ∨
    (p = 64 ∧ ∀ i < 64, unexplored c m out i = false)

/-- The recorded position is determined by the reads and the address. -/
theorem RecordedPosition.unique {c : Config} {m : Line} {out : DeviceAddress} {p q : Nat}
    (hp : RecordedPosition c m out p) (hq : RecordedPosition c m out q) : p = q := by
  rcases hp with ⟨p1, p2, p3⟩ | ⟨p1, p2⟩ <;> rcases hq with ⟨q1, q2, q3⟩ | ⟨q1, q2⟩
  · rcases Nat.lt_trichotomy p q with h | h | h
    · rw [p3 q h q1] at q2; simp at q2
    · exact h
    · rw [q3 p h p1] at p2; simp at p2
  · rw [q2 p p1] at p2; simp at p2
  · rw [p2 q q1] at q2; simp at q2
  · omega

theorem RecordedPosition.le {c : Config} {m : Line} {out : DeviceAddress} {p : Nat} (h : RecordedPosition c m out p) :
    p ≤ 64 := by
  rcases h with ⟨h, -⟩ | ⟨h, -⟩ <;> omega

theorem searchWalk_done (c : Config) (last : Int) (cursor : DeviceAddress) (m : Line)
    (hpair : ∀ j < 64, ¬ (m.bitAt c (2 * j) = true ∧ m.bitAt c (2 * j + 1) = true)) :
    ∃ g : Found, searchWalk c last cursor 64 0 ⟨0, 64⟩ m = (some g, m.after c (searchFrames c m g.address 64)) ∧
      (∀ j < 64, g.address.getLsbD j = searchBit last cursor j (m.bitAt c (2 * j)) (m.bitAt c (2 * j + 1))) ∧
      RecordedPosition c m g.address g.mark := by
  obtain ⟨g, hg, -, hb, hm⟩ :=
    searchWalk_completes c last cursor m 64 0 ⟨0, 64⟩ rfl fun j _ hj => hpair j hj
  refine ⟨g, by simpa [searchFrames] using hg, fun j hj => hb j (Nat.zero_le _) hj, ?_⟩
  rcases hm with ⟨k, -, hk, hu, hz, rfl⟩ | ⟨hz, he⟩
  · exact .inl ⟨hk, hu, hz⟩
  · exact .inr ⟨he, fun i hi => hz i (Nat.zero_le _) hi⟩

theorem searchWalk_stopped (c : Config) (last : Int) (cursor : DeviceAddress) (m : Line) (k : Nat) (hk : k < 64)
    (hpair : ∀ j < k, ¬ (m.bitAt c (2 * j) = true ∧ m.bitAt c (2 * j + 1) = true))
    (h1 : m.bitAt c (2 * k) = true) (h2 : m.bitAt c (2 * k + 1) = true) :
    ∃ out : DeviceAddress, searchWalk c last cursor 64 0 ⟨0, 64⟩ m =
        (none, m.after c (searchFrames c m out k ++
          [.read (m.slotSamples c (2 * k)), .read (m.slotSamples c (2 * k + 1))])) ∧
      ∀ j < k, out.getLsbD j = searchBit last cursor j (m.bitAt c (2 * j)) (m.bitAt c (2 * j + 1)) := by
  obtain ⟨out, ho, -, hb⟩ :=
    searchWalk_aborts c last cursor m 64 0 k ⟨0, 64⟩ rfl (Nat.zero_le _) hk (fun j _ hj => hpair j hj) h1 h2
  exact ⟨out, by simpa [searchFrames] using ho, fun j hj => hb j (Nat.zero_le _) hj⟩

/-- The pairs of the 64 bits: none reads `(1, 1)`, or there is a first one that does. -/
theorem pairs_cases (c : Config) (m : Line) :
    (∀ j < 64, ¬ (m.bitAt c (2 * j) = true ∧ m.bitAt c (2 * j + 1) = true)) ∨
      ∃ k < 64, (∀ j < k, ¬ (m.bitAt c (2 * j) = true ∧ m.bitAt c (2 * j + 1) = true)) ∧
        m.bitAt c (2 * k) = true ∧ m.bitAt c (2 * k + 1) = true := by
  by_cases h : ∃ k, k < 64 ∧ m.bitAt c (2 * k) = true ∧ m.bitAt c (2 * k + 1) = true
  · classical
    refine .inr ⟨Nat.find h, (Nat.find_spec h).1, fun j hj hp => ?_, (Nat.find_spec h).2⟩
    exact Nat.find_min h hj ⟨Nat.lt_trans hj (Nat.find_spec h).1, hp⟩
  · push Not at h
    exact .inl fun j hj hp => by simpa [hp.2] using h j hj hp.1

/-- Everything `SEARCH` can do after a successful handshake (R180): a completed walk with a valid address or not, or a walk
stopped at the first pair `(1, 1)`. -/
theorem searchSelected_cases (a : Bool) (s : State) (m : Line)
    (hm : m = s.line.after s.cfg (byteSlots (searchCommand s.cfg a))) :
    (∃ (out : DeviceAddress) (p : Nat),
      (∀ j < 64, ¬ (m.bitAt s.cfg (2 * j) = true ∧ m.bitAt s.cfg (2 * j + 1) = true)) ∧
      (∀ j < 64, out.getLsbD j =
        searchBit s.cursorPosition s.abuf j (m.bitAt s.cfg (2 * j)) (m.bitAt s.cfg (2 * j + 1))) ∧
      RecordedPosition s.cfg m out p ∧
      searchSelected a s =
        if addressValid s.cfg out then
          (.ok, { s with
            rbuf := out, resPos := BitVec.ofNat 8 p, busState := .functionCommand,
            line := m.after s.cfg (searchFrames s.cfg m out 64) })
        else (.checksumError, { s.searchFailed with
          busState := .idle, line := m.after s.cfg (searchFrames s.cfg m out 64) })) ∨
    ∃ k < 64, ∃ out : DeviceAddress,
      (∀ j < k, ¬ (m.bitAt s.cfg (2 * j) = true ∧ m.bitAt s.cfg (2 * j + 1) = true)) ∧
      m.bitAt s.cfg (2 * k) = true ∧ m.bitAt s.cfg (2 * k + 1) = true ∧
      (∀ j < k, out.getLsbD j =
        searchBit s.cursorPosition s.abuf j (m.bitAt s.cfg (2 * j)) (m.bitAt s.cfg (2 * j + 1))) ∧
      searchSelected a s = (.protocolError, { s.searchFailed with
        busState := .idle
        line := m.after s.cfg (searchFrames s.cfg m out k ++
          [.read (m.slotSamples s.cfg (2 * k)), .read (m.slotSamples s.cfg (2 * k + 1))]) }) := by
  have hw : writeByteSeq s.cfg (searchCommand s.cfg a) s.line = m := by rw [hm, writeByteSeq_eq]
  rcases pairs_cases s.cfg m with hpair | ⟨k, hk, hpair, h1, h2⟩
  · obtain ⟨g, hg, hb, hr⟩ := searchWalk_done s.cfg s.cursorPosition s.abuf m hpair
    exact .inl ⟨g.address, g.mark, hpair, hb, hr, by simp only [searchSelected, hw, hg]⟩
  · obtain ⟨out, ho, hb⟩ := searchWalk_stopped s.cfg s.cursorPosition s.abuf m k hk hpair h1 h2
    exact .inr ⟨k, hk, out, hpair, h1, h2, hb, by simp only [searchSelected, hw, ho]⟩

/-- Everything `RDROM` can do after a successful handshake (R215). -/
theorem rdromSelected_cases (s : State) (m : Line) (hm : m = s.line.after s.cfg (byteSlots s.cfg.cmdReadRom)) :
    ∃ out : DeviceAddress, (∀ i < 64, out.getLsbD i = m.bitAt s.cfg i) ∧
      rdromSelected s =
        if addressValid s.cfg out then
          (.ok, { s with
            rbuf := out, busState := .functionCommand, line := m.after s.cfg (m.readFrames s.cfg 64) })
        else (.checksumError, { s.unspecifyRbuf with
          busState := .idle, line := m.after s.cfg (m.readFrames s.cfg 64) }) := by
  have hw : writeByteSeq s.cfg s.cfg.cmdReadRom s.line = m := by rw [hm, writeByteSeq_eq]
  obtain ⟨hl, hb⟩ := readAddress_spec s.cfg m
  exact ⟨_, hb, by simp only [rdromSelected, hw, hl]⟩

/-- The line after the walk, when the address it finds is known (R101, R183). -/
theorem searchSelected_line (a : Bool) (s : State) (m : Line) (out : DeviceAddress)
    (hm : m = s.line.after s.cfg (byteSlots (searchCommand s.cfg a)))
    (hpair : ∀ j < 64, ¬ (m.bitAt s.cfg (2 * j) = true ∧ m.bitAt s.cfg (2 * j + 1) = true))
    (hout : ∀ j < 64, out.getLsbD j =
      searchBit s.cursorPosition s.abuf j (m.bitAt s.cfg (2 * j)) (m.bitAt s.cfg (2 * j + 1))) :
    (searchSelected a s).2.line = m.after s.cfg (searchFrames s.cfg m out 64) := by
  rcases searchSelected_cases a s m hm with ⟨out', p, -, hb, -, he⟩ | ⟨k, hk, -, -, h1, h2, -⟩
  · have : out' = out := address_ext fun j hj => (hb j hj).trans (hout j hj).symm
    rw [he, this]; split <;> rfl
  · exact absurd ⟨h1, h2⟩ (hpair k hk)

end Sys2Proof.Machine
end

