-- ==== Sys2Proof/Laws/Commands.lean ====
section
/-! SUPPORT. Every command as the run of one body, and everything each shared body can do: the results, the registers
written and the frames put on the line. A proof about all commands starts here. -/

namespace Sys2Proof.Machine

open Sys2Proof

/-- The body of each command. -/
def bodyOf : Instr → State → Result × State
  | .reset => resetBody
  | .wbit v => wbitBody v
  | .rbit => rbitBody
  | .wbyte => wbyteBody
  | .rbyte => rbyteBody
  | .search a => searchBody a
  | .rdrom => rdromBody
  | .matchRom => matchBody
  | .skip => skipBody
  | .rdpwr => rdpwrBody
  | .idlepoll => idlepollBody
  | .crc len => crcBody len
  | .getst => getstBody

/-- Every command is the run of its body. -/
theorem exec_eq (i : Instr) (s : State) : exec i s = .next (runCommand (bodyOf i) s) := by cases i <;> rfl

theorem exec_next {i : Instr} {s t : State} (h : exec i s = .next t) : t = runCommand (bodyOf i) s := by
  rw [exec_eq] at h; exact (Host.Outcome.next.inj h).symm

/-! ## Frames that only write and read -/

/-- A write slot or a read slot: no reset frame. -/
def Slot.IsBit (slot : Slot) : Prop := (∃ v, slot = .write v) ∨ ∃ levels, slot = .read levels

theorem writeSlots_complete (c : Config) (bs : List Bool) : ∀ slot ∈ bs.map Slot.write, slot.Complete c = true := by
  intro slot h; obtain ⟨v, -, rfl⟩ := List.mem_map.mp h; rfl

theorem writeSlots_isBit (bs : List Bool) : ∀ slot ∈ bs.map Slot.write, slot.IsBit := by
  intro slot h; obtain ⟨v, -, rfl⟩ := List.mem_map.mp h; exact .inl ⟨v, rfl⟩

theorem readFrames_isBit (c : Config) (l : Line) (n : Nat) : ∀ slot ∈ l.readFrames c n, slot.IsBit := by
  intro slot h; obtain ⟨k, -, rfl⟩ := List.mem_map.mp h; exact .inr ⟨_, rfl⟩

theorem searchFrames_isBit (c : Config) (l : Line) (out : DeviceAddress) (n : Nat) :
    ∀ slot ∈ searchFrames c l out n, slot.IsBit := by
  intro slot h
  obtain ⟨i, -, hi⟩ := List.mem_flatMap.mp h
  simp only [List.mem_cons, List.not_mem_nil, or_false] at hi
  rcases hi with rfl | rfl | rfl <;> simp [Slot.IsBit]

@[simp] theorem byteSlots_length (x : Byte) : (byteSlots x).length = 8 := by simp [byteSlots]

/-! ## The handshake at the head of a command -/

/-- The handshake writes `STATE` and the line, nothing else (R145). -/
theorem State.resetSeq_kept (s : State) :
    s.resetSeq.2 = { s with busState := s.resetSeq.2.busState, line := s.resetSeq.2.line } := rfl

theorem State.resetSeq_busState (s : State) :
    s.resetSeq.2.busState =
      match s.resetSeq.1 with
      | .success => .romCommand
      | .noPresence | .neverReleased => .idle
      | .stillBusy => .awaitingIdle :=
  resetSeq_state s.cfg s.busState s.ibudget s.line

theorem State.resetSeq_frames (s : State) :
    ∃ slots, (∀ slot ∈ slots, slot.Complete s.cfg = true) ∧ s.resetSeq.2.line = s.line.after s.cfg slots :=
  Sys2Proof.Machine.resetSeq_frames s.cfg s.busState s.ibudget s.line

/-! ## The composite commands -/

/-- Everything the body of `SEARCH` can do before its command byte (R180 to R182): refuse the cursor, fail with the
handshake, or go on. -/
theorem searchBody_cases (a : Bool) (s : State) :
    (cursorLegal s.cursorPosition = false ∧ searchBody a s = (.illegal, s)) ∨
      (cursorLegal s.cursorPosition = true ∧ s.resetSeq.1 ≠ .success ∧
        searchBody a s = (.noDevices, s.resetSeq.2.searchFailed)) ∨
      (cursorLegal s.cursorPosition = true ∧ s.resetSeq.1 = .success ∧ s.resetSeq.2.busState = .romCommand ∧
        searchBody a s = searchSelected a s.resetSeq.2) := by
  by_cases hc : cursorLegal s.cursorPosition = true
  · by_cases h : s.resetSeq.1 = .success
    · exact .inr (.inr ⟨hc, h, by rw [State.resetSeq_busState, h], by simp [searchBody, hc, h]⟩)
    · exact .inr (.inl ⟨hc, h, by simp [searchBody, hc, h]⟩)
  · exact .inl ⟨by simpa using hc, by simp [searchBody, hc]⟩

/-- Everything the body of `RDROM` can do before its command byte (R215). -/
theorem rdromBody_cases (s : State) :
    (s.resetSeq.1 ≠ .success ∧ rdromBody s = (.noDevices, s.resetSeq.2.unspecifyRbuf)) ∨
      (s.resetSeq.1 = .success ∧ s.resetSeq.2.busState = .romCommand ∧ rdromBody s = rdromSelected s.resetSeq.2) := by
  by_cases h : s.resetSeq.1 = .success
  · exact .inr ⟨h, by rw [State.resetSeq_busState, h], by simp [rdromBody, h]⟩
  · exact .inl ⟨h, by simp [rdromBody, h]⟩

/-- What `SEARCH` leaves after a successful handshake, and how many slots it makes (R180, R193): when it ends
`PROTOCOL_ERROR` the number follows from the first bit whose pair reads `(1, 1)`. -/
theorem searchSelected_outcomes (a : Bool) (s : State) :
    ∃ (x : DeviceAddress) (p : Byte) (n : Nat) (slots : List Slot),
      (∀ slot ∈ slots, slot.Complete s.cfg = true ∧ slot.IsBit) ∧
      ((searchSelected a s = (.ok, { s with
            rbuf := x, resPos := p, busState := .functionCommand, line := s.line.after s.cfg slots }) ∧
          addressValid s.cfg x = true ∧ p.toNat ≤ 64 ∧ slots.length = 200) ∨
        (searchSelected a s = (.checksumError, { s with
            rbuf := x, resPos := 0xFF, fresh := n, busState := .idle, line := s.line.after s.cfg slots }) ∧
          slots.length = 200) ∨
        (searchSelected a s = (.protocolError, { s with
            rbuf := x, resPos := 0xFF, fresh := n, busState := .idle, line := s.line.after s.cfg slots }) ∧
          ∃ k < 64, let m := s.line.after s.cfg (byteSlots (searchCommand s.cfg a))
            (∀ j < k, ¬ (m.bitAt s.cfg (2 * j) = true ∧ m.bitAt s.cfg (2 * j + 1) = true)) ∧
            m.bitAt s.cfg (2 * k) = true ∧ m.bitAt s.cfg (2 * k + 1) = true ∧ slots.length = 10 + 3 * k)) := by
  have hbyte : ∀ slot ∈ byteSlots (searchCommand s.cfg a), slot.Complete s.cfg = true ∧ slot.IsBit := fun slot h =>
    ⟨writeSlots_complete s.cfg _ slot h, writeSlots_isBit _ slot h⟩
  have hframes : ∀ m out n, ∀ slot ∈ searchFrames s.cfg m out n, slot.Complete s.cfg = true ∧ slot.IsBit :=
    fun m out n slot h => ⟨searchFrames_complete s.cfg m out n slot h, searchFrames_isBit s.cfg m out n slot h⟩
  obtain ⟨m, hm⟩ : ∃ m, m = s.line.after s.cfg (byteSlots (searchCommand s.cfg a)) := ⟨_, rfl⟩
  rcases searchSelected_cases a s m hm with ⟨out, p, -, -, hp, he⟩ | ⟨k, hk, out, q1, q2, q3, -, he⟩
  · have hall : ∀ slot ∈ byteSlots (searchCommand s.cfg a) ++ searchFrames s.cfg m out 64,
        slot.Complete s.cfg = true ∧ slot.IsBit := fun slot h =>
      (List.mem_append.mp h).elim (hbyte slot) (hframes m out 64 slot)
    have hlen : (byteSlots (searchCommand s.cfg a) ++ searchFrames s.cfg m out 64).length = 200 := by
      simp [searchFrames_length]
    have hline : m.after s.cfg (searchFrames s.cfg m out 64) =
        s.line.after s.cfg (byteSlots (searchCommand s.cfg a) ++ searchFrames s.cfg m out 64) := by
      rw [← Line.after_after, ← hm]
    by_cases hv : addressValid s.cfg out = true
    · refine ⟨out, BitVec.ofNat 8 p, 0, _, hall, .inl ⟨?_, hv, ?_, hlen⟩⟩
      · rw [he, if_pos hv, hline]
      · have := hp.le; simp; omega
    · refine ⟨Config.freeRbuf s.fresh, 0, s.fresh + 1, _, hall, .inr (.inl ⟨?_, hlen⟩)⟩
      rw [he, if_neg hv, hline]; rfl
  · refine ⟨Config.freeRbuf s.fresh, 0, s.fresh + 1, byteSlots (searchCommand s.cfg a) ++ (searchFrames s.cfg m out k ++
      [.read (m.slotSamples s.cfg (2 * k)), .read (m.slotSamples s.cfg (2 * k + 1))]), ?_, .inr (.inr ⟨?_, k, hk, ?_⟩)⟩
    · intro slot h
      rcases List.mem_append.mp h with h | h
      · exact hbyte slot h
      rcases List.mem_append.mp h with h | h
      · exact hframes m out k slot h
      simp only [List.mem_cons, List.not_mem_nil, or_false] at h
      rcases h with rfl | rfl <;> simp [Slot.Complete, Slot.IsBit]
    · rw [he, ← Line.after_after s.cfg s.line, ← hm]; rfl
    · dsimp only
      rw [← hm]
      exact ⟨q1, q2, q3, by simp [searchFrames_length]; omega⟩

/-- What `RDROM` leaves after a successful handshake, and how many slots it makes (R215). -/
theorem rdromSelected_outcomes (s : State) :
    ∃ (x : DeviceAddress) (n : Nat) (slots : List Slot),
      (∀ slot ∈ slots, slot.Complete s.cfg = true ∧ slot.IsBit) ∧ slots.length = 72 ∧
      ((rdromSelected s = (.ok, { s with
            rbuf := x, busState := .functionCommand, line := s.line.after s.cfg slots }) ∧
          addressValid s.cfg x = true) ∨
        rdromSelected s = (.checksumError, { s with
            rbuf := x, fresh := n, busState := .idle, line := s.line.after s.cfg slots })) := by
  obtain ⟨m, hm⟩ : ∃ m, m = s.line.after s.cfg (byteSlots s.cfg.cmdReadRom) := ⟨_, rfl⟩
  obtain ⟨out, -, he⟩ := rdromSelected_cases s m hm
  have hall : ∀ slot ∈ byteSlots s.cfg.cmdReadRom ++ m.readFrames s.cfg 64, slot.Complete s.cfg = true ∧ slot.IsBit :=
    fun slot h => (List.mem_append.mp h).elim
      (fun h => ⟨writeSlots_complete s.cfg _ slot h, writeSlots_isBit _ slot h⟩)
      (fun h => ⟨Line.readFrames_complete s.cfg m 64 slot h, readFrames_isBit s.cfg m 64 slot h⟩)
  have hlen : (byteSlots s.cfg.cmdReadRom ++ m.readFrames s.cfg 64).length = 72 := by simp
  have hline : m.after s.cfg (m.readFrames s.cfg 64) =
      s.line.after s.cfg (byteSlots s.cfg.cmdReadRom ++ m.readFrames s.cfg 64) := by
    rw [← Line.after_after, ← hm]
  by_cases hv : addressValid s.cfg out = true
  · exact ⟨out, 0, _, hall, hlen, .inl ⟨by rw [he, if_pos hv, hline], hv⟩⟩
  · exact ⟨Config.freeRbuf s.fresh, s.fresh + 1, _, hall, hlen, .inr (by rw [he, if_neg hv, hline]; rfl)⟩

/-! ## All bodies: whole frames on the line, the parameters kept -/

/-- Every body appends whole frames to the trace and keeps the parameters. -/
theorem bodyOf_frames (i : Instr) (s : State) :
    ∃ slots, (∀ slot ∈ slots, slot.Complete s.cfg = true) ∧ (bodyOf i s).2.line = s.line.after s.cfg slots ∧
      (bodyOf i s).2.cfg = s.cfg := by
  have hnone : ∀ r : Result × State, r.2.line = s.line → r.2.cfg = s.cfg →
      ∃ slots, (∀ slot ∈ slots, slot.Complete s.cfg = true) ∧ r.2.line = s.line.after s.cfg slots ∧ r.2.cfg = s.cfg :=
    fun r hl hc => ⟨[], by simp, by simp [hl], hc⟩
  obtain ⟨first, hfirst, hreset⟩ := s.resetSeq_frames
  cases i with
  | reset => exact ⟨first, hfirst, hreset, rfl⟩
  | wbit v => exact ⟨[.write v], by simp [Slot.Complete], writeSlot_eq _ _ _, rfl⟩
  | rbit => exact ⟨[.read (s.line.slotSamples s.cfg 0)], by simp [Slot.Complete], by simp [bodyOf, rbitBody, readSlot_eq], rfl⟩
  | wbyte => exact ⟨_, writeSlots_complete s.cfg _, writeByteSeq_eq _ _ _, rfl⟩
  | rbyte =>
    refine ⟨_, Line.readFrames_complete s.cfg s.line 8, ?_, rfl⟩
    have h := (readByteSeq_spec s.cfg s.line 0).1
    simpa [bodyOf, rbyteBody, show s.line.readFrames s.cfg 0 = [] from rfl] using h
  | search a =>
    rcases searchBody_cases a s with ⟨-, h⟩ | ⟨-, -, h⟩ | ⟨-, -, -, h⟩
    · exact hnone _ (by simp [bodyOf, h]) (by simp [bodyOf, h])
    · exact ⟨first, hfirst, by simpa [bodyOf, h] using hreset, by simp [bodyOf, h]; rfl⟩
    · obtain ⟨x, p, n, slots, hs, ho⟩ := searchSelected_outcomes a s.resetSeq.2
      refine ⟨first ++ slots, fun slot hm => (List.mem_append.mp hm).elim (hfirst slot) fun hm => (hs slot hm).1, ?_, ?_⟩
      · rw [← Line.after_after, ← hreset]
        rcases ho with ⟨he, -⟩ | ⟨he, -⟩ | ⟨he, -⟩ <;> (simp only [bodyOf, h, he]; rfl)
      · rcases ho with ⟨he, -⟩ | ⟨he, -⟩ | ⟨he, -⟩ <;> (simp only [bodyOf, h, he]; rfl)
  | rdrom =>
    rcases rdromBody_cases s with ⟨-, h⟩ | ⟨-, -, h⟩
    · exact ⟨first, hfirst, by simpa [bodyOf, h] using hreset, by simp [bodyOf, h]; rfl⟩
    · obtain ⟨x, n, slots, hs, -, ho⟩ := rdromSelected_outcomes s.resetSeq.2
      refine ⟨first ++ slots, fun slot hm => (List.mem_append.mp hm).elim (hfirst slot) fun hm => (hs slot hm).1, ?_, ?_⟩
      · rw [← Line.after_after, ← hreset]
        rcases ho with ⟨he, -⟩ | he <;> (simp only [bodyOf, h, he]; rfl)
      · rcases ho with ⟨he, -⟩ | he <;> (simp only [bodyOf, h, he]; rfl)
  | matchRom =>
    by_cases h : s.busState = .romCommand
    · refine ⟨byteSlots s.cfg.cmdMatchRom ++ addressSlots s.abuf, fun slot hm => ?_, ?_, by simp [bodyOf, matchBody, gated, h]⟩
      · rcases List.mem_append.mp hm with hm | hm
        · exact writeSlots_complete s.cfg _ slot hm
        · obtain ⟨k, -, rfl⟩ := List.mem_map.mp hm; rfl
      · simp [bodyOf, matchBody, gated, h, writeBytes_address, writeByteSeq_eq, Line.after_after]
    · exact hnone _ (by simp [bodyOf, matchBody, gated, h]) (by simp [bodyOf, matchBody, gated, h])
  | skip =>
    by_cases h : s.busState = .romCommand
    · exact ⟨byteSlots s.cfg.cmdSkipRom, writeSlots_complete s.cfg _, by simp [bodyOf, skipBody, gated, h, writeByteSeq_eq],
        by simp [bodyOf, skipBody, gated, h]⟩
    · exact hnone _ (by simp [bodyOf, skipBody, gated, h]) (by simp [bodyOf, skipBody, gated, h])
  | rdpwr =>
    by_cases h : s.busState = .functionCommand
    · refine ⟨byteSlots s.cfg.cmdReadPower ++ [.read (s.line.slotSamples s.cfg 0)], fun slot hm => ?_, ?_,
        by simp [bodyOf, rdpwrBody, gated, h]⟩
      · rcases List.mem_append.mp hm with hm | hm
        · exact writeSlots_complete s.cfg _ slot hm
        · rw [List.mem_singleton.mp hm]; simp [Slot.Complete]
      · simp only [bodyOf, rdpwrBody, gated, h, if_true, writeByteSeq_eq, readSlot_eq, Line.after_after]
        rw [Line.slotSamples_after s.cfg s.line _ 0 0 (by simp) (by simp)]
    · exact hnone _ (by simp [bodyOf, rdpwrBody, gated, h]) (by simp [bodyOf, rdpwrBody, gated, h])
  | idlepoll => exact hnone _ rfl rfl
  | crc len => exact hnone _ (by simp [bodyOf, crcBody]; split <;> rfl) (by simp [bodyOf, crcBody]; split <;> rfl)
  | getst => exact hnone _ rfl rfl

end Sys2Proof.Machine
end

