-- ==== Sys2Proof/Laws/Crc.lean ====
section
/-! SUPPORT. The checksum is linear over exclusive or, and loses nothing when bit 7 of the polynomial is 1
(45_checksum.md R200, R203, R204). -/

namespace Sys2Proof.Machine

open Sys2Proof

/-! ## Linearity -/

theorem crcBit_xor (poly a b : Byte) (x y : Bool) :
    crcBit poly (a ^^^ b) (x ^^ y) = crcBit poly a x ^^^ crcBit poly b y := by
  simp only [crcBit, BitVec.getLsbD_xor, BitVec.ushiftRight_xor_distrib]
  cases a.getLsbD 0 <;> cases b.getLsbD 0 <;> cases x <;> cases y <;> simp <;>
    refine BitVec.eq_of_getLsbD_eq fun i hi => ?_ <;> simp <;>
    cases a.getLsbD (1 + i) <;> cases b.getLsbD (1 + i) <;> cases poly.getLsbD i <;> rfl

theorem crcBits_xor (poly : Byte) (f g : Nat → Bool) (ks : List Nat) (a b : Byte) :
    (ks.map fun k => f k ^^ g k).foldl (crcBit poly) (a ^^^ b) =
      (ks.map f).foldl (crcBit poly) a ^^^ (ks.map g).foldl (crcBit poly) b := by
  induction ks generalizing a b with
  | nil => rfl
  | cons k ks ih => simp only [List.map_cons, List.foldl_cons, crcBit_xor, ih]

/-- One byte of the checksum is linear in the remainder and the data together. -/
theorem crcByte_xor (poly a b x y : Byte) :
    crcByte poly (a ^^^ b) (x ^^^ y) = crcByte poly a x ^^^ crcByte poly b y := by
  have h : bitsOf (x ^^^ y) = (List.range 8).map fun k => x.getLsbD k ^^ y.getLsbD k :=
    List.map_congr_left fun k _ => BitVec.getLsbD_xor
  rw [crcByte, h, crcBits_xor]; rfl

theorem crcBit_shifted (poly : Byte) (x : BitVec 8) (k : Nat) :
    crcBit poly (x.ushiftRight k) (x.getLsbD k) = x.ushiftRight (k + 1) := by
  have h : (x.ushiftRight k).getLsbD 0 = x.getLsbD k := by
    change (x >>> k).getLsbD 0 = _
    simp
  rw [crcBit, h, Bool.xor_self]
  exact (BitVec.shiftRight_add x k 1).symm

/-- A byte equal to the remainder leaves the remainder 0, whatever the polynomial. -/
theorem crcByte_self (poly x : Byte) : crcByte poly x x = 0x00 := by
  have hl : bitsOf x = [x.getLsbD 0, x.getLsbD 1, x.getLsbD 2, x.getLsbD 3, x.getLsbD 4, x.getLsbD 5, x.getLsbD 6,
    x.getLsbD 7] := rfl
  have h0 : crcBit poly x (x.getLsbD 0) = x.ushiftRight 1 := by
    have h := crcBit_shifted poly x 0
    have hx : BitVec.ushiftRight x 0 = x := BitVec.ushiftRight_zero x
    rwa [hx] at h
  rw [crcByte, hl]
  simp only [List.foldl_cons, List.foldl_nil, h0, crcBit_shifted]
  refine BitVec.eq_of_getLsbD_eq fun i hi => ?_
  change (x >>> 8).getLsbD i = _
  simp

/-- The remainder after a byte depends only on the exclusive or of the remainder and the byte. -/
theorem crcByte_eq (poly a x : Byte) : crcByte poly a x = crcByte poly (a ^^^ x) 0x00 := by
  have h := crcByte_xor poly (a ^^^ x) x 0x00 x
  simpa [crcByte_self, BitVec.xor_assoc] using h

/-! ## Nothing is lost when bit 7 of the polynomial is 1 -/

theorem crcBit_zero (poly a : Byte) (hp : poly.getLsbD 7 = true) (h : crcBit poly a false = 0x00) : a = 0x00 := by
  unfold crcBit at h
  cases h0 : a.getLsbD 0 with
  | true =>
    rw [h0] at h
    have h7 : ((a >>> 1) ^^^ poly).getLsbD 7 = true := by simp [hp]
    simp only [Bool.xor_false, if_true] at h
    rw [h] at h7; simp at h7
  | false =>
    rw [h0] at h
    simp only [Bool.xor_false, Bool.false_eq_true, if_false] at h
    refine BitVec.eq_of_getLsbD_eq fun i hi => ?_
    cases i with
    | zero => simpa using h0
    | succ i =>
      have : (a >>> 1).getLsbD i = false := by rw [h]; simp
      simpa [Nat.add_comm] using this

theorem crcBits_zero (poly : Byte) (hp : poly.getLsbD 7 = true) (n : Nat) (a : Byte)
    (h : (List.replicate n false).foldl (crcBit poly) a = 0x00) : a = 0x00 := by
  induction n generalizing a with
  | zero => exact h
  | succ n ih => exact crcBit_zero poly a hp (ih _ h)

/-- A byte leaves the remainder 0 only if it equals the remainder. -/
theorem crcByte_zero (poly a x : Byte) (hp : poly.getLsbD 7 = true) (h : crcByte poly a x = 0x00) : a = x := by
  rw [crcByte_eq] at h
  have hz : a ^^^ x = 0x00 := crcBits_zero poly hp 8 _ h
  exact BitVec.xor_eq_zero_iff.mp hz

theorem crc8_append (seed poly : Byte) (x y : List Byte) : crc8 seed poly (x ++ y) = crc8 (crc8 seed poly x) poly y := by
  simp [crc8]

theorem bytesOf_eight (a : DeviceAddress) : bytesOf a 8 = bytesOf a 7 ++ [byteOf a 7] := by
  simp [bytesOf, List.range_succ]

/-- The checksum of all eight bytes is one more byte after the checksum of the first seven. -/
theorem crc8_eight (seed poly : Byte) (a : DeviceAddress) :
    crc8 seed poly (bytesOf a 8) = crcByte poly (crc8 seed poly (bytesOf a 7)) (byteOf a 7) := by
  rw [bytesOf_eight, crc8_append]; rfl

/-- Two remainders that differ stay different under the same data. -/
theorem crc8_injective (poly : Byte) (hp : poly.getLsbD 7 = true) (data : List Byte) (a b : Byte)
    (h : crc8 a poly data = crc8 b poly data) : a = b := by
  induction data generalizing a b with
  | nil => exact h
  | cons d ds ih =>
    have hd : crcByte poly a d = crcByte poly b d := ih _ _ h
    have hx := crcByte_xor poly a b d d
    rw [hd, BitVec.xor_self, BitVec.xor_self] at hx
    have hz := crcByte_zero poly _ _ hp hx
    exact BitVec.xor_eq_zero_iff.mp hz

end Sys2Proof.Machine
end

