-- ==== Sys2Proof/Laws/Durations.lean ====
section
/-! SUPPORT. How long frames last (00_scope.md R13; 40_bit_transceiver.md R123, R128): every write slot and every whole read slot
takes exactly `T_SLOT` units. -/

namespace Sys2Proof.Machine

open Sys2Proof

theorem durationOf_append (a b : List LineEvent) : durationOf (a ++ b) = durationOf a + durationOf b := by
  simp [durationOf]

/-- The samples of a window are `T_RDS` apart (R125). -/
theorem durationOf_window (c : Config) (levels : List Level) (h : levels ≠ []) :
    durationOf (windowEvents c levels) = (levels.length - 1) * c.tRds ∧
      (windowEvents c levels).length = 2 * levels.length - 1 := by
  match levels with
  | [v] => simp [windowEvents, durationOf, durationOfEvent]
  | v :: w :: rest =>
    obtain ⟨h1, h2⟩ := durationOf_window c (w :: rest) (by simp)
    constructor
    · simp only [windowEvents, durationOf, List.map_cons, List.sum_cons, durationOfEvent] at h1 ⊢
      rw [h1]; simp; ring
    · simp only [windowEvents, List.length_cons] at h2 ⊢; omega

/-- Every bit slot lasts `T_SLOT` units. -/
theorem durationOf_bit {c : Config} (hc : c.Ok) (slot : Slot) (h : slot.Complete c = true) (hb : slot.IsBit) :
    durationOf (slot.events c) = c.tSlot := by
  obtain ⟨⟨-, h2⟩, ⟨h3, h4⟩, h5, h6, h7, h8, h9, -⟩ := hc
  rcases hb with ⟨v, rfl⟩ | ⟨levels, rfl⟩
  · cases v <;> simp [Slot.events, durationOf, durationOfEvent] <;> omega
  · have hl : levels.length = c.nSamples := by simpa [Slot.Complete] using h
    have hne : levels ≠ [] := by rintro rfl; simp at hl; omega
    have hw := (durationOf_window c levels hne).1
    have hprod : c.nSamples * c.tRds = (c.nSamples - 1) * c.tRds + c.tRds := by
      obtain ⟨k, hk⟩ : ∃ k, c.nSamples = k + 1 := ⟨c.nSamples - 1, by omega⟩
      rw [hk]; simp; ring
    simp only [Slot.events, durationOf_append, hw, hl]
    simp [durationOf, durationOfEvent]
    omega

/-- A number of bit slots lasts that number of `T_SLOT` units. -/
theorem durationOf_bits {c : Config} (hc : c.Ok) (slots : List Slot)
    (h : ∀ slot ∈ slots, slot.Complete c = true ∧ slot.IsBit) : durationOf (slotEvents c slots) = slots.length * c.tSlot := by
  induction slots with
  | nil => simp [durationOf]
  | cons slot slots ih =>
    obtain ⟨h1, h2⟩ := h slot (by simp)
    rw [slotEvents_cons, durationOf_append, durationOf_bit hc slot h1 h2, ih fun s hs => h s (by simp [hs])]
    simp; ring

/-- Frames made one after the other add their durations. -/
theorem durationOf_since_after (c : Config) (l : Line) (a b : List Slot) :
    durationOf (l.since ((l.after c a).after c b)) =
      durationOf (l.since (l.after c a)) + durationOf (slotEvents c b) := by
  have h : ∀ slots, l.since (l.after c slots) = slotEvents c slots := fun slots => by simp [Line.since]
  rw [Line.after_after, h, h, slotEvents_append, durationOf_append]

end Sys2Proof.Machine
end

