-- ==== Sys2Proof/Laws/Key.lean ====
section
/-! SUPPORT. The order of addresses by `key` is the order at their first difference (44_rom_search.md R191). -/

namespace Sys2Proof.Machine

open Sys2Proof

/-- The first `n` bits of an address as a number, address bit 0 most significant. -/
def keyPrefix (a : DeviceAddress) : Nat → Nat
  | 0 => 0
  | n + 1 => 2 * keyPrefix a n + (a.getLsbD n).toNat

theorem keyPrefix_eq_sum (a : DeviceAddress) (n : Nat) :
    keyPrefix a n = ((List.range n).map fun i => (a.getLsbD i).toNat * 2 ^ (n - 1 - i)).sum := by
  induction n with
  | zero => rfl
  | succ n ih =>
    have h : ((List.range n).map fun i => (a.getLsbD i).toNat * 2 ^ (n + 1 - 1 - i)) =
        (List.range n).map fun i => 2 * ((a.getLsbD i).toNat * 2 ^ (n - 1 - i)) := by
      refine List.map_congr_left fun i hi => ?_
      have hi := List.mem_range.mp hi
      rw [show n + 1 - 1 - i = (n - 1 - i) + 1 by omega, Nat.pow_succ]; ring
    rw [keyPrefix, ih, List.range_succ, List.map_append, List.sum_append, h, List.sum_map_mul_left]
    simp

theorem addressKey_eq (a : DeviceAddress) : addressKey a = keyPrefix a 64 := (keyPrefix_eq_sum a 64).symm

theorem keyPrefix_congr (a b : DeviceAddress) (n : Nat) (h : ∀ i < n, a.getLsbD i = b.getLsbD i) :
    keyPrefix a n = keyPrefix b n := by
  induction n with
  | zero => rfl
  | succ n ih => rw [keyPrefix, keyPrefix, ih fun i hi => h i (by omega), h n (by omega)]

theorem keyPrefix_lt (a b : DeviceAddress) (n m : Nat) (hn : n < m) (h : ∀ i < n, a.getLsbD i = b.getLsbD i)
    (ha : a.getLsbD n = false) (hb : b.getLsbD n = true) : keyPrefix a m < keyPrefix b m := by
  induction m with
  | zero => omega
  | succ m ih =>
    rcases Nat.lt_or_ge n m with hm | hm
    · have hlt := ih hm
      have hbit := Bool.toNat_le (a.getLsbD m)
      rw [keyPrefix, keyPrefix]; omega
    · obtain rfl : n = m := by omega
      rw [keyPrefix, keyPrefix, keyPrefix_congr a b n h, ha, hb]; simp

/-- At the first difference the address with the 0 has the smaller key. -/
theorem addressKey_lt {a b : DeviceAddress} {n : Nat} (hn : n < 64) (h : ∀ i < n, a.getLsbD i = b.getLsbD i)
    (ha : a.getLsbD n = false) (hb : b.getLsbD n = true) : addressKey a < addressKey b := by
  rw [addressKey_eq, addressKey_eq]; exact keyPrefix_lt a b n 64 hn h ha hb

/-- Two addresses are equal, or there is a lowest bit where they differ. -/
theorem eq_or_firstDifference (a b : DeviceAddress) : a = b ∨ ∃ n, FirstDifference a b n := by
  by_cases h : ∃ n, n < 64 ∧ a.getLsbD n ≠ b.getLsbD n
  · classical
    refine .inr ⟨Nat.find h, (Nat.find_spec h).1, (Nat.find_spec h).2, fun i hi => ?_⟩
    by_contra hne
    exact Nat.find_min h hi ⟨Nat.lt_trans hi (Nat.find_spec h).1, hne⟩
  · push Not at h
    exact .inl (address_ext h)

/-- The order of keys, read at the first difference. -/
theorem addressKey_lt_cases {a b : DeviceAddress} (h : addressKey a < addressKey b) :
    ∃ n, FirstDifference a b n ∧ a.getLsbD n = false ∧ b.getLsbD n = true := by
  rcases eq_or_firstDifference a b with rfl | ⟨n, hn, hd, hz⟩
  · omega
  · refine ⟨n, ⟨hn, hd, hz⟩, ?_⟩
    cases ha : a.getLsbD n <;> cases hb : b.getLsbD n
    · rw [ha, hb] at hd; exact absurd rfl hd
    · exact ⟨rfl, rfl⟩
    · have := addressKey_lt hn (fun i hi => (hz i hi).symm) hb ha; omega
    · rw [ha, hb] at hd; exact absurd rfl hd

/-- Different addresses have different keys (R191). -/
theorem addressKey_inj {a b : DeviceAddress} (h : addressKey a = addressKey b) : a = b := by
  rcases eq_or_firstDifference a b with rfl | ⟨n, hn, hd, hz⟩
  · rfl
  · cases ha : a.getLsbD n <;> cases hb : b.getLsbD n
    · rw [ha, hb] at hd; exact absurd rfl hd
    · have := addressKey_lt hn hz ha hb; omega
    · have := addressKey_lt hn (fun i hi => (hz i hi).symm) hb ha; omega
    · rw [ha, hb] at hd; exact absurd rfl hd

/-- Some address follows `a` if some address has a greater key. -/
theorem exists_nextInKey (addresses : List DeviceAddress) (a x : DeviceAddress) (hx : x ∈ addresses)
    (hlt : addressKey a < addressKey x) : ∃ b, NextInKey addresses a b := by
  classical
  have hex : ∃ k, ∃ y ∈ addresses, addressKey a < addressKey y ∧ addressKey y = k := ⟨_, x, hx, hlt, rfl⟩
  obtain ⟨y, hy, hay, hk⟩ := Nat.find_spec hex
  refine ⟨y, hy, hay, fun z hz haz => ?_⟩
  rw [hk]
  exact Nat.find_min' hex ⟨z, hz, haz, rfl⟩

end Sys2Proof.Machine
end

