-- ==== Sys2Proof/Laws/Enumeration.lean ====
section
/-! SUPPORT. The ROM search over a set of addresses: when the pairs read are those of the addresses that still take part,
the address found is one of them and the position is the one of R189, R191, R192. Nothing here speaks of slaves or slots. -/

namespace Sys2Proof.Machine

open Sys2Proof

/-- Two addresses agree on their first `n` bits. -/
def Agree (a b : DeviceAddress) (n : Nat) : Prop := ∀ j < n, a.getLsbD j = b.getLsbD j

/-- The pairs read at the first `n` bits are those of the addresses that agree with `out` so far (R81): the first slot of a
pair is low if one of them has a 0 there, the second if one has a 1. -/
def PairsRead (addresses : List DeviceAddress) (c : Config) (m : Line) (out : DeviceAddress) (n : Nat) : Prop :=
  ∀ i < n,
    (m.bitAt c (2 * i) = false ↔ ∃ x ∈ addresses, Agree x out i ∧ x.getLsbD i = false) ∧
    (m.bitAt c (2 * i + 1) = false ↔ ∃ x ∈ addresses, Agree x out i ∧ x.getLsbD i = true)

/-- Every bit of `out` below `n` is the one R184 and R186 give. -/
def BitsChosen (last : Int) (cursor : DeviceAddress) (c : Config) (m : Line) (out : DeviceAddress) (n : Nat) : Prop :=
  ∀ i < n, out.getLsbD i = searchBit last cursor i (m.bitAt c (2 * i)) (m.bitAt c (2 * i + 1))

theorem Agree.succ {a b : DeviceAddress} {n : Nat} (h : Agree a b n) (hn : a.getLsbD n = b.getLsbD n) :
    Agree a b (n + 1) := by
  intro j hj
  rcases Nat.lt_succ_iff_lt_or_eq.mp hj with hj | rfl
  · exact h j hj
  · exact hn

theorem Agree.eq {a b : DeviceAddress} (h : Agree a b 64) : a = b := address_ext h

variable {addresses : List DeviceAddress} {c : Config} {m : Line} {out cursor : DeviceAddress} {last : Int} {n : Nat}

/-- At a bit where every address that takes part has the same value, that value is chosen. -/
theorem searchBit_single (i : Nat) (b nb v : Bool) (h0 : b = false ↔ v = false) (h1 : nb = false ↔ v = true) :
    searchBit last cursor i b nb = v := by
  cases v <;> simp_all [searchBit]

/-- While some address takes part, one still takes part after the chosen bit (R185 does not occur). -/
theorem some_agrees (hp : PairsRead addresses c m out n) (hb : BitsChosen last cursor c m out n)
    (hne : addresses ≠ []) : ∃ x ∈ addresses, Agree x out n := by
  induction n with
  | zero => obtain ⟨x, hx⟩ := List.exists_mem_of_ne_nil _ hne; exact ⟨x, hx, fun j hj => by omega⟩
  | succ n ih =>
    obtain ⟨x, hx, ha⟩ := ih (fun i hi => hp i (by omega)) (fun i hi => hb i (by omega))
    obtain ⟨h0, h1⟩ := hp n (by omega)
    have hout := hb n (by omega)
    cases hd : m.bitAt c (2 * n) with
    | false =>
      obtain ⟨y, hy, hay, hyn⟩ := h0.mp hd
      cases hc : m.bitAt c (2 * n + 1) with
      | false =>
        obtain ⟨z, hz, haz, hzn⟩ := h1.mp hc
        cases ho : out.getLsbD n with
        | false => exact ⟨y, hy, hay.succ (by rw [hyn, ho])⟩
        | true => exact ⟨z, hz, haz.succ (by rw [hzn, ho])⟩
      | true =>
        rw [hd, hc] at hout
        exact ⟨y, hy, hay.succ (by rw [hyn, hout]; simp [searchBit])⟩
    | true =>
      rw [hd] at hout
      have hxn : x.getLsbD n = true := by
        by_contra h
        rw [h0.mpr ⟨x, hx, ha, by simpa using h⟩] at hd; simp at hd
      exact ⟨x, hx, ha.succ (by rw [hxn, hout]; simp [searchBit])⟩

/-- No pair reads `(1, 1)` while an address takes part. -/
theorem pair_not_ones (hp : PairsRead addresses c m out (n + 1)) (hb : BitsChosen last cursor c m out n)
    (hne : addresses ≠ []) : ¬ (m.bitAt c (2 * n) = true ∧ m.bitAt c (2 * n + 1) = true) := by
  rintro ⟨h0, h1⟩
  obtain ⟨x, hx, ha⟩ := some_agrees (fun i hi => hp i (by omega)) hb hne
  obtain ⟨p0, p1⟩ := hp n (by omega)
  cases hv : x.getLsbD n with
  | false => rw [p0.mpr ⟨x, hx, ha, hv⟩] at h0; simp at h0
  | true => rw [p1.mpr ⟨x, hx, ha, hv⟩] at h1; simp at h1

/-- With no address taking part every pair reads `(1, 1)`. -/
theorem pair_ones_of_none (hp : PairsRead [] c m out 1) : m.bitAt c 0 = true ∧ m.bitAt c 1 = true := by
  obtain ⟨p0, p1⟩ := hp 0 (by omega)
  constructor
  · by_contra h; have := p0.mp (by simpa using h); simp at this
  · by_contra h; have := p1.mp (by simpa using h); simp at this

/-- The address found is one of those that take part (R188). -/
theorem found_mem (hp : PairsRead addresses c m out 64) (hb : BitsChosen last cursor c m out 64)
    (hne : addresses ≠ []) : out ∈ addresses := by
  obtain ⟨x, hx, ha⟩ := some_agrees hp hb hne
  rwa [← ha.eq]

/-- A conflict at which 0 was taken, said of the addresses. -/
theorem unexplored_iff (hp : PairsRead addresses c m out 64) (hm : out ∈ addresses) (i : Nat) (hi : i < 64) :
    unexplored c m out i = true ↔ out.getLsbD i = false ∧ ∃ x ∈ addresses, Agree x out i ∧ x.getLsbD i = true := by
  obtain ⟨p0, p1⟩ := hp i hi
  simp only [unexplored, Bool.and_eq_true, Bool.not_eq_true', p0, p1]
  constructor
  · rintro ⟨⟨-, h⟩, ho⟩; exact ⟨ho, h⟩
  · rintro ⟨ho, h⟩; exact ⟨⟨⟨out, hm, fun _ _ => rfl, ho⟩, h⟩, ho⟩

/-- The recorded position is the one where the following address differs first, or 64 (R189, R192). -/
theorem recorded_returned (hp : PairsRead addresses c m out 64) (hm : out ∈ addresses) {p : Nat}
    (hr : RecordedPosition c m out p) : ReturnedPosition addresses out p := by
  have above : ∀ x ∈ addresses, addressKey out < addressKey x →
      ∃ n, FirstDifference out x n ∧ x.getLsbD n = true ∧ unexplored c m out n = true := by
    intro x hx hlt
    obtain ⟨n, hd, ho, hxn⟩ := addressKey_lt_cases hlt
    exact ⟨n, hd, hxn, (unexplored_iff hp hm n hd.1).mpr ⟨ho, x, hx, fun j hj => (hd.2.2 j hj).symm, hxn⟩⟩
  rcases hr with ⟨hp64, hu, hz⟩ | ⟨rfl, hz⟩
  · obtain ⟨ho, x, hx, hax, hxp⟩ := (unexplored_iff hp hm p hp64).mp hu
    have hlt : addressKey out < addressKey x := addressKey_lt hp64 (fun i hi => (hax i hi).symm) ho hxp
    obtain ⟨b, hb⟩ := exists_nextInKey addresses out x hx hlt
    obtain ⟨n, hd, hbn, hun⟩ := above b hb.1 hb.2.1
    have hnp : n ≤ p := by
      by_contra h
      rw [hz n (by omega) hd.1] at hun; simp at hun
    have hpn : n = p := by
      by_contra h
      have hon : out.getLsbD n = false := ((unexplored_iff hp hm n hd.1).mp hun).1
      have hlt' : addressKey x < addressKey b :=
        addressKey_lt hd.1 (fun i hi => (hax i (by omega)).trans (hd.2.2 i hi)) (by rw [hax n (by omega), hon]) hbn
      have := hb.2.2 x hx hlt
      omega
    exact .inr ⟨b, hb, hpn ▸ hd⟩
  · refine .inl ⟨rfl, fun x hx => ?_⟩
    by_contra h
    obtain ⟨n, hd, -, hun⟩ := above x hx (by omega)
    rw [hz n hd.1] at hun; simp at hun

/-- A fresh search finds the address of least key (R191, R192): at every conflict it takes 0. -/
theorem fresh_least (hp : PairsRead addresses c m out 64) (hb : BitsChosen (-1) cursor c m out 64)
    (hm : out ∈ addresses) : ∀ x ∈ addresses, addressKey out ≤ addressKey x := by
  intro x hx
  rcases eq_or_firstDifference out x with rfl | ⟨n, hn, hd, hz⟩
  · exact le_rfl
  · cases ho : out.getLsbD n with
    | false =>
      have hxn : x.getLsbD n = true := by rw [ho] at hd; simpa using hd.symm
      exact Nat.le_of_lt (addressKey_lt hn hz ho hxn)
    | true =>
      have hxn : x.getLsbD n = false := by rw [ho] at hd; simpa using hd.symm
      obtain ⟨p0, p1⟩ := hp n hn
      have h0 := p0.mpr ⟨x, hx, fun j hj => (hz j hj).symm, hxn⟩
      have h1 := p1.mpr ⟨out, hm, fun _ _ => rfl, ho⟩
      have hbit := hb n hn
      rw [h0, h1, ho] at hbit
      simp only [searchBit] at hbit
      rw [if_pos ⟨trivial, trivial⟩, if_neg (by omega), if_pos (by omega)] at hbit
      simp at hbit

/-- A search whose cursor is an address and the bit where the following address differs first finds that following address
(R184, R189, R191); the cursor's address need not be present. -/
theorem next_found (hp : PairsRead addresses c m out 64) {q : Nat} (hb : BitsChosen q cursor c m out 64)
    {b : DeviceAddress} (hnext : NextInKey addresses cursor b)
    (hq : FirstDifference cursor b q) : out = b := by
  have hcq : cursor.getLsbD q = false ∧ b.getLsbD q = true := by
    obtain ⟨n, hd, h0, h1⟩ := addressKey_lt_cases hnext.2.1
    rcases Nat.lt_trichotomy n q with h | h | h
    · exact absurd (hq.2.2 n h) hd.2.1
    · exact h ▸ ⟨h0, h1⟩
    · exact absurd (hd.2.2 q h) hq.2.1
  have key : ∀ n ≤ 64, Agree out b n := by
    intro n
    induction n with
    | zero => intro _ j hj; omega
    | succ i ih =>
      intro hi
      have ha : Agree out b i := ih (by omega)
      obtain ⟨p0, p1⟩ := hp i (by omega)
      refine ha.succ ?_
      rw [hb i (by omega)]
      by_cases hconf : m.bitAt c (2 * i) = false ∧ m.bitAt c (2 * i + 1) = false
      · obtain ⟨y, hy, hay, hyi⟩ := p0.mp hconf.1
        simp only [searchBit, hconf]
        rw [if_pos ⟨trivial, trivial⟩]
        rcases Nat.lt_trichotomy i q with h | h | h
        · rw [if_neg (by omega), if_neg (by omega)]; exact hq.2.2 i h
        · rw [if_pos (by omega), h, hcq.2]
        · rw [if_neg (by omega), if_pos (by omega)]
          cases hbi : b.getLsbD i with
          | false => rfl
          | true =>
            exfalso
            have hyb : ∀ j < i, y.getLsbD j = b.getLsbD j := fun j hj => (hay j hj).trans (ha j hj)
            have h1 : addressKey y < addressKey b := addressKey_lt (by omega) hyb hyi hbi
            have h2 : addressKey cursor < addressKey y :=
              addressKey_lt hq.1 (fun j hj => (hq.2.2 j hj).trans (hyb j (by omega)).symm) hcq.1
                (by rw [hyb q h, hcq.2])
            have := hnext.2.2 y hy h2
            omega
      · have hbo : ∀ j < i, b.getLsbD j = out.getLsbD j := fun j hj => (ha j hj).symm
        cases hbi : b.getLsbD i with
        | false =>
          have h0 := p0.mpr ⟨b, hnext.1, hbo, hbi⟩
          have h1 : m.bitAt c (2 * i + 1) = true := by
            by_contra h; exact hconf ⟨h0, by simpa using h⟩
          simp [searchBit, h0, h1]
        | true =>
          have h1 := p1.mpr ⟨b, hnext.1, hbo, hbi⟩
          have h0 : m.bitAt c (2 * i) = true := by
            by_contra h; exact hconf ⟨by simpa using h, h1⟩
          simp [searchBit, h0]
  exact (key 64 le_rfl).eq

end Sys2Proof.Machine
end

