-- ==== Sys2Proof/Laws/Good.lean ====
section
/-! SUPPORT. The good handshake of Safety.lean is the one that `ResetSeq()` ends in success with (42_reset_presence.md R150,
R156). -/

namespace Sys2Proof.Machine

open Sys2Proof

/-- The next reset pulse succeeds exactly if both polls answer within their bounds (R150, R153, R154). -/
theorem Line.nextHandshake_success (c : Config) (l : Line) (u1 u2 : Nat) :
    l.nextHandshake c = .success u1 u2 ↔
      l.pollAt 0 = some u1 ∧ u1 ≤ c.tPdh ∧ l.pollAt 1 = some u2 ∧ u2 ≤ c.tPdl := by
  constructor
  · intro h
    unfold Line.nextHandshake at h
    split at h
    · simp at h
    · rename_i v1 h1
      split at h
      · simp at h
      · rename_i v2 h2
        simp only [Handshake.success.injEq] at h
        obtain ⟨rfl, rfl⟩ := h
        exact ⟨(pollAnswer_hit h1).1, (pollAnswer_hit h1).2, (pollAnswer_hit h2).1, (pollAnswer_hit h2).2⟩
  · rintro ⟨h1, h1', h2, h2'⟩
    simp [Line.nextHandshake, h1, h2, pollAnswer_some, h1', h2']

theorem Handshake.outcome_success {h : Handshake} (hs : h.outcome = .success) : ∃ u1 u2, h = .success u1 u2 := by
  cases h <;> simp_all [Handshake.outcome]

/-- The handshake is good exactly if `ResetSeq()` ends in success, and `r` is the line it leaves. -/
theorem State.goodHandshake_iff (s : State) (r : Line) :
    s.GoodHandshake r ↔ s.resetSeq.1 = .success ∧ s.resetSeq.2.line = r := by
  constructor
  · rintro ⟨polled, u1, u2, hpolled, h1, h1', h2, h2', rfl⟩
    have hn := (Line.nextHandshake_success s.cfg (s.line.after s.cfg polled) u1 u2).mpr ⟨h1, h1', h2, h2'⟩
    rcases hpolled with ⟨hb, rfl⟩ | ⟨hb, k, hk, hz, ho, rfl⟩
    · rw [Line.after_nil] at hn ⊢
      simp [State.resetSeq, Sys2Proof.Machine.resetSeq, hb, resetPulse_eq, hn, Handshake.outcome]
    · simp [State.resetSeq, Sys2Proof.Machine.resetSeq, hb, pollIdle_released _ _ _ _ hk hz ho, resetPulse_eq, hn,
        Handshake.outcome]
  · rintro ⟨hs, rfl⟩
    rcases resetSeq_cases s.cfg s.busState s.ibudget s.line with ⟨hb, he⟩ | ⟨hb, k, hk, hz, ho, he⟩ | ⟨-, -, he⟩
    · have h : (Sys2Proof.Machine.resetSeq s.cfg s.busState s.ibudget s.line).1 = .success := hs
      rw [he] at h
      obtain ⟨u1, u2, hn⟩ := Handshake.outcome_success h
      obtain ⟨h1, h1', h2, h2'⟩ := (Line.nextHandshake_success _ _ _ _).mp hn
      refine ⟨[], u1, u2, .inl ⟨hb, rfl⟩, by simpa using h1, h1', by simpa using h2, h2', ?_⟩
      simp only [State.resetSeq, he, hn, Line.after_nil]
    · have h : (Sys2Proof.Machine.resetSeq s.cfg s.busState s.ibudget s.line).1 = .success := hs
      rw [he] at h
      obtain ⟨u1, u2, hn⟩ := Handshake.outcome_success h
      obtain ⟨h1, h1', h2, h2'⟩ := (Line.nextHandshake_success _ _ _ _).mp hn
      refine ⟨_, u1, u2, .inr ⟨hb, k, hk, hz, ho, rfl⟩, h1, h1', h2, h2', ?_⟩
      simp only [State.resetSeq, he, hn]
    · have h : (Sys2Proof.Machine.resetSeq s.cfg s.busState s.ibudget s.line).1 = .success := hs
      rw [he] at h; simp at h

/-- What the handshake does once its idle poll, if there is one, has not failed (R150, R156): one reset frame after the
idle-check reads. -/
theorem State.resetSeq_of_idleReads {s : State} {n : Nat} (h : s.IdleReads n) :
    let m := s.line.after s.cfg (s.line.readFrames s.cfg n)
    s.resetSeq.1 = (m.nextHandshake s.cfg).outcome ∧
      s.resetSeq.2.line = s.line.after s.cfg (s.line.readFrames s.cfg n ++ [.reset (m.nextHandshake s.cfg)]) := by
  rcases h with ⟨hb, rfl⟩ | ⟨hb, k, hk, rfl, hz, ho⟩
  · have h0 : s.line.readFrames s.cfg 0 = [] := rfl
    simp [State.resetSeq, Sys2Proof.Machine.resetSeq, hb, resetPulse_eq, h0]
  · simp [State.resetSeq, Sys2Proof.Machine.resetSeq, hb, pollIdle_released _ _ _ _ hk hz ho, resetPulse_eq,
      Line.after_after]

/-- The handshake spends its whole budget, or a number of idle-check reads and then a reset frame (R150, R156). -/
theorem State.idleReads_or_stillBusy (s : State) : (∃ n, s.IdleReads n) ∨ s.resetSeq.1 = .stillBusy := by
  rcases resetSeq_cases s.cfg s.busState s.ibudget s.line with ⟨hb, -⟩ | ⟨hb, k, hk, hz, ho, -⟩ | ⟨-, -, he⟩
  · exact .inl ⟨0, .inl ⟨hb, rfl⟩⟩
  · exact .inl ⟨k + 1, .inr ⟨hb, k, hk, rfl, hz, ho⟩⟩
  · exact .inr (by rw [State.resetSeq, he])

end Sys2Proof.Machine
end

