-- ==== Sys2Proof/Laws/Unique.lean ====
section
/-! SUPPORT. The trace says which frames it is made of: two sequences of whole frames with the same primitives are the same
frames (30_encoding.md R95 to R98). -/

namespace Sys2Proof.Machine

open Sys2Proof

/-- The rest of a trace after whole frames: nothing, or a frame that begins by driving the line low. -/
def FrameStart (events : List LineEvent) : Prop := events = [] ∨ ∃ more, events = .assertLow :: more

theorem Slot.events_head (c : Config) (slot : Slot) : ∃ more, slot.events c = .assertLow :: more := by
  cases slot with
  | write v => cases v <;> exact ⟨_, rfl⟩
  | read levels => exact ⟨_, rfl⟩
  | reset h => exact ⟨_, rfl⟩

theorem slotEvents_start (c : Config) (slots : List Slot) : FrameStart (slotEvents c slots) := by
  cases slots with
  | nil => exact .inl rfl
  | cons slot slots =>
    obtain ⟨more, h⟩ := slot.events_head c
    exact .inr ⟨more ++ slotEvents c slots, by rw [slotEvents_cons, h]; rfl⟩

/-- Windows of the same number of samples are told apart by their primitives. -/
theorem windowEvents_inj (c : Config) (a b : List Level) (x y : List LineEvent) (hl : a.length = b.length)
    (h : windowEvents c a ++ x = windowEvents c b ++ y) : a = b ∧ x = y := by
  induction a generalizing b with
  | nil => cases b <;> simp_all [windowEvents]
  | cons v a ih =>
    cases b with
    | nil => simp at hl
    | cons w b =>
      have hl' : a.length = b.length := by simpa using hl
      cases a with
      | nil =>
        have : b = [] := List.eq_nil_of_length_eq_zero hl'.symm
        subst this
        simpa [windowEvents] using h
      | cons v' a =>
        cases b with
        | nil => simp at hl'
        | cons w' b =>
          simp only [windowEvents, List.cons_append, List.cons.injEq, true_and] at h
          obtain ⟨he, hx⟩ := ih (w' :: b) hl' h.2
          exact ⟨by rw [he]; simpa using h.1, hx⟩

theorem windowEvents_head (c : Config) (levels : List Level) (h : 0 < levels.length) :
    ∃ v more, windowEvents c levels = .sample v :: more := by
  match levels with
  | [v] => exact ⟨v, [], rfl⟩
  | v :: w :: rest => exact ⟨v, _, rfl⟩

theorem Handshake.events_head (c : Config) (h : Handshake) :
    ∃ answer more, h.events c = .poll .low c.tPdh answer :: more := by
  cases h <;> exact ⟨_, _, rfl⟩

theorem Handshake.events_inj (c : Config) (a b : Handshake) (x y : List LineEvent)
    (h : a.events c ++ x = b.events c ++ y) : a = b ∧ x = y := by
  cases a <;> cases b <;> simp_all [Handshake.events]

/-- The first frame of a trace, and what follows it, are determined. -/
theorem Slot.events_inj {c : Config} (hc : c.Ok) (a b : Slot) (x y : List LineEvent) (ha : a.Complete c = true)
    (hb : b.Complete c = true) (hx : FrameStart x) (hy : FrameStart y) (h : a.events c ++ x = b.events c ++ y) :
    a = b ∧ x = y := by
  have hw : c.tW1L ≠ c.tW0L := by have := hc.2.1.1; omega
  have hn : 1 ≤ c.nSamples := hc.2.2.2.1
  have hread : ∀ levels : List Level, (Slot.read levels).Complete c = true →
      levels.length = c.nSamples ∧ ∃ v more, windowEvents c levels = .sample v :: more := by
    intro levels hl
    have hl : levels.length = c.nSamples := by simpa [Slot.Complete] using hl
    exact ⟨hl, windowEvents_head c levels (by omega)⟩
  cases a with
  | write v =>
    cases b with
    | write w =>
      cases v <;> cases w <;> simp only [Slot.events, List.cons_append, List.nil_append, List.cons.injEq, true_and,
        LineEvent.delay.injEq] at h
      · exact ⟨rfl, h⟩
      · exact absurd h.1.symm hw
      · exact absurd h.1 hw
      · exact ⟨rfl, h⟩
    | read levels =>
      obtain ⟨-, u, more, hm⟩ := hread levels hb
      exfalso
      rcases hx with rfl | ⟨m, rfl⟩ <;> cases v <;> simp [Slot.events, hm] at h
    | reset k =>
      obtain ⟨u, more, hm⟩ := k.events_head c
      cases v <;> simp [Slot.events, hm] at h
  | read levels =>
    obtain ⟨hl, u, more, hm⟩ := hread levels ha
    cases b with
    | write w =>
      exfalso
      rcases hy with rfl | ⟨m, rfl⟩ <;> cases w <;> simp [Slot.events, hm] at h
    | read levels' =>
      obtain ⟨hl', -⟩ := hread levels' hb
      simp only [Slot.events, List.cons_append, List.nil_append, List.append_assoc, List.cons.injEq, true_and] at h
      obtain ⟨he, hr⟩ := windowEvents_inj c levels levels' _ _ (hl.trans hl'.symm) h
      exact ⟨by rw [he], by simpa using hr⟩
    | reset k =>
      obtain ⟨v, more', hm'⟩ := k.events_head c
      simp [Slot.events, hm'] at h
  | reset k =>
    obtain ⟨v, more, hm⟩ := k.events_head c
    cases b with
    | write w => cases w <;> simp [Slot.events, hm] at h
    | read levels => simp [Slot.events, hm] at h
    | reset k' =>
      simp only [Slot.events, List.cons_append, List.nil_append, List.cons.injEq, true_and] at h
      obtain ⟨he, hr⟩ := Handshake.events_inj c k k' x y h
      exact ⟨by rw [he], hr⟩

theorem Slot.events_ne_nil (c : Config) (slot : Slot) : slot.events c ≠ [] := by
  obtain ⟨more, h⟩ := slot.events_head c
  rw [h]; simp

/-- Whole frames with the same primitives are the same frames. -/
theorem slotEvents_inj {c : Config} (hc : c.Ok) (a b : List Slot) (ha : ∀ slot ∈ a, slot.Complete c = true)
    (hb : ∀ slot ∈ b, slot.Complete c = true) (h : slotEvents c a = slotEvents c b) : a = b := by
  induction a generalizing b with
  | nil =>
    cases b with
    | nil => rfl
    | cons slot b => rw [slotEvents_cons] at h; simp [slotEvents, Slot.events_ne_nil] at h
  | cons slot a ih =>
    cases b with
    | nil => rw [slotEvents_cons] at h; simp [slotEvents, Slot.events_ne_nil] at h
    | cons slot' b =>
      rw [slotEvents_cons, slotEvents_cons] at h
      obtain ⟨he, hr⟩ := Slot.events_inj hc slot slot' _ _ (ha slot (by simp)) (hb slot' (by simp))
        (slotEvents_start c a) (slotEvents_start c b) h
      rw [he, ih b (fun s hs => ha s (by simp [hs])) (fun s hs => hb s (by simp [hs])) hr]

/-- The frames a command has put on the line, read off the trace between its two ends. -/
theorem Line.since_after (c : Config) (l : Line) (slots : List Slot) : l.since (l.after c slots) = slotEvents c slots := by
  simp [Line.since]

end Sys2Proof.Machine
end

