-- ==== Sys2Proof/Laws/Environment.lean ====
section
/-! SUPPORT. The reference environment frame by frame (20_memory.md R77 to R86): what a run of frames does to the slaves, and
that in a search the pairs read are those of the addresses that still take part. -/

namespace Sys2Proof.Machine

open Sys2Proof

/-! ## Runs of frames -/

theorem Bus.run_append (c : Config) (a b : List Slot) (bus : Bus) :
    Bus.run c (a ++ b) bus = (Bus.run c a bus).bind (Bus.run c b) := by
  induction a generalizing bus with
  | nil => rfl
  | cons slot a ih =>
    simp only [List.cons_append, Bus.run]
    cases bus.take c slot with
    | none => rfl
    | some next => exact ih next

theorem Bus.run_append_some {c : Config} {a b : List Slot} {bus after : Bus} (h : Bus.run c (a ++ b) bus = some after) :
    ∃ mid, Bus.run c a bus = some mid ∧ Bus.run c b mid = some after := by
  rw [Bus.run_append] at h
  cases hm : Bus.run c a bus with
  | none => rw [hm] at h; simp at h
  | some mid => rw [hm] at h; exact ⟨mid, rfl, by simpa using h⟩

/-- The environment that answers a trace of known whole frames is the run over those frames. -/
theorem Bus.answers_run {c : Config} (hc : c.Ok) {slots : List Slot} (hs : ∀ slot ∈ slots, slot.Complete c = true)
    {bus after : Bus} (h : bus.Answers c (slotEvents c slots) after) : Bus.run c slots bus = some after := by
  obtain ⟨slots', hs', he, hr⟩ := h
  rwa [slotEvents_inj hc slots slots' hs hs' he]

/-! ## What no frame changes: who the slaves are -/

/-- The part of a slave that no frame changes. -/
def Slave.identity (v : Slave) : DeviceAddress × Bool × Bool := (v.rom, v.alarm, v.parasite)

theorem Slave.romCommand_identity (c : Config) (v : Slave) (x : Byte) : (v.romCommand c x).identity = v.identity := by
  unfold Slave.romCommand; repeat' split
  all_goals rfl

theorem Slave.afterWrite_identity (c : Config) (b : Bool) (v : Slave) : (v.afterWrite c b).identity = v.identity := by
  unfold Slave.afterWrite
  split
  · split
    · split
      · exact Slave.romCommand_identity c v _
      · rfl
    · split <;> rfl
    · split <;> rfl
    · split <;> rfl
    · rfl
  · rfl

theorem Slave.afterRead_identity (v : Slave) : v.afterRead.identity = v.identity := by
  unfold Slave.afterRead
  split
  · split <;> rfl
  · rfl

theorem Slave.afterReset_eq {v w : Slave} (h : v.identity = w.identity) : v.afterReset = w.afterReset := by
  cases v; cases w; simp_all [Slave.identity, Slave.afterReset]

theorem Bus.take_identities {c : Config} {slot : Slot} {bus next : Bus} (h : bus.take c slot = some next) :
    next.slaves.map Slave.identity = bus.slaves.map Slave.identity := by
  cases slot with
  | write b => cases h; simp [Function.comp_def, Slave.afterWrite_identity]
  | read samples =>
    simp only [Bus.take] at h
    split at h
    · cases h; simp [Function.comp_def, Slave.afterRead_identity]
    · simp at h
  | reset k =>
    simp only [Bus.take] at h
    split at h
    · cases h; simp [Function.comp_def, Slave.identity, Slave.afterReset]
    · simp at h

theorem Bus.take_busy {c : Config} {slot : Slot} {bus next : Bus} (h : bus.take c slot = some next) (hb : bus.busy = 0) :
    next.busy = 0 := by
  cases slot with
  | write b => cases h; exact hb
  | read samples =>
    simp only [Bus.take] at h
    split at h
    · cases h; simp [hb]
    · simp at h
  | reset k =>
    simp only [Bus.take] at h
    split at h
    · cases h; exact hb
    · simp at h

theorem Bus.run_kept {c : Config} {slots : List Slot} {bus after : Bus} (h : Bus.run c slots bus = some after) :
    after.slaves.map Slave.identity = bus.slaves.map Slave.identity ∧ (bus.busy = 0 → after.busy = 0) := by
  induction slots generalizing bus with
  | nil => cases h; exact ⟨rfl, id⟩
  | cons slot slots ih =>
    simp only [Bus.run] at h
    split at h
    · rename_i next hn
      obtain ⟨h1, h2⟩ := ih h
      exact ⟨h1.trans (Bus.take_identities hn), fun hb => h2 (Bus.take_busy hn hb)⟩
    · simp at h

theorem Bus.searched_eq (bus : Bus) (a : Bool) :
    bus.searched a = ((bus.slaves.map Slave.identity).filter fun x => !a || x.2.1).map Prod.fst := by
  rw [List.filter_map, List.map_map]; rfl

theorem Bus.searched_congr {bus bus' : Bus} (h : bus'.slaves.map Slave.identity = bus.slaves.map Slave.identity)
    (a : Bool) : bus'.searched a = bus.searched a := by
  rw [Bus.searched_eq, Bus.searched_eq, h]

theorem Bus.mem_searched (bus : Bus) (a : Bool) (x : DeviceAddress) :
    x ∈ bus.searched a ↔ ∃ v ∈ bus.slaves, (a = false ∨ v.alarm = true) ∧ v.rom = x := by
  simp [Bus.searched, and_assoc]

/-! ## A successful handshake makes every slave listen -/

/-- The frames of a successful handshake end with its reset frame (R150, R156). -/
theorem State.resetSeq_success_frames {s : State} (h : s.resetSeq.1 = .success) :
    ∃ (pre : List Slot) (u1 u2 : Nat), (∀ slot ∈ pre ++ [.reset (.success u1 u2)], slot.Complete s.cfg = true) ∧
      s.resetSeq.2.line = s.line.after s.cfg (pre ++ [.reset (.success u1 u2)]) := by
  have hand : ∀ l : Line, (l.nextHandshake s.cfg).outcome = .success → ∃ u1 u2, l.nextHandshake s.cfg = .success u1 u2 := by
    intro l hl
    cases hn : l.nextHandshake s.cfg <;> rw [hn] at hl <;> simp_all [Handshake.outcome]
  rcases resetSeq_cases s.cfg s.busState s.ibudget s.line with ⟨-, he⟩ | ⟨-, k, -, -, -, he⟩ | ⟨-, -, he⟩
  · have h' : (Sys2Proof.Machine.resetSeq s.cfg s.busState s.ibudget s.line).1 = .success := h
    rw [he] at h'
    obtain ⟨u1, u2, hn⟩ := hand _ h'
    refine ⟨[], u1, u2, ?_, ?_⟩
    · have hcomp := s.line.nextHandshake_complete s.cfg
      rw [hn] at hcomp; simpa using hcomp
    · simp only [State.resetSeq, he, hn]; rfl
  · have h' : (Sys2Proof.Machine.resetSeq s.cfg s.busState s.ibudget s.line).1 = .success := h
    rw [he] at h'
    obtain ⟨u1, u2, hn⟩ := hand _ h'
    refine ⟨s.line.readFrames s.cfg (k + 1), u1, u2, ?_, ?_⟩
    · intro slot hs
      rcases List.mem_append.mp hs with hs | hs
      · exact Line.readFrames_complete _ _ _ slot hs
      · have hcomp := (s.line.after s.cfg (s.line.readFrames s.cfg (k + 1))).nextHandshake_complete s.cfg
        rw [hn] at hcomp; rwa [List.mem_singleton.mp hs]
    · simp only [State.resetSeq, he, hn, Line.after_after]
  · have h' : (Sys2Proof.Machine.resetSeq s.cfg s.busState s.ibudget s.line).1 = .success := h
    rw [he] at h'; simp at h'

/-- After frames that end with a good reset frame every slave is active and awaits a ROM command (R79). -/
theorem Bus.run_handshake {c : Config} {pre : List Slot} {u1 u2 : Nat} {bus after : Bus}
    (h : Bus.run c (pre ++ [.reset (.success u1 u2)]) bus = some after) :
    after.slaves.map Slave.identity = bus.slaves.map Slave.identity ∧ (bus.busy = 0 → after.busy = 0) ∧
      ∀ v ∈ after.slaves, v.active = true ∧ v.mode = .rom [] := by
  refine ⟨(Bus.run_kept h).1, (Bus.run_kept h).2, ?_⟩
  obtain ⟨mid, -, hr⟩ := Bus.run_append_some h
  simp only [Bus.run, Bus.take] at hr
  split at hr
  · rename_i next hn
    split at hn
    · cases hn; cases hr
      intro v hv
      obtain ⟨w, -, rfl⟩ := List.mem_map.mp hv
      exact ⟨rfl, rfl⟩
    · simp at hn
  · simp at hr

/-! ## Write slots -/

/-- A slave after these write slots. -/
def Slave.hears (c : Config) (bits : List Bool) (v : Slave) : Slave := bits.foldl (fun v b => v.afterWrite c b) v

theorem Bus.run_writes (c : Config) (bits : List Bool) (bus : Bus) :
    Bus.run c (bits.map .write) bus = some { bus with slaves := bus.slaves.map (Slave.hears c bits) } := by
  induction bits generalizing bus with
  | nil =>
    have h : Slave.hears c [] = id := rfl
    simp [Bus.run, h]
  | cons b bits ih =>
    simp only [List.map_cons, Bus.run, Bus.take, ih, List.map_map]
    rfl

theorem Slave.hears_inactive (c : Config) (bits : List Bool) (v : Slave) (h : v.active = false) : v.hears c bits = v := by
  induction bits with
  | nil => rfl
  | cons b bits ih =>
    have : v.afterWrite c b = v := by simp [Slave.afterWrite, h]
    simpa [Slave.hears, this] using ih

theorem byteOfBits_bitsOf (x : Byte) : byteOfBits (bitsOf x) = x := by
  have h : ∀ n ≤ 8, ∀ k < 8,
      ((List.range n).foldl (fun y k => setBit y k ((bitsOf x).getD k false)) (0x00 : Byte)).getLsbD k =
        if k < n then x.getLsbD k else false := by
    intro n
    induction n with
    | zero => intro _ k _; simp
    | succ n ih =>
      intro hn k hk
      rw [List.range_succ, List.foldl_append, List.foldl_cons, List.foldl_nil, setBit_getLsbD _ _ _ _ hk,
        ih (by omega) k hk]
      by_cases hkn : k = n
      · subst hkn
        simp [List.getD_eq_getElem?_getD, bitsOf_getElem? x k hk]
      · have : (k < n + 1) = (k < n) := by simp; omega
        simp [hkn, this]
  refine BitVec.eq_of_getLsbD_eq fun k hk => ?_
  rw [byteOfBits, h 8 le_rfl k hk, if_pos hk]

theorem bitsOf_explicit (x : Byte) : bitsOf x = [x.getLsbD 0, x.getLsbD 1, x.getLsbD 2, x.getLsbD 3, x.getLsbD 4,
    x.getLsbD 5, x.getLsbD 6, x.getLsbD 7] := rfl

theorem Slave.hears_eight_rom (c : Config) (v : Slave) (b0 b1 b2 b3 b4 b5 b6 b7 : Bool) (ha : v.active = true)
    (hm : v.mode = .rom []) : v.hears c [b0, b1, b2, b3, b4, b5, b6, b7] =
      Slave.romCommand c { v with mode := .rom [b0, b1, b2, b3, b4, b5, b6] }
        (byteOfBits [b0, b1, b2, b3, b4, b5, b6, b7]) := by
  obtain ⟨rom, alarm, parasite, active, mode⟩ := v
  dsimp only at ha hm
  subst ha hm
  rfl

theorem Slave.hears_eight_func (c : Config) (v : Slave) (b0 b1 b2 b3 b4 b5 b6 b7 : Bool) (ha : v.active = true)
    (hm : v.mode = .func []) : v.hears c [b0, b1, b2, b3, b4, b5, b6, b7] =
      v.functionCommand c (byteOfBits [b0, b1, b2, b3, b4, b5, b6, b7]) := by
  obtain ⟨rom, alarm, parasite, active, mode⟩ := v
  dsimp only at ha hm
  subst ha hm
  rfl

/-- An active slave that awaits a ROM command acts on the byte it hears (R80). -/
theorem Slave.hears_romCommand (c : Config) (x : Byte) (v : Slave) (ha : v.active = true) (hm : v.mode = .rom []) :
    ∃ got, v.hears c (bitsOf x) = Slave.romCommand c { v with mode := .rom got } x := by
  refine ⟨[x.getLsbD 0, x.getLsbD 1, x.getLsbD 2, x.getLsbD 3, x.getLsbD 4, x.getLsbD 5, x.getLsbD 6], ?_⟩
  rw [bitsOf_explicit, Slave.hears_eight_rom c v _ _ _ _ _ _ _ _ ha hm, ← bitsOf_explicit, byteOfBits_bitsOf]

/-- An active slave that awaits a function command acts on the byte it hears (R84). -/
theorem Slave.hears_functionCommand (c : Config) (x : Byte) (v : Slave) (ha : v.active = true) (hm : v.mode = .func []) :
    v.hears c (bitsOf x) = v.functionCommand c x := by
  rw [bitsOf_explicit, Slave.hears_eight_func c v _ _ _ _ _ _ _ _ ha hm, ← bitsOf_explicit, byteOfBits_bitsOf]

/-- The six command bytes tell the ROM commands apart (R8). -/
theorem Config.commands_distinct {c : Config} (hc : c.Ok) :
    c.cmdAlarmSearch ≠ c.cmdSearchRom ∧ c.cmdMatchRom ≠ c.cmdSearchRom ∧ c.cmdMatchRom ≠ c.cmdAlarmSearch ∧
      c.cmdMatchRom ≠ c.cmdReadRom := by
  have h := hc.2.2.2.2.2.2.2.2
  simp only [Config.commandBytes, List.nodup_cons, List.mem_cons, List.not_mem_nil, or_false, not_or] at h
  exact ⟨fun e => h.2.2.1.1 e.symm, h.2.1.1, h.2.1.2.1, fun e => h.1.1 e.symm⟩

/-- A slave matching bit by bit (R82): after the 64 bits of `a` it is active exactly if its address is `a`. -/
theorem Slave.hears_match (c : Config) (a : DeviceAddress) (v : Slave) (n : Nat) (hn : n ≤ 64) (ha : v.active = true)
    (hm : v.mode = .matching 0) :
    let w := v.hears c ((List.range n).map a.getLsbD)
    w.identity = v.identity ∧ (w.active = true ↔ ∀ j < n, v.rom.getLsbD j = a.getLsbD j) ∧
      (w.active = true → w.mode = if n = 64 then .func [] else .matching n) := by
  induction n with
  | zero => exact ⟨rfl, by simpa [Slave.hears] using ha, fun _ => by simpa [Slave.hears] using hm⟩
  | succ n ih =>
    obtain ⟨h1, h2, h3⟩ := ih (by omega)
    have hstep : v.hears c ((List.range (n + 1)).map a.getLsbD) =
        (v.hears c ((List.range n).map a.getLsbD)).afterWrite c (a.getLsbD n) := by
      simp [Slave.hears, List.range_succ]
    rw [hstep]
    have hrom : (v.hears c ((List.range n).map a.getLsbD)).rom = v.rom := congrArg Prod.fst h1
    refine ⟨(Slave.afterWrite_identity c _ _).trans h1, ?_⟩
    cases hact : (v.hears c ((List.range n).map a.getLsbD)).active with
    | false =>
      have hno : ¬ ∀ j < n, v.rom.getLsbD j = a.getLsbD j := fun h => by rw [h2.mpr h] at hact; simp at hact
      have hsame : (v.hears c ((List.range n).map a.getLsbD)).afterWrite c (a.getLsbD n) =
          v.hears c ((List.range n).map a.getLsbD) := by simp [Slave.afterWrite, hact]
      rw [hsame, hact]
      exact ⟨⟨by simp, fun h => absurd (fun j hj => h j (by omega)) hno⟩, by simp⟩
    | true =>
      have hmode := h3 hact
      rw [if_neg (by omega)] at hmode
      have hyes := h2.mp hact
      simp only [Slave.afterWrite, hact, if_true, hmode, hrom]
      by_cases hb : v.rom.getLsbD n = a.getLsbD n
      · rw [if_pos hb]
        refine ⟨⟨fun _ j hj => ?_, fun _ => by simp⟩, fun _ => ?_⟩
        · rcases Nat.lt_succ_iff_lt_or_eq.mp hj with hj | rfl
          · exact hyes j hj
          · exact hb
        · dsimp only
          by_cases h63 : n = 63 <;> simp [h63]
      · rw [if_neg hb]
        exact ⟨⟨by simp, fun h => absurd (h n (by omega)) hb⟩, by simp⟩

/-! ## The search on the environment (R81) -/

/-- The slaves before bit `i` of a search that has written the bits of `out` so far. -/
structure Bus.Searching (bus : Bus) (a : Bool) (out : DeviceAddress) (i : Nat) : Prop where
  busy : bus.busy = 0
  active : ∀ v ∈ bus.slaves, v.active = true ↔ (a = false ∨ v.alarm = true) ∧ Agree v.rom out i
  mode : ∀ v ∈ bus.slaves, v.active = true → v.mode = if i = 64 then .func [] else .searchBit i

/-- The command byte starts the search (R80, R190). -/
theorem Bus.run_searchCommand {c : Config} (hc : c.Ok) {bus after : Bus} {a : Bool} (out : DeviceAddress)
    (hb : bus.busy = 0) (hl : ∀ v ∈ bus.slaves, v.active = true ∧ v.mode = .rom [])
    (h : Bus.run c (byteSlots (searchCommand c a)) bus = some after) :
    after.slaves.map Slave.identity = bus.slaves.map Slave.identity ∧ after.Searching a out 0 := by
  refine ⟨(Bus.run_kept h).1, (Bus.run_kept h).2 hb, ?_, ?_⟩
  all_goals
    rw [byteSlots, Bus.run_writes] at h
    cases h
    intro v hv
    obtain ⟨w, hw, rfl⟩ := List.mem_map.mp hv
    obtain ⟨ha, hm⟩ := hl w hw
    obtain ⟨got, hgot⟩ := Slave.hears_romCommand c (searchCommand c a) w ha hm
    rw [hgot]
    have hd := (Config.commands_distinct hc).1
    cases a
    · simp [searchCommand, Slave.romCommand, ha, Agree]
    · cases hal : w.alarm <;> simp [searchCommand, Slave.romCommand, ha, Agree, hd]

/-- What the environment may answer in a read slot (R78, R84): 1 only if nothing holds the line low, 0 only if `busy`, an
active slave, or an active slave outside the spec can. -/
theorem Bus.mayRead_iff (bus : Bus) (bit : Bool) :
    bus.mayRead bit = true ↔
      (bit = true → bus.busy = 0 ∧ ∀ v ∈ bus.slaves, v.drivesLow = false) ∧
      (bit = false → 0 < bus.busy ∨ (∃ v ∈ bus.slaves, v.drivesLow = true) ∨ ∃ v ∈ bus.slaves, v.outsideSpec = true) := by
  unfold Bus.mayRead
  have hdrives : ∀ v ∈ bus.slaves, (v.drivesLow = false ↔ ¬ v.drivesLow = true) := fun v _ => by simp
  split
  · rename_i h
    rw [List.any_eq_true] at h
    cases bit with
    | false => exact iff_of_true rfl ⟨by simp, fun _ => h.elim .inl fun h => .inr (.inl h)⟩
    | true =>
      refine iff_of_false (by simp) fun hall => ?_
      obtain ⟨h0, hnone⟩ := hall.1 rfl
      rcases h with h | ⟨v, hv, h⟩
      · omega
      · simp [hnone v hv] at h
  · rename_i h
    rw [List.any_eq_true, not_or] at h
    cases bit with
    | true =>
      exact iff_of_true (by simp) ⟨fun _ => ⟨by omega, fun v hv => (hdrives v hv).mpr fun hd => h.2 ⟨v, hv, hd⟩⟩, by simp⟩
    | false =>
      rw [Bool.false_or, List.any_eq_true]
      exact ⟨fun ho => ⟨by simp, fun _ => .inr (.inr ho)⟩, fun hall => (hall.2 rfl).resolve_left h.1 |>.resolve_left h.2⟩

/-- The address bit at which an active slave stands in a search drives the line low exactly if it has the value asked for,
and the environment answers accordingly. -/
theorem Bus.read_low {c : Config} {bus next : Bus} {samples : List Level} (hb : bus.busy = 0)
    (hout : ∀ v ∈ bus.slaves, v.active = true → v.mode ≠ .deviceSpecific)
    (h : bus.take c (.read samples) = some next) :
    (bitOfSamples samples = false ↔ ∃ v ∈ bus.slaves, v.drivesLow = true) ∧
      next = { slaves := bus.slaves.map Slave.afterRead, busy := 0 } := by
  simp only [Bus.take] at h
  split at h
  · rename_i hmay
    cases h
    refine ⟨?_, by simp [hb]⟩
    have hnone : bus.slaves.any Slave.outsideSpec = false := by
      simp only [List.any_eq_false, Slave.outsideSpec, Bool.and_eq_true, decide_eq_true_eq, not_and]
      exact hout
    obtain ⟨hone, hzero⟩ := (Bus.mayRead_iff bus _).mp hmay
    constructor
    · intro h
      rcases hzero h with h | h | ⟨v, hv, h⟩
      · omega
      · exact h
      · exact absurd h (List.any_eq_false.mp hnone v hv)
    · rintro ⟨v, hv, h⟩
      by_contra hne
      have hlow := (hone (by simpa using hne)).2 v hv
      rw [h] at hlow; simp at hlow
  · simp at h

/-- The two read slots of bit `i` (R81): what they return, and the slaves after them. -/
theorem Bus.run_pair {c : Config} {bus after : Bus} {a : Bool} {out : DeviceAddress} {i : Nat} {x y : List Level}
    (hi : i < 64) (hs : bus.Searching a out i) (h : Bus.run c [.read x, .read y] bus = some after) :
    (bitOfSamples x = false ↔ ∃ d ∈ bus.searched a, Agree d out i ∧ d.getLsbD i = false) ∧
      (bitOfSamples y = false ↔ ∃ d ∈ bus.searched a, Agree d out i ∧ d.getLsbD i = true) ∧
      after.busy = 0 ∧
      (∀ v ∈ after.slaves, v.active = true ↔ (a = false ∨ v.alarm = true) ∧ Agree v.rom out i) ∧
      ∀ v ∈ after.slaves, v.active = true → v.mode = .searchDecision i := by
  have hmode : ∀ v ∈ bus.slaves, v.active = true → v.mode = .searchBit i := fun v hv ha => by
    rw [hs.mode v hv ha, if_neg (by omega)]
  have hread : ∀ v ∈ bus.slaves, v.afterRead = if v.active then { v with mode := .searchComplement i } else v := by
    intro v hv
    cases ha : v.active with
    | false => simp [Slave.afterRead, ha]
    | true => simp [Slave.afterRead, ha, hmode v hv ha]
  simp only [Bus.run] at h
  split at h
  case h_2 => simp at h
  rename_i mid hmid
  split at h
  case h_2 => simp at h
  rename_i last hlast
  cases h
  obtain ⟨hx, rfl⟩ := Bus.read_low hs.busy (fun v hv ha => by rw [hmode v hv ha]; simp) hmid
  have hmid' : ∀ w ∈ bus.slaves.map Slave.afterRead, w.active = true → w.mode = .searchComplement i := by
    intro w hw ha
    obtain ⟨v, hv, rfl⟩ := List.mem_map.mp hw
    rw [hread v hv] at ha ⊢
    cases hva : v.active <;> simp_all
  obtain ⟨hy, rfl⟩ := Bus.read_low (bus := { slaves := bus.slaves.map Slave.afterRead, busy := 0 }) rfl
    (fun v hv ha => by rw [hmid' v hv ha]; simp) hlast
  have hpick : ∀ value : Bool, (∃ d ∈ bus.searched a, Agree d out i ∧ d.getLsbD i = value) ↔
      ∃ v ∈ bus.slaves, v.active = true ∧ v.rom.getLsbD i = value := by
    intro value
    constructor
    · rintro ⟨d, hd, hag, hv⟩
      obtain ⟨v, hmem, htakes, rfl⟩ := (Bus.mem_searched bus a d).mp hd
      exact ⟨v, hmem, (hs.active v hmem).mpr ⟨htakes, hag⟩, hv⟩
    · rintro ⟨v, hmem, hact, hv⟩
      obtain ⟨htakes, hag⟩ := (hs.active v hmem).mp hact
      exact ⟨v.rom, (Bus.mem_searched bus a v.rom).mpr ⟨v, hmem, htakes, rfl⟩, hag, hv⟩
  refine ⟨?_, ?_, rfl, ?_, ?_⟩
  · rw [hx, hpick]
    refine exists_congr fun v => and_congr_right fun hv => ?_
    cases ha : v.active with
    | false => simp [Slave.drivesLow, ha]
    | true => simp [Slave.drivesLow, ha, hmode v hv ha]
  · rw [hy, hpick]
    constructor
    · rintro ⟨w, hw, hl⟩
      obtain ⟨v, hv, rfl⟩ := List.mem_map.mp hw
      rw [hread v hv] at hl
      cases ha : v.active with
      | false => simp [Slave.drivesLow, ha] at hl
      | true => exact ⟨v, hv, ha, by simpa [Slave.drivesLow, ha] using hl⟩
    · rintro ⟨v, hv, ha, hb⟩
      exact ⟨v.afterRead, List.mem_map.mpr ⟨v, hv, rfl⟩, by rw [hread v hv]; simp [Slave.drivesLow, ha, hb]⟩
  · intro w hw
    obtain ⟨u, hu, rfl⟩ := List.mem_map.mp hw
    obtain ⟨v, hv, rfl⟩ := List.mem_map.mp hu
    have hid : v.afterRead.afterRead.identity = v.identity :=
      (Slave.afterRead_identity _).trans (Slave.afterRead_identity _)
    simp only [Slave.identity, Prod.mk.injEq] at hid
    have hact : v.afterRead.afterRead.active = v.active := by
      rw [hread v hv]; cases ha : v.active <;> simp [Slave.afterRead, ha]
    rw [hact, hid.1, hid.2.1]
    exact hs.active v hv
  · intro w hw ha
    obtain ⟨u, hu, rfl⟩ := List.mem_map.mp hw
    obtain ⟨v, hv, rfl⟩ := List.mem_map.mp hu
    rw [hread v hv] at ha ⊢
    cases hva : v.active <;> simp_all [Slave.afterRead]

/-- The write slot of bit `i` (R81): the slaves whose bit differs drop out. -/
theorem Bus.run_decision {c : Config} {bus after : Bus} {a : Bool} {out : DeviceAddress} {i : Nat} (hi : i < 64)
    (hb : bus.busy = 0)
    (ha : ∀ v ∈ bus.slaves, v.active = true ↔ (a = false ∨ v.alarm = true) ∧ Agree v.rom out i)
    (hm : ∀ v ∈ bus.slaves, v.active = true → v.mode = .searchDecision i)
    (h : Bus.run c [.write (out.getLsbD i)] bus = some after) : after.Searching a out (i + 1) := by
  simp only [Bus.run, Bus.take, Option.some.injEq] at h
  subst h
  have hsucc : ∀ x : DeviceAddress, Agree x out (i + 1) ↔ Agree x out i ∧ x.getLsbD i = out.getLsbD i := fun x =>
    ⟨fun h => ⟨fun j hj => h j (by omega), h i (by omega)⟩, fun h => h.1.succ h.2⟩
  refine ⟨hb, ?_, ?_⟩ <;> intro w hw
  · obtain ⟨v, hv, rfl⟩ := List.mem_map.mp hw
    have hid := Slave.afterWrite_identity c (out.getLsbD i) v
    simp only [Slave.identity, Prod.mk.injEq] at hid
    rw [hid.1, hid.2.1, hsucc, ← and_assoc, ← ha v hv]
    cases hact : v.active with
    | false => simp [Slave.afterWrite, hact]
    | true =>
      simp only [Slave.afterWrite, hact, if_true, hm v hv hact]
      split <;> simp_all
  · obtain ⟨v, hv, rfl⟩ := List.mem_map.mp hw
    cases hact : v.active with
    | false => intro h; simp [Slave.afterWrite, hact] at h
    | true =>
      simp only [Slave.afterWrite, hact, if_true, hm v hv hact]
      split
      · intro _; dsimp only; by_cases h63 : i = 63 <;> simp [h63]
      · simp

/-- The first `n` groups of a search (R81): the pairs read are those of the addresses that take part. -/
theorem Bus.run_searchFrames {c : Config} {m : Line} {bus after : Bus} {a : Bool} {out : DeviceAddress} {n : Nat}
    (hn : n ≤ 64) (hs : bus.Searching a out 0) (h : Bus.run c (searchFrames c m out n) bus = some after) :
    PairsRead (bus.searched a) c m out n ∧ after.Searching a out n := by
  induction n generalizing after with
  | zero => cases h; exact ⟨fun i hi => by omega, hs⟩
  | succ n ih =>
    rw [searchFrames_succ] at h
    obtain ⟨mid, h1, h2⟩ := Bus.run_append_some h
    obtain ⟨hp, hmid⟩ := ih (by omega) h1
    rw [show [Slot.read (m.slotSamples c (2 * n)), .read (m.slotSamples c (2 * n + 1)), .write (out.getLsbD n)] =
      [.read (m.slotSamples c (2 * n)), .read (m.slotSamples c (2 * n + 1))] ++ [.write (out.getLsbD n)] from rfl] at h2
    obtain ⟨mid', h3, h4⟩ := Bus.run_append_some h2
    obtain ⟨p0, p1, hb, hact, hmode⟩ := Bus.run_pair (by omega) hmid h3
    rw [Bus.searched_congr (Bus.run_kept h1).1] at p0 p1
    refine ⟨fun i hi => ?_, Bus.run_decision (by omega) hb hact hmode h4⟩
    rcases Nat.lt_succ_iff_lt_or_eq.mp hi with hi | rfl
    · exact hp i hi
    · exact ⟨p0, p1⟩

/-- The first `n` groups of a search and the pair after them. -/
theorem Bus.run_searchFrames_pair {c : Config} {m : Line} {bus after : Bus} {a : Bool} {out : DeviceAddress} {n : Nat}
    (hn : n < 64) (hs : bus.Searching a out 0)
    (h : Bus.run c (searchFrames c m out n ++
      [.read (m.slotSamples c (2 * n)), .read (m.slotSamples c (2 * n + 1))]) bus = some after) :
    PairsRead (bus.searched a) c m out (n + 1) := by
  obtain ⟨mid, h1, h2⟩ := Bus.run_append_some h
  obtain ⟨hp, hmid⟩ := Bus.run_searchFrames (by omega) hs h1
  obtain ⟨p0, p1, -⟩ := Bus.run_pair hn hmid h2
  rw [Bus.searched_congr (Bus.run_kept h1).1] at p0 p1
  intro i hi
  rcases Nat.lt_succ_iff_lt_or_eq.mp hi with hi | rfl
  · exact hp i hi
  · exact ⟨p0, p1⟩

/-- The frames of a search after a good handshake, run on the environment: the slaves are ready for bit 0 of the search, and
the frames of the walk are still to be answered. -/
theorem Bus.run_to_search {c : Config} (hc : c.Ok) {bus after : Bus} {a : Bool} {pre rest : List Slot} {u1 u2 : Nat}
    (hb : bus.busy = 0) (out : DeviceAddress)
    (h : Bus.run c (pre ++ [.reset (.success u1 u2)] ++ byteSlots (searchCommand c a) ++ rest) bus = some after) :
    ∃ mid : Bus, mid.searched a = bus.searched a ∧ mid.Searching a out 0 ∧ Bus.run c rest mid = some after := by
  obtain ⟨b2, h2, h3⟩ := Bus.run_append_some h
  obtain ⟨b1, h4, h5⟩ := Bus.run_append_some h2
  obtain ⟨i1, i2, i3⟩ := Bus.run_handshake h4
  obtain ⟨j1, j2⟩ := Bus.run_searchCommand hc out (i2 hb) i3 h5
  exact ⟨b2, Bus.searched_congr (j1.trans i1) a, j2, h3⟩

/-- `SEARCH` on the reference environment, when its cursor is legal and the handshake is good: it stopped at a pair `(1, 1)`,
or it completed; either way the pairs it read are those of the addresses that take part, and it followed R184 and R186. -/
theorem searchBody_on_environment {s : State} {a : Bool} {bus after : Bus} (hc : s.cfg.Ok) (hb : bus.busy = 0)
    (hlegal : cursorLegal s.cursorPosition = true) (hsucc : s.resetSeq.1 = .success)
    (hans : bus.Answers s.cfg (s.line.since (searchBody a s).2.line) after) :
    ∃ (m : Line) (out : DeviceAddress),
      ((∃ k < 64, PairsRead (bus.searched a) s.cfg m out (k + 1) ∧ BitsChosen s.cursorPosition s.abuf s.cfg m out k ∧
          m.bitAt s.cfg (2 * k) = true ∧ m.bitAt s.cfg (2 * k + 1) = true) ∧
        (searchBody a s).1 = .protocolError ∧ (searchBody a s).2.busState = .idle ∧ (searchBody a s).2.resPos = 0xFF) ∨
      ∃ p, PairsRead (bus.searched a) s.cfg m out 64 ∧ BitsChosen s.cursorPosition s.abuf s.cfg m out 64 ∧
        RecordedPosition s.cfg m out p ∧
        (∀ j < 64, ¬ (m.bitAt s.cfg (2 * j) = true ∧ m.bitAt s.cfg (2 * j + 1) = true)) ∧ after.Searching a out 64 ∧
        (addressValid s.cfg out = true ∧ (searchBody a s).1 = .ok ∧ (searchBody a s).2.rbuf = out ∧
            (searchBody a s).2.resPos = BitVec.ofNat 8 p ∨
          addressValid s.cfg out = false ∧ (searchBody a s).1 = .checksumError) := by
  have he : searchBody a s = searchSelected a s.resetSeq.2 := by simp [searchBody, hlegal, hsucc]
  rw [he] at hans ⊢
  obtain ⟨pre, u1, u2, hcomp, hline⟩ := State.resetSeq_success_frames hsucc
  obtain ⟨m, hm⟩ : ∃ m, m = s.resetSeq.2.line.after s.cfg (byteSlots (searchCommand s.cfg a)) := ⟨_, rfl⟩
  have hml : m = s.line.after s.cfg (pre ++ [.reset (.success u1 u2)] ++ byteSlots (searchCommand s.cfg a)) := by
    rw [hm, hline, Line.after_after]
  have hstart : ∀ slot ∈ pre ++ [.reset (.success u1 u2)] ++ byteSlots (searchCommand s.cfg a),
      slot.Complete s.cfg = true := fun slot h =>
    (List.mem_append.mp h).elim (hcomp slot) (writeSlots_complete s.cfg _ slot)
  rcases searchSelected_cases a s.resetSeq.2 m hm with ⟨out, p, q1, q2, q3, q4⟩ | ⟨k, hk, out, -, q2, q3, q4, q5⟩
  · have hfinal : (searchSelected a s.resetSeq.2).2.line = s.line.after s.cfg
        (pre ++ [.reset (.success u1 u2)] ++ byteSlots (searchCommand s.cfg a) ++ searchFrames s.cfg m out 64) := by
      rw [← Line.after_after _ _ (pre ++ _ ++ _), ← hml, q4]; split <;> rfl
    rw [hfinal, Line.since_after] at hans
    have hrun := Bus.answers_run hc (fun slot h =>
      (List.mem_append.mp h).elim (hstart slot) (searchFrames_complete s.cfg m out 64 slot)) hans
    obtain ⟨mid, e1, e2, e3⟩ := Bus.run_to_search hc hb out hrun
    obtain ⟨f1, f2⟩ := Bus.run_searchFrames le_rfl e2 e3
    rw [e1] at f1
    refine ⟨m, out, .inr ⟨p, f1, q2, q3, q1, f2, ?_⟩⟩
    cases hv : addressValid s.cfg out with
    | true =>
      have hv' : addressValid s.resetSeq.2.cfg out = true := hv
      exact .inl (by rw [q4, if_pos hv']; exact ⟨rfl, rfl, rfl, rfl⟩)
    | false =>
      have hv' : ¬ addressValid s.resetSeq.2.cfg out = true := by
        have h : addressValid s.resetSeq.2.cfg out = false := hv
        rw [h]; simp
      exact .inr (by rw [q4, if_neg hv']; exact ⟨rfl, rfl⟩)
  · have hfinal : (searchSelected a s.resetSeq.2).2.line = s.line.after s.cfg
        (pre ++ [.reset (.success u1 u2)] ++ byteSlots (searchCommand s.cfg a) ++ (searchFrames s.cfg m out k ++
          [.read (m.slotSamples s.cfg (2 * k)), .read (m.slotSamples s.cfg (2 * k + 1))])) := by
      rw [← Line.after_after _ _ (pre ++ _ ++ _), ← hml, q5]; rfl
    rw [hfinal, Line.since_after] at hans
    have hrun := Bus.answers_run hc (fun slot h => (List.mem_append.mp h).elim (hstart slot) fun h =>
      (List.mem_append.mp h).elim (searchFrames_complete s.cfg m out k slot) fun h => by
        simp only [List.mem_cons, List.not_mem_nil, or_false] at h
        rcases h with rfl | rfl <;> simp [Slot.Complete]) hans
    obtain ⟨mid, e1, e2, e3⟩ := Bus.run_to_search hc hb out hrun
    have f1 := Bus.run_searchFrames_pair hk e2 e3
    rw [e1] at f1
    refine ⟨m, out, .inl ⟨⟨k, hk, f1, q4, q2, q3⟩, ?_⟩⟩
    rw [q5]; exact ⟨rfl, rfl, rfl⟩

/-- With a slave on the bus a handshake whose idle poll, if there is one, does not fail succeeds (R79). -/
theorem State.resetSeq_on_environment {s : State} {bus after : Bus} {n : Nat} (hc : s.cfg.Ok) (hslaves : bus.slaves ≠ [])
    (hn : s.IdleReads n) (hans : bus.Answers s.cfg (s.line.since s.resetSeq.2.line) after) :
    s.resetSeq.1 = .success := by
  obtain ⟨hout, hline⟩ := State.resetSeq_of_idleReads hn
  rw [hline, Line.since_after] at hans
  have hrun := Bus.answers_run hc (fun slot h => (List.mem_append.mp h).elim (Line.readFrames_complete s.cfg s.line n slot)
    fun h => by rw [List.mem_singleton.mp h]; exact Line.nextHandshake_complete s.cfg _) hans
  obtain ⟨mid, h1, h2⟩ := Bus.run_append_some hrun
  have hmid : mid.slaves ≠ [] := by
    have h := congrArg List.length (Bus.run_kept h1).1
    simp only [List.length_map] at h
    exact fun he => hslaves (List.eq_nil_of_length_eq_zero (by rw [← h, he]; rfl))
  rw [hout]
  generalize (s.line.after s.cfg (s.line.readFrames s.cfg n)).nextHandshake s.cfg = shake at h2 ⊢
  cases shake with
  | success u1 u2 => rfl
  | noPresence => simp [Bus.run, Bus.take, Bus.mayReset, hmid] at h2
  | neverReleased u1 => simp [Bus.run, Bus.take, Bus.mayReset] at h2

end Sys2Proof.Machine
end

