-- ==== Sys2Proof/Laws/PerInstr.lean ====
section
/-! SUPPORT. Statements made per instruction, one lemma per constructor. Family `TableRow`: the word of a command lies in the
row of R91 that has its mask and match (30_encoding.md). -/

namespace Sys2Proof.Laws.TableRow

open Sys2Proof

/-- The mask column of R91. -/
def rowMask : Instr → Byte
  | .wbit _ | .search _ => 0xFE
  | .crc _ => 0xF0
  | .reset | .rbit | .wbyte | .rbyte | .rdrom | .matchRom | .skip | .rdpwr | .idlepoll | .getst => 0xFF

/-- The match column of R91. -/
def rowMatch : Instr → Byte
  | .reset => 0x10
  | .wbit _ => 0x20
  | .rbit => 0x30
  | .wbyte => 0x40
  | .rbyte => 0x50
  | .search _ => 0x60
  | .rdrom => 0x70
  | .matchRom => 0x80
  | .skip => 0x90
  | .rdpwr => 0xA0
  | .idlepoll => 0xB0
  | .crc _ => 0xC0
  | .getst => 0xD0

/-- The word of the command has the row's match under the row's mask. -/
def Statement (i : Instr) : Prop := encode i &&& rowMask i = rowMatch i

theorem reset : Statement .reset := by unfold Statement; decide
theorem wbit (v : Bool) : Statement (.wbit v) := by unfold Statement; revert v; decide
theorem rbit : Statement .rbit := by unfold Statement; decide
theorem wbyte : Statement .wbyte := by unfold Statement; decide
theorem rbyte : Statement .rbyte := by unfold Statement; decide
theorem search (a : Bool) : Statement (.search a) := by unfold Statement; revert a; decide
theorem rdrom : Statement .rdrom := by unfold Statement; decide
theorem matchRom : Statement .matchRom := by unfold Statement; decide
theorem skip : Statement .skip := by unfold Statement; decide
theorem rdpwr : Statement .rdpwr := by unfold Statement; decide
theorem idlepoll : Statement .idlepoll := by unfold Statement; decide
theorem crc (len : BitVec 4) : Statement (.crc len) := by unfold Statement; revert len; decide
theorem getst : Statement .getst := by unfold Statement; decide

end Sys2Proof.Laws.TableRow
end

