-- ==== Sys2Proof/Laws/Steps.lean ====
section
/-! SUPPORT. What one step can do, said once, and the register window under reads and writes (10_state.md R26). -/

namespace Sys2Proof.Machine

open Sys2Proof

/-- A host write to a register leaves the line, the parameters, `STATE`, `RES_POS`, `STATUS` and `RBUF` alone. -/
theorem hostStore_kept (a : Nat) (v : Byte) (s : State) :
    (hostStore a v s).line = s.line ∧ (hostStore a v s).cfg = s.cfg ∧ (hostStore a v s).busState = s.busState ∧
      (hostStore a v s).resPos = s.resPos ∧ (hostStore a v s).busy = s.busy ∧ (hostStore a v s).result = s.result ∧
      (hostStore a v s).rbuf = s.rbuf := by
  unfold hostStore
  split <;> first | simp | (split <;> simp)

/-- A step runs a command, or it leaves the line, the parameters, `STATE` and `RES_POS` alone and no command runs. -/
theorem step_cases {s t : State} (h : step s = .next t) :
    (∃ (w : Byte) (i : Instr) (rest : List HostAction), s.host = .write 0x00 w :: rest ∧ decode w = .ok i ∧
        s.busy = false ∧ exec i { s with host := rest } = .next t) ∨
      (t.line = s.line ∧ t.cfg = s.cfg ∧ t.busState = s.busState ∧ t.resPos = s.resPos ∧
        (s.busy = false → t.busy = false) ∧ (t.result = s.result ∨ t.result = .illegal)) := by
  simp only [step, hostTurn] at h
  split at h
  · cases h; simp
  · rename_i act rest hh
    cases act with
    | read a =>
      simp only [hostAct] at h
      split at h
      · cases h; simp
      · simp at h
    | write a v =>
      simp only [hostAct] at h
      split at h
      · simp only [hostWrite] at h
        split at h
        · cases h; simp
        · rename_i hb
          split at h
          · rename_i ha
            subst ha
            simp only [issue] at h
            split at h
            · rename_i i hi
              exact .inl ⟨v, i, rest, hh, hi, by simpa using hb, h⟩
            · cases h; simp [reservedBody]
          · cases h
            obtain ⟨h1, h2, h3, h4, h5, h6, -⟩ := hostStore_kept a v { s with host := rest }
            exact .inr ⟨h1, h2, h3, h4, fun hb => h5.trans hb, .inl h6⟩
      · simp at h

end Sys2Proof.Machine
end

