-- ==== Sys2Proof/Tests/Slice0.lean ====
section
/-! SUPPORT. Small tests: the check of well-formedness, decoding of words written out bit by bit from 30_encoding.md R91, at
most two one-step tests per command with results from 95_test_vectors.md (the vector is named), and for every statement with
hypotheses a state that meets them. -/

namespace Sys2Proof.Tests

open Sys2Proof Sys2Proof.Machine

set_option maxRecDepth 20000

/-! ## Well-formedness and decoding -/

/-- The one field with reserved values (R93 (d)): length 9 is refused, 8 is not. -/
theorem test_wellFormed : (Instr.crc 8).WellFormed = true ∧ (Instr.crc 9).WellFormed = false := by decide

/-- The word of an ill-formed command decodes to no command. -/
theorem test_illFormed_refused : decodeTableWord 8 0b11001001 = none := by decide

theorem test_decode_reset : decode 0b00010000 = .ok .reset := by decide
theorem test_decode_wbit : decode 0b00100000 = .ok (.wbit false) ∧ decode 0b00100001 = .ok (.wbit true) := by decide
theorem test_decode_rbit : decode 0b00110000 = .ok .rbit := by decide
theorem test_decode_wbyte : decode 0b01000000 = .ok .wbyte := by decide
theorem test_decode_rbyte : decode 0b01010000 = .ok .rbyte := by decide
theorem test_decode_search : decode 0b01100000 = .ok (.search false) ∧ decode 0b01100001 = .ok (.search true) := by decide
theorem test_decode_rdrom : decode 0b01110000 = .ok .rdrom := by decide
theorem test_decode_match : decode 0b10000000 = .ok .matchRom := by decide
theorem test_decode_skip : decode 0b10010000 = .ok .skip := by decide
theorem test_decode_rdpwr : decode 0b10100000 = .ok .rdpwr := by decide
theorem test_decode_idlepoll : decode 0b10110000 = .ok .idlepoll := by decide
theorem test_decode_crc : decode 0b11000000 = .ok (.crc 0) ∧ decode 0b11001000 = .ok (.crc 8) := by decide
theorem test_decode_getst : decode 0b11010000 = .ok .getst := by decide

/-- V81: reserved words. -/
theorem test_reserved : ∀ n ∈ [0x00, 0x0F, 0x11, 0x22, 0x62, 0x71, 0xC9, 0xCF, 0xD1, 0xE0, 0xFF],
    decodeTableWord 8 n = none := by decide

/-! ## Helpers: a state with the answers of the line lined up, and the state after a command -/

/-- One sample per read slot, so that a test lines up one level for each. It meets the constraints of R6. -/
def quick : Config := { Config.default with nSamples := 1, tRds := 60 }

theorem test_quick_ok : quick.Ok ∧ Config.default.Ok := by decide

/-- After reset, with these answers lined up. -/
def start (c : Config) (samples : List Level) (polls : List (Option Nat)) : State :=
  { State.resetWith c with line := { drive := false, trace := [], samples := samples, polls := polls, asked := 0 } }

/-- The state after a command. -/
def after (i : Instr) (s : State) : State :=
  match exec i s with
  | .next t => t
  | .fault _ => s
  | .refused _ => s

theorem exec_after (i : Instr) (s : State) : exec i s = .next (after i s) := by cases i <;> rfl

/-- Levels for read slots of one sample each. -/
def levels (bits : List Bool) : List Level := bits.map fun b => if b then .high else .low

/-- The pairs a search reads that finds `out` among these addresses (R81). -/
def pairs (addresses : List DeviceAddress) (out : DeviceAddress) : List Bool :=
  (List.range 64).flatMap fun i =>
    let here := addresses.filter fun x => (List.range i).all fun j => x.getLsbD j == out.getLsbD j
    [here.all fun x => x.getLsbD i, here.all fun x => !x.getLsbD i]

/-- The slaves of 95_test_vectors.md. -/
def slaveA : DeviceAddress := 0x2900000000000128
def slaveB : DeviceAddress := 0x7000000000000228
def slaveC : DeviceAddress := 0x4700000000000328

/-- Poll answers of a good handshake (V20). -/
def good : List (Option Nat) := [some 30, some 120]

def high6 : List Level := List.replicate 6 .high

/-! ## One step each, with the results of 95_test_vectors.md -/

/-- V10, V11. -/
theorem test_wbit : (after (.wbit true) State.reset).line.events = [.assertLow, .delay 6, .release, .delay 64] ∧
    (after (.wbit false) State.reset).line.events = [.assertLow, .delay 60, .release, .delay 10] := by decide

/-- V12. -/
theorem test_rbit : (after .rbit (start .default high6 [])).rdata = 0x01 ∧
    (after .rbit (start .default high6 [])).line.events = [.assertLow, .delay 1, .release, .delay 9, .sample .high,
      .delay 10, .sample .high, .delay 10, .sample .high, .delay 10, .sample .high, .delay 10, .sample .high, .delay 10,
      .sample .high, .delay 10] := by decide

/-- V13: one low sample decides. -/
theorem test_rbit_lowDominant :
    (after .rbit (start .default [.high, .high, .low, .high, .high, .high] [])).rdata = 0x00 ∧
      (after .rbit (start .default [.low, .high, .high, .high, .high, .high] [])).rdata = 0x00 := by decide

/-- V15: least significant bit first. -/
theorem test_wbyte : (after .wbyte { State.reset with wdata := 0x01 }).line.events =
    [.assertLow, .delay 6, .release, .delay 64] ++
      (List.replicate 7 [.assertLow, .delay 60, .release, .delay 10]).flatten := by decide

/-- V17. -/
theorem test_rbyte : (after .rbyte (start quick (levels [true, false, true, false, false, true, false, true]) [])).rdata = 0xA5 ∧
    (after .rbyte (start quick (levels [false, false, false, false, false, false, false, true]) [])).rdata = 0x80 := by
  decide

/-- V20. -/
theorem test_reset_ok : (after .reset (start .default [] good)).line.events = [.assertLow, .delay 480, .release,
      .poll .low 74 (.hit 30), .poll .high 254 (.hit 120), .delay 254] ∧
    (after .reset (start .default [] good)).busState = .romCommand ∧
    hostRead 0x01 (after .reset (start .default [] good)) = 0x00 := by decide

/-- V21, V22. -/
theorem test_reset_fails : hostRead 0x01 (after .reset (start .default [] [none])) = 0x01 ∧
    hostRead 0x01 (after .reset (start .default [] [some 0, none])) = 0x03 ∧
    (after .reset { start .default [] [some 0, none] with busState := .functionCommand }).busState = .idle := by decide

/-- V26, V27: an idle poll of three read slots. -/
theorem test_reset_afterIdlePoll :
    let s := { start quick (levels [false, false, true]) good with busState := .awaitingIdle, ibudget := 3 }
    let u := { start quick (levels [false, false, false]) good with busState := .awaitingIdle, ibudget := 3 }
    (after .reset s).busState = .romCommand ∧ durationOf (after .reset s).line.events = 1094 ∧
      (after .reset u).result = .lfStillBusy ∧ durationOf (after .reset u).line.events = 210 ∧
      (after .reset u).busState = .awaitingIdle := by decide

/-- V26, V29. -/
theorem test_idlepoll : (after .idlepoll { State.reset with budgetL := 0x03 }).ibudget = 3 ∧
    (after .idlepoll { State.reset with budgetL := 0xFF, budgetH := 0xFE }).ibudget = 0xFEFF ∧
    (after .idlepoll State.reset).busState = .awaitingIdle := by decide

/-- V32. -/
theorem test_getst : (after .getst { State.reset with busState := .awaitingIdle }).rdata = 0x03 ∧
    (after .getst { State.reset with busState := .functionCommand }).rdata = 0x02 := by decide

/-- V30, V31: the gate. -/
theorem test_gate : hostRead 0x01 (after .rdpwr State.reset) = 0x08 ∧ (after .rdpwr State.reset).line.events = [] ∧
    (after .matchRom { State.reset with busState := .functionCommand }).result = .stateError ∧
    (after .skip { State.reset with busState := .awaitingIdle }).busState = .awaitingIdle := by decide

/-- V40, V42: the checksum. -/
theorem test_crc8 : crc8 0x00 0x8C [0x02, 0x1C, 0xB8, 0x01, 0x00, 0x00, 0x00] = 0xA2 ∧ crc8 0x3C 0x8C [0xA5] = 0x8D ∧
    crc8 0xFF 0x00 [0x00] = 0x00 ∧ crc8 0x00 0xFF [0x01] = 0x02 := by decide

/-- V44: the command. -/
theorem test_crc : (after (.crc 7) { State.reset with abuf := slaveA }).crcv = 0x29 ∧
    (after (.crc 3) { State.reset with abuf := slaveA }).crcv = 0x75 ∧
    (after (.crc 9) { State.reset with abuf := slaveA }).result = .illegal := by decide

/-- V50: a fresh search among three devices. -/
theorem test_search_fresh :
    let t := after (.search false) (start quick (levels (pairs [slaveA, slaveB, slaveC] slaveB)) good)
    t.result = .ok ∧ t.rbuf = slaveB ∧ t.resPos = 0x08 ∧ t.busState = .functionCommand := by decide

/-- V51: the next call. -/
theorem test_search_next :
    let t := after (.search false) { start quick (levels (pairs [slaveA, slaveB, slaveC] slaveA)) good with
      abuf := slaveB, curPos := 0x08 }
    t.result = .ok ∧ t.rbuf = slaveA ∧ t.resPos = 0x09 ∧ t.busState = .functionCommand := by decide

/-- V70. -/
theorem test_rdrom :
    let t := after .rdrom (start quick (levels ((List.range 64).map slaveA.getLsbD)) good)
    t.result = .ok ∧ t.rbuf = slaveA ∧ t.resPos = 0xFF ∧ t.busState = .functionCommand := by decide

/-- V71: two devices answer together. -/
theorem test_rdrom_collision :
    let t := after .rdrom (start quick (levels ((List.range 64).map (slaveA &&& slaveB).getLsbD)) good)
    t.result = .checksumError ∧ t.busState = .idle := by decide

/-- V73: 72 write slots, 5040 units. -/
theorem test_match :
    let t := after .matchRom { State.reset with busState := .romCommand, abuf := slaveB }
    durationOf t.line.events = 5040 ∧ t.line.events.length = 288 ∧ t.busState = .functionCommand := by decide

/-- V74: the command byte 0xCC. -/
theorem test_skip :
    let t := after .skip { State.reset with busState := .romCommand }
    t.line.events = slotEvents .default ([false, false, true, true, false, false, true, true].map .write) ∧
      t.busState = .functionCommand := by decide

/-- V75: the command byte 0xB4 and one read slot. -/
theorem test_rdpwr :
    let t := after .rdpwr { start .default (List.replicate 6 .low) [] with busState := .functionCommand }
    t.line.events = slotEvents .default ([false, false, true, false, true, true, false, true].map .write ++
      [.read (List.replicate 6 .low)]) ∧ t.rdata = 0x00 ∧ t.busState = .idle := by decide

/-- A step runs the word the host writes to `CMD` (R27): V10 through the register window. -/
theorem test_step : step (State.reset.withFetchWord 8 0x21) = exec (.wbit true) State.reset := by rfl

/-! ## Witnesses: for every statement with hypotheses, states and operands that meet them together -/

/-- The block with one host action pending. -/
def hostNext (act : HostAction) : State := { State.reset with host := [act] }

theorem not_decoded {w : Byte} (h : decodeTableWord 8 w.toNat = none) (hw : tableByte 8 w.toNat = w) : ∀ i, decode w ≠ .ok i := by
  intro i hi
  simp only [decodeTableWord, hw, hi] at h
  cases h

/-- ReservedWordEndsIllegal: the first and the last word, and the one after the last legal length, written to `CMD`. -/
theorem test_witness_reservedWord : ∀ w ∈ [(0x00 : Byte), 0xC9, 0xFF], (∀ i, decode w ≠ .ok i) ∧
    (hostNext (.write 0x00 w)).busy = false ∧ (hostNext (.write 0x00 w)).host = .write 0x00 w :: [] := by
  intro w hw
  simp only [List.mem_cons, List.not_mem_nil, or_false] at hw
  rcases hw with rfl | rfl | rfl <;> exact ⟨not_decoded (by decide) (by decide), rfl, rfl⟩

/-- DecodeEncodeAgree: the last legal length. -/
theorem test_witness_decodeEncode : (Instr.crc 8).WellFormed = true ∧ decode 0xC8 = .ok (.crc 8) := by decide

/-- StepRunsDecodedCommand. -/
theorem test_witness_stepRuns : decode 0xC8 = .ok (.crc 8) ∧ (hostNext (.write 0x00 0xC8)).busy = false ∧
    (hostNext (.write 0x00 0xC8)).host = .write 0x00 0xC8 :: [] ∧ decodeTableWord 8 0x60 = some (.search false) := by decide

/-- HostWriteThenRead: the first and last locations, read-only and writable ones. -/
theorem test_witness_hostWrite : ∀ a ∈ [0x01, 0x02, 0x09, 0x10, 0x17, 0x18, 0x1F], 0x00 < a ∧ a < 0x20 ∧
    (hostNext (.write a 0x5A)).busy = false ∧ (hostNext (.write a 0x5A)).host = .write a 0x5A :: [] := by decide

/-- HostReadsTheWindow: the last location. -/
theorem test_witness_hostRead : 0x1F < 0x20 ∧ (hostNext (.read 0x1F)).host = .read 0x1F :: [] := by decide

/-- HostInterfaceEdges: a write while busy, the first address outside for either access, and no action. -/
theorem test_witness_hostEdges :
    ({ hostNext (.write 0x1F 0x5A) with busy := true } : State).busy = true ∧ 0x1F < 0x20 ∧
      ({ hostNext (.write 0x1F 0x5A) with busy := true } : State).host = .write 0x1F 0x5A :: [] ∧
      (hostNext (.write 0x20 0x5A)).host = .write 0x20 0x5A :: [] ∧ (hostNext (.read 0x20)).host = .read 0x20 :: [] ∧
      State.reset.host = [] := by decide

/-- WriteSlotTiming, ReadSlotTiming, SearchResultRegisters, AddressCheckIgnoresRegisters, DurationsOfCommands and every other
statement whose hypotheses are `cfg.Ok` and that `exec` answers `t`: for each command. The results that their clauses name
are reached in the one-step tests above and the witnesses below. -/
theorem test_witness_exec (i : Instr) : State.reset.cfg.Ok ∧ exec i State.reset = .next (after i State.reset) :=
  ⟨by decide, exec_after i State.reset⟩

/-- The states one after the other when a command for each number is run. -/
def chain (i : Nat → Instr) (s : State) : Nat → State
  | 0 => s
  | k + 1 => after (i k) (chain i s k)

/-- EightBitsMakeAByte: the states of eight commands in a row, for any start. -/
theorem test_witness_eightBits (s : State) :
    (chain (fun k => .wbit (s.wdata.getLsbD k)) s 0 = s ∧ ∀ k < 8, exec (.wbit (s.wdata.getLsbD k))
      (chain (fun k => .wbit (s.wdata.getLsbD k)) s k) = .next (chain (fun k => .wbit (s.wdata.getLsbD k)) s (k + 1))) ∧
    (chain (fun _ => .rbit) s 0 = s ∧ (∀ k < 8, exec .rbit (chain (fun _ => .rbit) s k) =
      .next (chain (fun _ => .rbit) s (k + 1))) ∧ exec .rbyte s = .next (after .rbyte s)) :=
  ⟨⟨rfl, fun _ _ => exec_after _ _⟩, rfl, fun _ _ => exec_after _ _, exec_after _ _⟩

def bitsA5 : List Bool := [true, false, true, false, false, true, false, true]

/-- LoopbackReturnsTheByte: the slave has stored the bits of 0xA5 (V18). -/
theorem test_witness_loopback :
    let s := { start quick (levels bitsA5) [] with wdata := 0xA5 }
    let t := after .wbyte s
    s.cfg.Ok ∧ exec .wbyte s = .next t ∧ s.line.since t.line = slotEvents s.cfg (bitsA5.map .write) ∧
      (∀ k < 8, t.line.bitAt t.cfg k = bitsA5.getD k false) ∧ exec .rbyte t = .next (after .rbyte t) :=
  ⟨by decide, exec_after _ _, by decide, by decide, exec_after _ _⟩

/-- ResetHandshakeResult and ResetBoundsInclusive: every case, at the bounds of V23 and V24 and with a line that never
answers. The state is `IDLE` and the parameters are the defaults in all of them. -/
theorem test_witness_reset : (∀ polls, (start .default [] polls).busState ≠ .awaitingIdle ∧
      (start .default [] polls).cfg = .default ∧
      exec .reset (start .default [] polls) = .next (after .reset (start .default [] polls))) ∧
    ((start .default [] [some 74, some 254]).line.pollAt 0 = some 74 ∧
      (start .default [] [some 74, some 254]).line.pollAt 1 = some 254) ∧
    (∀ u, (start .default [] [none]).line.pollAt 0 = some u → 74 < u) ∧
    (∀ u, (start .default [] [some 75]).line.pollAt 0 = some u → 74 < u) ∧
    ((start .default [] [some 74, some 255]).line.pollAt 0 = some 74 ∧
      ∀ u, (start .default [] [some 74, some 255]).line.pollAt 1 = some u → 254 < u) := by
  refine ⟨fun polls => ⟨by simp [start, State.resetWith], rfl, exec_after _ _⟩, by decide, ?_, ?_, by decide, ?_⟩
  · intro u h; simp [start, Line.pollAt] at h
  · intro u h; simp [start, Line.pollAt] at h; omega
  · intro u h; simp [start, Line.pollAt] at h; omega

/-- The awaiting state with a budget and these read slots. -/
def awaiting (budget : BitVec 16) (bits : List Bool) : State :=
  { start quick (levels bits) good with busState := .awaitingIdle, ibudget := budget }

/-- ResetAfterReleasedIdlePoll: the first read of the budget is high, and the last is. -/
theorem test_witness_released :
    (awaiting 1 [true]).busState = .awaitingIdle ∧ 0 < (awaiting 1 [true]).ibudget.toNat ∧
    (awaiting 1 [true]).line.bitAt quick 0 = true ∧ 2 < (awaiting 3 [false, false, true]).ibudget.toNat ∧
    (∀ j < 2, (awaiting 3 [false, false, true]).line.bitAt quick j = false) ∧
    (awaiting 3 [false, false, true]).line.bitAt quick 2 = true := by decide

/-- ResetAfterSpentIdlePoll: three reads, none of them high; and no read at all. -/
theorem test_witness_spent :
    (awaiting 3 [false, false, false]).busState = .awaitingIdle ∧ (awaiting 0 []).busState = .awaitingIdle ∧
    (∀ j < (awaiting 3 [false, false, false]).ibudget.toNat, (awaiting 3 [false, false, false]).line.bitAt quick j = false) ∧
    (∀ j < (awaiting 0 []).ibudget.toNat, (awaiting 0 []).line.bitAt quick j = false) := by decide

/-- DurationsOfCommands: each result of `RESET` with a reset pulse, from `AWAITING_IDLE` after the last read of the budget and
after the first, and from `IDLE`. -/
theorem test_witness_durations :
    (awaiting 3 [false, false, true]).IdleReads 3 ∧ (awaiting 1 [true]).IdleReads 1 ∧ State.reset.IdleReads 0 ∧
    (∀ p ∈ [(good, Result.ok), ([some 30, none], .lfNeverReleased), ([none], .noPresence)],
      (after .reset { start quick (levels [false, true]) p.1 with busState := .awaitingIdle, ibudget := 2 }).result = p.2 ∧
        (after .reset (start quick [] p.1)).result = p.2) :=
  ⟨.inr ⟨by decide, 2, by decide, rfl, by decide, by decide⟩, .inr ⟨by decide, 0, by decide, rfl, by decide, by decide⟩,
    .inl ⟨by decide, rfl⟩, by decide⟩

/-- ZeroBudgetFailsAtOnce: each of the three commands, `SEARCH` with either end of the legal cursor positions. -/
theorem test_witness_zeroBudget :
    (awaiting 0 []).busState = .awaitingIdle ∧ (awaiting 0 []).ibudget = 0 ∧
    -1 ≤ (awaiting 0 []).curPos.toInt ∧ (awaiting 0 []).curPos.toInt ≤ 63 ∧
    -1 ≤ ({ awaiting 0 [] with curPos := 0x3F } : State).curPos.toInt ∧
    ({ awaiting 0 [] with curPos := 0x3F } : State).curPos.toInt ≤ 63 ∧
    (after .reset (awaiting 0 [])).result = .lfStillBusy ∧ (after .rdrom (awaiting 0 [])).result = .noDevices ∧
    (after (.search true) { awaiting 0 [] with curPos := 0x3F }).result = .noDevices := by decide

/-- GatedCommandsOutsideTheirState, MatchResult, SkipResult, ReadPowerResult: the states inside and outside the gate. -/
theorem test_witness_gates : State.reset.busState ≠ .romCommand ∧ State.reset.busState ≠ .functionCommand ∧
    ({ State.reset with busState := .romCommand } : State).busState = .romCommand ∧
    ({ State.reset with busState := .functionCommand } : State).busState = .functionCommand := by decide

/-- StateEnteredOnlySo, StepsAppendWholeFrames, StepKeepsInvariant: a step that changes `STATE`, from a state that meets the
invariant. -/
theorem test_witness_step :
    let s := hostNext (.write 0x00 0xB0)
    s.Inv ∧ step s = .next (after .idlepoll State.reset) ∧ s.busState ≠ (after .idlepoll State.reset).busState := by
  refine ⟨⟨⟨rfl, rfl⟩, ⟨[], by simp, rfl⟩, .inl rfl, by simp [State.NeverHeldTooLong, hostNext, State.reset, State.resetWith]⟩, rfl,
    by decide⟩

/-- SearchIllegalCursor: the first position above and the first below the legal ones (V53). -/
theorem test_witness_illegalCursor : ({ State.reset with curPos := 0x40 } : State).curPos.toInt > 63 ∧
    ({ State.reset with curPos := 0xFE } : State).curPos.toInt < -1 := by decide

/-- CompositeCommandsBeginWithReset: no presence (V57, V72), with the cursor at either end. -/
theorem test_witness_noDevices : (after .reset (start quick [] [none])).result ≠ .ok ∧
    (after (.search false) (start quick [] [none])).result = .noDevices ∧
    (after (.search true) { start quick [] [none] with curPos := 0x3F }).result = .noDevices ∧
    (after .rdrom (start quick [] [none])).result = .noDevices := by decide

/-- The line after a good handshake from `IDLE`. -/
def shaken (s : State) : Line := s.line.after s.cfg [.reset (.success 30 120)]

/-- The handshake is good from `IDLE` with these polls. -/
theorem good_start (bits : List Bool) :
    (start quick (levels bits) good).GoodHandshake (shaken (start quick (levels bits) good)) :=
  ⟨[], 30, 120, .inl ⟨by simp [start, State.resetWith], rfl⟩, rfl, by simp [start, State.resetWith, quick, Config.default],
    rfl, by simp [start, State.resetWith, quick, Config.default], by simp [shaken]⟩

/-- The line of a search after its command byte. -/
def walked (s : State) (a : Bool) : Line :=
  (shaken s).after s.cfg (byteSlots (if a then s.cfg.cmdAlarmSearch else s.cfg.cmdSearchRom))

def two : State := start quick (levels (pairs [slaveA, slaveB] slaveB)) good
def held : State := start quick (levels (List.replicate 128 false)) good
def lone : State := start quick (levels (pairs [slaveA] slaveA)) good
/-- The address `28 01 00 00 00 00 00 28` of V59, whose checksum is wrong. -/
def wrong : DeviceAddress := slaveA ^^^ (1#64 <<< 56)
def loneWrong : State := start quick (levels (pairs [wrong] wrong)) good

/-- The hypotheses of SearchFollowsDirectionRule, but for the handshake and the position. -/
abbrev Directed (s : State) (a : Bool) (out : DeviceAddress) : Prop :=
  -1 ≤ s.curPos.toInt ∧ s.curPos.toInt ≤ 63 ∧
  (∀ i < 64, ¬ ((walked s a).bitAt s.cfg (2 * i) = true ∧ (walked s a).bitAt s.cfg (2 * i + 1) = true)) ∧
  ∀ i < 64, out.getLsbD i =
    if (walked s a).bitAt s.cfg (2 * i) = false ∧ (walked s a).bitAt s.cfg (2 * i + 1) = false then
      if (i : Int) = s.curPos.toInt then true
      else if s.curPos.toInt < (i : Int) then false
      else s.abuf.getLsbD i
    else (walked s a).bitAt s.cfg (2 * i)

/-- SearchFollowsDirectionRule: two devices, a conflict at bit 8 and position 8; a valid address. -/
theorem test_witness_direction : two.GoodHandshake (shaken two) ∧ Directed two false slaveB ∧
    (8 < 64 ∧ unexplored two.cfg (walked two false) slaveB 8 = true ∧
      ∀ i, 8 < i → i < 64 → unexplored two.cfg (walked two false) slaveB i = false) ∧
    byteOf slaveB 7 = crc8 two.cfg.crcSeedRom two.cfg.crcPoly (bytesOf slaveB 7) := by
  have h : ∀ i < 64, 8 < i → unexplored two.cfg (walked two false) slaveB i = false := by decide
  exact ⟨good_start _, by decide, ⟨by decide, by decide, fun i h8 hi => h i hi h8⟩, by decide⟩

/-- SearchFollowsDirectionRule: position 63, every pair low. -/
theorem test_witness_direction_last : held.GoodHandshake (shaken held) ∧ Directed held false 0 ∧
    (63 < 64 ∧ unexplored held.cfg (walked held false) 0 63 = true ∧
      ∀ i, 63 < i → i < 64 → unexplored held.cfg (walked held false) 0 i = false) ∧
    byteOf 0 7 = crc8 held.cfg.crcSeedRom held.cfg.crcPoly (bytesOf 0 7) :=
  ⟨good_start _, by decide, ⟨by decide, by decide, fun i h8 hi => by omega⟩, by decide⟩

/-- SearchFollowsDirectionRule: position 64, no conflict, and an address that is not valid (V59). -/
theorem test_witness_direction_invalid : loneWrong.GoodHandshake (shaken loneWrong) ∧ Directed loneWrong false wrong ∧
    (∀ i < 64, unexplored loneWrong.cfg (walked loneWrong false) wrong i = false) ∧
    byteOf wrong 7 ≠ crc8 loneWrong.cfg.crcSeedRom loneWrong.cfg.crcPoly (bytesOf wrong 7) :=
  ⟨good_start _, by decide, by decide, by decide⟩

/-- SearchProtocolError: the first pair reads `(1, 1)`. -/
def onesFirst : State := start quick (levels [true, true]) good
/-- SearchProtocolError: the last pair reads `(1, 1)` (V61). -/
def onesLast : State := start quick (levels ((List.range 63).flatMap (fun _ => [false, true]) ++ [true, true])) good

theorem test_witness_protocolError_first : onesFirst.GoodHandshake (shaken onesFirst) ∧
    -1 ≤ onesFirst.curPos.toInt ∧ onesFirst.curPos.toInt ≤ 63 ∧
    (walked onesFirst false).bitAt onesFirst.cfg (2 * 0) = true ∧ (walked onesFirst false).bitAt onesFirst.cfg (2 * 0 + 1) = true :=
  ⟨good_start _, by decide, by decide, by decide, by decide⟩

theorem test_witness_protocolError_last : onesLast.GoodHandshake (shaken onesLast) ∧
    -1 ≤ onesLast.curPos.toInt ∧ onesLast.curPos.toInt ≤ 63 ∧
    (∀ i < 63, ¬ ((walked onesLast true).bitAt onesLast.cfg (2 * i) = true ∧
      (walked onesLast true).bitAt onesLast.cfg (2 * i + 1) = true)) ∧
    (walked onesLast true).bitAt onesLast.cfg (2 * 63) = true ∧ (walked onesLast true).bitAt onesLast.cfg (2 * 63 + 1) = true :=
  ⟨good_start _, by decide, by decide, by decide, by decide, by decide⟩

/-- SearchLoneDevice: one slave (V56). -/
theorem test_witness_lone : lone.GoodHandshake (shaken lone) ∧ -1 ≤ lone.curPos.toInt ∧ lone.curPos.toInt ≤ 63 ∧
    (∀ i < 64, (walked lone false).bitAt lone.cfg (2 * i) = slaveA.getLsbD i ∧
      (walked lone false).bitAt lone.cfg (2 * i + 1) = !slaveA.getLsbD i) ∧
    byteOf slaveA 7 = crc8 lone.cfg.crcSeedRom lone.cfg.crcPoly (bytesOf slaveA 7) :=
  ⟨good_start _, by decide, by decide, by decide, by decide⟩

/-- SearchOnHeldLine (V60). -/
theorem test_witness_held : held.GoodHandshake (shaken held) ∧ held.curPos = 0xFF ∧ held.cfg.crcSeedRom = 0x00 ∧
    ∀ k < 128, (shaken held).bitAt held.cfg k = false :=
  ⟨good_start _, by decide, by decide, by decide⟩

/-- A good handshake in `AWAITING_IDLE`, the idle poll ended by the last read of the budget. -/
theorem test_witness_good_afterIdlePoll : (awaiting 3 [false, false, true]).GoodHandshake
    (((awaiting 3 [false, false, true]).line.after quick ((awaiting 3 [false, false, true]).line.readFrames quick 3)).after
      quick [.reset (.success 30 120)]) :=
  ⟨_, 30, 120, .inr ⟨by decide, 2, by decide, by decide, by decide, rfl⟩, by rfl, by decide, by rfl, by decide, rfl⟩

/-- SearchReadsOnlyBitsBelowCursor: with -1 any other cursor address; with 5 one that agrees on bits 0 to 4 only. -/
theorem test_witness_belowCursor :
    (∀ i : Nat, i < 64 → (i : Int) < (0xFF : Byte).toInt →
      (0xFFFFFFFFFFFFFFFF : DeviceAddress).getLsbD i = slaveA.getLsbD i) ∧
    (∀ i : Nat, i < 64 → (i : Int) < (0x05 : Byte).toInt →
      (0xFFFFFFFFFFFFFFC8 : DeviceAddress).getLsbD i = slaveA.getLsbD i) := by decide

/-- ValidExactlyIfZeroRemainder and SingleBitFlipInvalidates (V43), and the polynomial's bit 7. -/
theorem test_witness_checksum : addressValid .default slaveA = true ∧ Config.default.crcPoly.getLsbD 7 = true ∧
    crc8 0x00 0x8C (bytesOf slaveA 8) = 0x00 ∧ addressValid .default (slaveA ^^^ (1#64 <<< 63)) = false := by decide

def readOne : State := start quick (levels ((List.range 64).map slaveA.getLsbD)) good
def readBoth : State := start quick (levels ((List.range 64).map (slaveA &&& slaveB).getLsbD)) good

/-- ReadRomResult: a valid address, and one that is not (V70, V71). -/
theorem test_witness_readRom :
    (readOne.GoodHandshake (shaken readOne) ∧
      (∀ i < 64, slaveA.getLsbD i =
        ((shaken readOne).after readOne.cfg (byteSlots readOne.cfg.cmdReadRom)).bitAt readOne.cfg i) ∧
      byteOf slaveA 7 = crc8 readOne.cfg.crcSeedRom readOne.cfg.crcPoly (bytesOf slaveA 7)) ∧
    readBoth.GoodHandshake (shaken readBoth) ∧
    (∀ i < 64, (slaveA &&& slaveB).getLsbD i =
      ((shaken readBoth).after readBoth.cfg (byteSlots readBoth.cfg.cmdReadRom)).bitAt readBoth.cfg i) ∧
    byteOf (slaveA &&& slaveB) 7 ≠ crc8 readBoth.cfg.crcSeedRom readBoth.cfg.crcPoly (bytesOf (slaveA &&& slaveB) 7) :=
  ⟨⟨good_start _, by decide, by decide⟩, good_start _, by decide, by decide⟩

/-- The hypotheses of OnlyListedRegistersRead, but for the two runs. -/
abbrev AgreeOnRead (i : Instr) (s s' : State) : Prop :=
  s.cfg = s'.cfg ∧ s.line = s'.line ∧ (∀ a ∈ locationsRead i, hostRead a s = hostRead a s') ∧
    (readsBusState i = true → s.busState = s'.busState) ∧ (readsIdleBudget i = true → s.ibudget = s'.ibudget)

/-- OnlyListedRegistersRead: for `IDLEPOLL`, which writes `IBUDGET`, and for `SEARCH` and `CRC`, two states that differ in
registers the command does not read. -/
theorem test_witness_agree_more :
    AgreeOnRead .idlepoll { State.reset with budgetL := 5, budgetH := 1 }
      { State.reset with budgetL := 5, budgetH := 1, busState := .romCommand, ibudget := 7, curPos := 0x00, abuf := slaveA } ∧
    AgreeOnRead (.search true) two { two with wdata := 0xFF, rdata := 0xFF, crcv := 0x12, poly := 0x00, budgetL := 3 } ∧
    AgreeOnRead (.crc 8) { State.reset with abuf := slaveA }
      { State.reset with abuf := slaveA, busState := .awaitingIdle, ibudget := 7, curPos := 0x00, wdata := 0xFF } := by decide

/-- OnlyListedRegistersWritten: the results after which the table lists no `STATE` for a command that may write it. -/
theorem test_witness_unwritten : writesBusState .matchRom (after .matchRom State.reset).result = false ∧
    writesBusState .skip (after .skip State.reset).result = false ∧
    writesBusState .rdpwr (after .rdpwr State.reset).result = false ∧
    writesBusState (.search false) (after (.search false) { State.reset with curPos := 0x40 }).result = false := by decide

/-- OnlyListedRegistersRead: two states that differ in every register `SKIP` does not read. -/
theorem test_witness_agree :
    let s := { State.reset with busState := .romCommand }
    let s' := { State.reset with busState := .romCommand, wdata := 0xFF, rdata := 0xFF, curPos := 0x00, abuf := slaveA, ibudget := 7 }
    AgreeOnRead .skip s s' := by decide

/-! ## The reference environment answers -/

/-- A slave before a reset frame. -/
def waiting (rom : DeviceAddress) (alarm : Bool) : Slave := ⟨rom, alarm, false, false, .rom []⟩

def busAB : Bus := ⟨[waiting slaveA false, waiting slaveB false], 0⟩

/-- The trace of a search from `IDLE` whose pairs give this address. -/
theorem search_trace (s : State) (bits : List Bool) (a : Bool) (out : DeviceAddress) (hs : s.line = (start quick (levels bits) good).line)
    (hc : s.cfg = quick) (hb : s.busState = .idle) (hl : cursorLegal s.curPos.toInt = true)
    (hpair : ∀ j < 64, ¬ ((walked s a).bitAt quick (2 * j) = true ∧ (walked s a).bitAt quick (2 * j + 1) = true))
    (hout : ∀ j < 64, out.getLsbD j =
      searchBit s.curPos.toInt s.abuf j ((walked s a).bitAt quick (2 * j)) ((walked s a).bitAt quick (2 * j + 1))) :
    s.line.since (after (.search a) s).line = slotEvents quick
      ([.reset (.success 30 120)] ++ byteSlots (searchCommand quick a) ++ searchFrames quick (walked s a) out 64) := by
  have hgood : ({ s with busy := true } : State).GoodHandshake (shaken s) :=
    ⟨[], 30, 120, .inl ⟨by simp [hb], rfl⟩, by simp [hs, start, good, Line.pollAt], by simp [hc, quick, Config.default],
      by simp [hs, start, good, Line.pollAt], by simp [hc, quick, Config.default], by simp [shaken]⟩
  obtain ⟨hsucc, hline⟩ := (State.goodHandshake_iff _ _).mp hgood
  have hw : walked s a = ({ s with busy := true } : State).resetSeq.2.line.after quick (byteSlots (searchCommand quick a)) := by
    rw [hline, walked, hc]; rfl
  have hcfg : ({ s with busy := true } : State).resetSeq.2.cfg = quick := hc
  have hsel := searchSelected_line a ({ s with busy := true } : State).resetSeq.2 (walked s a) out (by rw [hcfg]; exact hw)
    (by rw [hcfg]; exact hpair) (by rw [hcfg]; exact hout)
  have hafter : (after (.search a) s).line = (searchSelected a ({ s with busy := true } : State).resetSeq.2).2.line := by
    have he := exec_next (exec_after (.search a) s)
    have hbody : searchBody a { s with busy := true } = searchSelected a ({ s with busy := true } : State).resetSeq.2 := by
      simp [searchBody, State.cursorPosition, hl, hsucc]
    rw [he, runCommand_line, bodyOf, hbody]
  have hwalk : walked s a = s.line.after quick ([.reset (.success 30 120)] ++ byteSlots (searchCommand quick a)) := by
    rw [walked, shaken, hc, Line.after_after]; rfl
  rw [hafter, hsel, hcfg, hwalk, Line.after_after, Line.since_after]

theorem busAB_searched : busAB.searched false = [slaveA, slaveB] := by rfl

theorem busAB_valid : ∀ d ∈ busAB.searched false, addressValid quick d = true := by
  rw [busAB_searched]
  intro d hd
  simp only [List.mem_cons, List.not_mem_nil, or_false] at hd
  rcases hd with rfl | rfl <;> decide

def nextCall : State := { start quick (levels (pairs [slaveA, slaveB] slaveA)) good with abuf := slaveB, curPos := 0x08 }

/-- R78: a read slot returns 0 if any active slave drives 0, beside one outside the spec too; that one alone may answer
either way; `busy` above 0 gives 0 whatever else happens. -/
theorem test_mayRead :
    let outside : Slave := ⟨slaveA, false, false, true, .deviceSpecific⟩
    let parasite : Slave := ⟨slaveB, false, true, true, .pwr⟩
    Bus.mayRead ⟨[outside, parasite], 0⟩ true = false ∧ Bus.mayRead ⟨[outside, parasite], 0⟩ false = true ∧
    Bus.mayRead ⟨[outside], 0⟩ true = true ∧ Bus.mayRead ⟨[outside], 0⟩ false = true ∧
    Bus.mayRead ⟨[outside], 1⟩ true = false ∧ Bus.mayRead ⟨[], 0⟩ false = false := by decide

/-- FreshSearchFindsLeastKey and FoundDeviceIsPresent: two slaves. -/
theorem test_witness_fresh : ∃ left, quick.Ok ∧ two.IdleReads 0 ∧ two.curPos = 0xFF ∧ busAB.busy = 0 ∧ busAB.searched false ≠ [] ∧
    (∀ d ∈ busAB.searched false, addressValid quick d = true) ∧
    exec (.search false) two = .next (after (.search false) two) ∧ (after (.search false) two).result = .ok ∧
    busAB.Answers quick (two.line.since (after (.search false) two).line) left := by
  have hrun : (Bus.run quick ([.reset (.success 30 120)] ++ byteSlots (searchCommand quick false) ++
      searchFrames quick (walked two false) slaveB 64) busAB).isSome = true := by decide
  obtain ⟨left, hleft⟩ := Option.isSome_iff_exists.mp hrun
  exact ⟨left, by decide, .inl ⟨by decide, rfl⟩, by decide, by decide, by decide, busAB_valid, exec_after _ _, by decide, _,
    by decide, search_trace two _ false slaveB rfl rfl rfl (by decide) (by decide) (by decide), hleft⟩

theorem slaveA_follows : NextInKey (busAB.searched false) slaveB slaveA := by
  have hlt : addressKey slaveB < addressKey slaveA := addressKey_lt (n := 8) (by decide) (by decide) (by decide) (by decide)
  rw [busAB_searched]
  refine ⟨by simp, hlt, fun x hx h => ?_⟩
  simp only [List.mem_cons, List.not_mem_nil, or_false] at hx
  rcases hx with rfl | rfl
  · exact Nat.le_refl _
  · exact absurd h (Nat.lt_irrefl _)

/-- SearchContinuesInKeyOrder: the call after that one. -/
theorem test_witness_continue : ∃ left, quick.Ok ∧ busAB.busy = 0 ∧
    (∀ d ∈ busAB.searched false, addressValid quick d = true) ∧
    ReturnedPosition (busAB.searched false) nextCall.abuf nextCall.curPos.toNat ∧ nextCall.curPos.toNat < 64 ∧
    nextCall.IdleReads 0 ∧ exec (.search false) nextCall = .next (after (.search false) nextCall) ∧
    busAB.Answers quick (nextCall.line.since (after (.search false) nextCall).line) left := by
  have hrun : (Bus.run quick ([.reset (.success 30 120)] ++ byteSlots (searchCommand quick false) ++
      searchFrames quick (walked nextCall false) slaveA 64) busAB).isSome = true := by decide
  obtain ⟨left, hleft⟩ := Option.isSome_iff_exists.mp hrun
  exact ⟨left, by decide, by decide, busAB_valid, .inr ⟨slaveA, slaveA_follows, by decide, by decide, by decide⟩, by decide,
    .inl ⟨by decide, rfl⟩, exec_after _ _, _, by decide,
    search_trace nextCall _ false slaveA rfl rfl rfl (by decide) (by decide) (by decide), hleft⟩

/-- AlarmSearchWithoutAlarm: two slaves, none in alarm (V58). -/
theorem test_witness_alarm : ∃ left,
    let s := start quick (levels [true, true]) good
    quick.Ok ∧ -1 ≤ s.curPos.toInt ∧ s.curPos.toInt ≤ 63 ∧ busAB.busy = 0 ∧ busAB.slaves ≠ [] ∧
    busAB.searched true = [] ∧ s.IdleReads 0 ∧ exec (.search true) s = .next (after (.search true) s) ∧
    busAB.Answers quick (s.line.since (after (.search true) s).line) left := by
  have hrun : (Bus.run quick ([.reset (.success 30 120)] ++ byteSlots 0xEC ++ [.read [.high], .read [.high]]) busAB).isSome =
      true := by decide
  obtain ⟨left, hleft⟩ := Option.isSome_iff_exists.mp hrun
  exact ⟨left, by decide, by decide, by decide, by decide, by decide, by decide, .inl ⟨by decide, rfl⟩, exec_after _ _, _,
    by decide, by decide, hleft⟩

/-- MatchSelectsExactlyTheAddress: after a reset frame, two slaves, one of them addressed. -/
def selecting : State := { State.reset with busState := .romCommand, abuf := slaveB }
def busReset : Bus := ⟨busAB.slaves.map Slave.afterReset, 0⟩

theorem test_witness_match : ∃ left, selecting.cfg.Ok ∧ selecting.busState = .romCommand ∧
    (∀ v ∈ busReset.slaves, v.active = true ∧ v.mode = .rom []) ∧
    exec .matchRom selecting = .next (after .matchRom selecting) ∧
    busReset.Answers selecting.cfg (selecting.line.since (after .matchRom selecting).line) left := by
  have hrun : (Bus.run .default (byteSlots 0x55 ++ addressSlots slaveB) busReset).isSome = true := by decide
  obtain ⟨left, hleft⟩ := Option.isSome_iff_exists.mp hrun
  have htrace : selecting.line.since (after .matchRom selecting).line =
      slotEvents .default (byteSlots 0x55 ++ addressSlots slaveB) := by rfl
  have hall : ∀ slot ∈ byteSlots 0x55 ++ addressSlots slaveB, slot.Complete selecting.cfg = true := by
    intro slot h
    rcases List.mem_append.mp h with h | h
    · exact writeSlots_complete _ _ slot h
    · obtain ⟨k, -, rfl⟩ := List.mem_map.mp h; rfl
  exact ⟨left, by decide, by decide, by decide, exec_after _ _, _, hall, htrace, hleft⟩

/-- ReadPowerFindsParasite: one addressed slave, with parasite power. -/
def asking : State := { start quick [.low] [] with busState := .functionCommand }
def busPower : Bus := ⟨[⟨slaveA, false, true, true, .func []⟩, waiting slaveB false], 0⟩

theorem test_witness_power : ∃ left, asking.cfg.Ok ∧ asking.busState = .functionCommand ∧ busPower.busy = 0 ∧
    (∀ v ∈ busPower.slaves, v.active = true → v.mode = .func []) ∧
    exec .rdpwr asking = .next (after .rdpwr asking) ∧
    busPower.Answers asking.cfg (asking.line.since (after .rdpwr asking).line) left := by
  have hrun : (Bus.run asking.cfg (byteSlots 0xB4 ++ [Slot.read [Level.low]]) busPower).isSome = true := by decide
  obtain ⟨left, hleft⟩ := Option.isSome_iff_exists.mp hrun
  have htrace : asking.line.since (after .rdpwr asking).line = slotEvents asking.cfg (byteSlots 0xB4 ++ [Slot.read [Level.low]]) := by rfl
  exact ⟨left, by decide, by decide, by decide, by decide, exec_after _ _, _, by decide, htrace, hleft⟩

end Sys2Proof.Tests
end

section
/-! PROOF. The statement of 00_scope.md about every command: it ends, with `BUSY` 0. -/

namespace Sys2Proof.Machine

open Sys2Proof

/-- Settles O45: every command is one `runCommand` of its body (`exec_eq`), and `runCommand` clears `BUSY` as it ends
(`runCommand_busy`; R16, R28), whatever the body did and whatever the line answered it. -/
theorem everyCommandEnds : Obligations.EveryCommandEnds := by
  intro i s
  exact ⟨runCommand (bodyOf i) s, exec_eq i s, runCommand_busy (bodyOf i) s⟩

end Sys2Proof.Machine
end

section
/-! SUPPORT. The register window under reads and writes (10_state.md R26, R37), location by location, and what a step makes of
the host's next action (R27, R285). -/

namespace Sys2Proof.Machine

open Sys2Proof

/-! ## What a location shows -/

/-- Location `a` of the window shows the same register contents in `t` as in `s` (R26): each register is asked for only if
`a` is its location. -/
structure SameAt (a : Nat) (s t : State) : Prop where
  status : a = 0x01 → t.statusByte = s.statusByte
  wdata : a = 0x02 → t.wdata = s.wdata
  rdata : a = 0x03 → t.rdata = s.rdata
  crcv : a = 0x04 → t.crcv = s.crcv
  poly : a = 0x05 → t.poly = s.poly
  curPos : a = 0x06 → t.curPos = s.curPos
  resPos : a = 0x07 → t.resPos = s.resPos
  budgetL : a = 0x08 → t.budgetL = s.budgetL
  budgetH : a = 0x09 → t.budgetH = s.budgetH
  abuf : 0x10 ≤ a → a < 0x18 → byteOf t.abuf (a - 0x10) = byteOf s.abuf (a - 0x10)
  rbuf : 0x18 ≤ a → a < 0x20 → byteOf t.rbuf (a - 0x18) = byteOf s.rbuf (a - 0x18)

theorem SameAt.refl (a : Nat) (s : State) : SameAt a s s := by constructor <;> intros <;> rfl

/-- A read of a location depends on nothing but the register there (R26). -/
theorem hostRead_eq_of_sameAt {a : Nat} {s t : State} (h : SameAt a s t) : hostRead a t = hostRead a s := by
  unfold hostRead
  split
  · exact h.status rfl
  · exact h.wdata rfl
  · exact h.rdata rfl
  · exact h.crcv rfl
  · exact h.poly rfl
  · exact h.curPos rfl
  · exact h.resPos rfl
  · exact h.budgetL rfl
  · exact h.budgetH rfl
  · split
    · rename_i ha; exact h.abuf ha.1 ha.2
    · split
      · rename_i ha; exact h.rbuf ha.1 ha.2
      · rfl

/-- Byte `j` of `ABUF` stands at location `0x10 + j` (R26). -/
theorem hostRead_abuf (s : State) (j : Nat) (hj : j < 8) : hostRead (0x10 + j) s = byteOf s.abuf j := by
  have hin : 0x10 ≤ 0x10 + j ∧ 0x10 + j < 0x18 := by omega
  unfold hostRead
  split
  case h_10 => rw [if_pos hin, Nat.add_sub_cancel_left]
  all_goals omega

/-- Byte `j` of `RBUF` stands at location `0x18 + j` (R26). -/
theorem hostRead_rbuf (s : State) (j : Nat) (hj : j < 8) : hostRead (0x18 + j) s = byteOf s.rbuf j := by
  have hnot : ¬ (0x10 ≤ 0x18 + j ∧ 0x18 + j < 0x18) := by omega
  have hin : 0x18 ≤ 0x18 + j ∧ 0x18 + j < 0x20 := by omega
  unfold hostRead
  split
  case h_10 => rw [if_neg hnot, if_pos hin, Nat.add_sub_cancel_left]
  all_goals omega

/-- The locations of `ABUF` are 0x10 to 0x17 (R26). -/
theorem mem_abufLocations {a : Nat} : a ∈ abufLocations ↔ 0x10 ≤ a ∧ a < 0x18 := by
  simp only [abufLocations, List.mem_cons, List.not_mem_nil, or_false]
  omega

/-- The locations of `RBUF` are 0x18 to 0x1F (R26). -/
theorem mem_rbufLocations {a : Nat} : a ∈ rbufLocations ↔ 0x18 ≤ a ∧ a < 0x20 := by
  simp only [rbufLocations, List.mem_cons, List.not_mem_nil, or_false]
  omega

/-- Two addresses with the same eight bytes are equal (R62). -/
theorem address_ext_bytes {a b : DeviceAddress} (h : ∀ j < 8, byteOf a j = byteOf b j) : a = b := by
  refine address_ext fun i hi => ?_
  have hbit : i % 8 < 8 := Nat.mod_lt _ (by decide)
  have hsplit : 8 * (i / 8) + i % 8 = i := Nat.div_add_mod i 8
  rw [← hsplit, ← byteOf_getLsbD a _ _ hbit, ← byteOf_getLsbD b _ _ hbit, h (i / 8) (by omega)]

/-- Two states whose `ABUF` locations read the same hold the same `ABUF`. -/
theorem abuf_eq_of_hostRead {s t : State} (h : ∀ a ∈ abufLocations, hostRead a s = hostRead a t) : s.abuf = t.abuf := by
  refine address_ext_bytes fun j hj => ?_
  rw [← hostRead_abuf s j hj, ← hostRead_abuf t j hj, h _ (mem_abufLocations.mpr (by omega))]

/-! ## Writes -/

/-- The locations that the host can write beside `CMD` (R26, column 'access'). -/
def writableLocations : List Nat := [0x02, 0x04, 0x05, 0x06, 0x08, 0x09] ++ abufLocations

/-- A write to a read-only or reserved location is ignored (R26, R37). -/
theorem hostStore_ignored {a : Nat} (v : Byte) (s : State) (ha : a ∉ writableLocations) : hostStore a v s = s := by
  simp only [writableLocations, List.mem_append, mem_abufLocations, List.mem_cons, List.not_mem_nil, or_false,
    not_or] at ha
  obtain ⟨⟨h2, h4, h5, h6, h8, h9⟩, hbuf⟩ := ha
  unfold hostStore
  split
  case h_7 => exact if_neg hbuf
  all_goals contradiction

/-- A writable location reads as it was written (R26). -/
theorem hostRead_hostStore_same {a : Nat} (v : Byte) (s : State) (ha : a ∈ writableLocations) :
    hostRead a (hostStore a v s) = v := by
  simp only [writableLocations, List.mem_append, mem_abufLocations, List.mem_cons, List.not_mem_nil, or_false] at ha
  rcases ha with (rfl | rfl | rfl | rfl | rfl | rfl) | ⟨hlo, hhi⟩
  case inr =>
    obtain ⟨j, rfl⟩ := Nat.exists_eq_add_of_le hlo
    have hj : j < 8 := by omega
    have hstore : hostStore (0x10 + j) v s = { s with abuf := setByte s.abuf j v } := by
      unfold hostStore
      split
      case h_7 => rw [if_pos ⟨hlo, hhi⟩, Nat.add_sub_cancel_left]
      all_goals omega
    rw [hstore, hostRead_abuf _ j hj]
    exact byteOf_setByte_same s.abuf j v hj
  all_goals rfl

/-- A write leaves what every other location shows alone (R26): only the register at `a` changes. -/
theorem hostStore_sameAt_other {a b : Nat} (v : Byte) (s : State) (hb : b ≠ a) : SameAt b s (hostStore a v s) := by
  have same := SameAt.refl b s
  unfold hostStore
  split
  · exact { same with wdata := fun h => absurd h hb }
  · exact { same with crcv := fun h => absurd h hb }
  · exact { same with poly := fun h => absurd h hb }
  · exact { same with curPos := fun h => absurd h hb }
  · exact { same with budgetL := fun h => absurd h hb }
  · exact { same with budgetH := fun h => absurd h hb }
  · split
    · exact { same with
        abuf := fun _ _ => byteOf_setByte_other s.abuf (b - 0x10) (a - 0x10) v (by omega) (by omega) }
    · exact same

/-- A write leaves `IBUDGET` alone. -/
theorem hostStore_ibudget (a : Nat) (v : Byte) (s : State) : (hostStore a v s).ibudget = s.ibudget := by
  unfold hostStore
  split
  case h_7 => split <;> rfl
  all_goals rfl

/-! ## What a step makes of the host's next action -/

section
variable {s : State} {a : Nat} {v : Byte} {rest : List HostAction}

theorem step_of_write (h : s.host = .write a v :: rest) (ha : a < 0x20) :
    step s = hostWrite a v { s with host := rest } := by
  simp only [step, hostTurn, h, hostAct, if_pos ha]

theorem step_of_write_outside (h : s.host = .write a v :: rest) (ha : 0x20 ≤ a) :
    step s = .fault (.hostAddressOutside a) := by
  simp only [step, hostTurn, h, hostAct, if_neg (Nat.not_lt.mpr ha)]

theorem step_of_read (h : s.host = .read a :: rest) (ha : a < 0x20) :
    step s = .next { s with host := rest, readback := (a, hostRead a s) :: s.readback } := by
  simp only [step, hostTurn, h, hostAct, if_pos ha]
  rfl

theorem step_of_read_outside (h : s.host = .read a :: rest) (ha : 0x20 ≤ a) :
    step s = .fault (.hostAddressOutside a) := by
  simp only [step, hostTurn, h, hostAct, if_neg (Nat.not_lt.mpr ha)]

theorem step_of_no_action (h : s.host = []) : step s = .next s := by
  simp only [step, hostTurn, h]

end

/-- While `BUSY` is 1 a write is ignored (R27, R273). -/
theorem hostWrite_of_busy (a : Nat) (v : Byte) {s : State} (h : s.busy = true) : hostWrite a v s = .next s := by
  simp only [hostWrite, h, if_true]

/-- A write beside `CMD` while no command runs is a register write (R26). -/
theorem hostWrite_of_register {a : Nat} (v : Byte) {s : State} (h : s.busy = false) (ha : 0x00 < a) :
    hostWrite a v s = .next (hostStore a v s) := by
  have hne : a ≠ 0x00 := by omega
  simp [hostWrite, h, hne]

/-- A write of a decoded word to `CMD` while no command runs is that command (R27, R90). -/
theorem hostWrite_of_command {w : Byte} {i : Instr} {s : State} (h : s.busy = false) (hw : decode w = .ok i) :
    hostWrite 0x00 w s = exec i s := by
  simp [hostWrite, h, issue, hw]

end Sys2Proof.Machine
end

section
/-! SUPPORT. What every command leaves in the registers, said once: the composite commands as one record update each
(44_rom_search.md R180 to R187; 46_direct_addressing.md R215), and for all commands the registers that R42 does not list as
written. -/

namespace Sys2Proof.Machine

open Sys2Proof

/-- A command leaves what its body left, with `BUSY` 0 and the body's result (R15, R28). -/
theorem exec_of_body {i : Instr} {s u : State} {r : Result} (h : bodyOf i { s with busy := true } = (r, u)) :
    exec i s = .next { u with busy := false, result := r } := by
  rw [exec_eq, runCommand, h]

/-! ## The composite commands, from issue to result -/

/-- Everything `SEARCH` leaves (R180): with an illegal cursor nothing is done; else only `RBUF`, `RES_POS`, `STATE`, the line
and the index of the free values are written, with a valid address and a position 0 to 64 after `OK` (R33, R187) and the
position -1 after a failure. -/
theorem searchBody_outcomes (a : Bool) (s : State) :
    searchBody a s = (.illegal, s) ∨
      ∃ (r : Result) (x : DeviceAddress) (p : Byte) (b : BusState) (l : Line) (n : Nat),
        searchBody a s = (r, { s with rbuf := x, resPos := p, busState := b, line := l, fresh := n }) ∧
          (r = .ok ∧ addressValid s.cfg x = true ∧ p.toNat ≤ 64 ∨
            r ∈ [.noDevices, .protocolError, .checksumError] ∧ p = 0xFF) := by
  rcases searchBody_cases a s with ⟨-, h⟩ | ⟨-, -, h⟩ | ⟨-, -, -, h⟩
  · exact .inl h
  · exact .inr ⟨_, _, _, _, _, _, h, .inr ⟨by simp, rfl⟩⟩
  · obtain ⟨x, p, n, slots, -, ⟨he, hv, hp, -⟩ | ⟨he, -⟩ | ⟨he, -⟩⟩ := searchSelected_outcomes a s.resetSeq.2
    · exact .inr ⟨_, _, _, _, _, _, h.trans he, .inl ⟨rfl, hv, hp⟩⟩
    · exact .inr ⟨_, _, _, _, _, _, h.trans he, .inr ⟨by simp, rfl⟩⟩
    · exact .inr ⟨_, _, _, _, _, _, h.trans he, .inr ⟨by simp, rfl⟩⟩

/-- Everything `RDROM` leaves (R215): only `RBUF`, `STATE`, the line and the index of the free values are written, with a
valid address after `OK` (R33). -/
theorem rdromBody_outcomes (s : State) :
    ∃ (r : Result) (x : DeviceAddress) (b : BusState) (l : Line) (n : Nat),
      rdromBody s = (r, { s with rbuf := x, busState := b, line := l, fresh := n }) ∧
        (r = .ok ∧ addressValid s.cfg x = true ∨ r ∈ [.noDevices, .checksumError]) := by
  rcases rdromBody_cases s with ⟨-, h⟩ | ⟨-, -, h⟩
  · exact ⟨_, _, _, _, _, h, .inr (by simp)⟩
  · obtain ⟨x, n, slots, -, -, ⟨he, hv⟩ | he⟩ := rdromSelected_outcomes s.resetSeq.2
    · exact ⟨_, _, _, _, _, h.trans he, .inl ⟨rfl, hv⟩⟩
    · exact ⟨_, _, _, _, _, h.trans he, .inr (by simp)⟩

/-! ## The gated commands -/

/-- The two outcomes of a gated command (R166): the body in its state, else nothing done. -/
theorem gated_cases (need : BusState) (body : State → Result × State) (s : State) :
    gated need body s = body s ∨ gated need body s = (.stateError, s) :=
  ite_eq_or_eq _ _ _

/-- `MATCH` writes `STATE` and the line, or nothing (R218). -/
theorem matchBody_outcomes (s : State) :
    (∃ l, matchBody s = (.ok, { s with busState := .functionCommand, line := l })) ∨ matchBody s = (.stateError, s) :=
  (gated_cases .romCommand _ s).imp_left fun h => ⟨_, h⟩

/-- `SKIP` writes `STATE` and the line, or nothing (R221). -/
theorem skipBody_outcomes (s : State) :
    (∃ l, skipBody s = (.ok, { s with busState := .functionCommand, line := l })) ∨ skipBody s = (.stateError, s) :=
  (gated_cases .romCommand _ s).imp_left fun h => ⟨_, h⟩

/-- `RDPWR` writes `RDATA`, `STATE` and the line, or nothing (R224). -/
theorem rdpwrBody_outcomes (s : State) :
    (∃ x l, rdpwrBody s = (.ok, { s with rdata := x, busState := .idle, line := l })) ∨
      rdpwrBody s = (.stateError, s) :=
  (gated_cases .functionCommand _ s).imp_left fun h => ⟨_, _, h⟩

/-! ## All commands: what is not listed as written is kept -/

/-- `t` has what `s` has in every register that R42 does not list as written by a command `i` that ends with `r`. -/
structure WritesOnlyListed (i : Instr) (r : Result) (s t : State) : Prop extends s.HostSideKept t where
  rdata : 0x03 ∉ locationsWritten i r → t.rdata = s.rdata
  crcv : 0x04 ∉ locationsWritten i r → t.crcv = s.crcv
  resPos : 0x07 ∉ locationsWritten i r → t.resPos = s.resPos
  rbuf : ¬ rbufLocations ⊆ locationsWritten i r → t.rbuf = s.rbuf
  busState : writesBusState i r = false → t.busState = s.busState
  ibudget : writesIdleBudget i = false → t.ibudget = s.ibudget

theorem WritesOnlyListed.refl (i : Instr) (r : Result) (s : State) : WritesOnlyListed i r s s := by
  constructor
  · constructor <;> rfl
  all_goals intro; rfl

/-- `SEARCH` writes `RES_POS` and `RBUF` whatever its result, `ILLEGAL` excepted (R42). -/
theorem locationsWritten_search (a : Bool) {r : Result} (h : r ≠ .illegal) :
    locationsWritten (.search a) r = 0x07 :: rbufLocations := by
  cases r
  case illegal => contradiction
  all_goals rfl

/-- `RES_POS` is listed as written for `SEARCH` only (R33, R42). -/
theorem search_of_writes_resPos {i : Instr} {r : Result} (h : 0x07 ∈ locationsWritten i r) : ∃ a, i = .search a := by
  unfold locationsWritten at h
  split at h
  case h_7 => exact ⟨_, rfl⟩
  all_goals simp [rbufLocations] at h

/-- `CRCV` is listed as written for `CRC` only (R31, R42). -/
theorem crc_of_writes_crcv {i : Instr} {r : Result} (h : 0x04 ∈ locationsWritten i r) : ∃ len, i = .crc len := by
  unfold locationsWritten at h
  split at h
  case h_5 => exact ⟨_, rfl⟩
  all_goals simp [rbufLocations] at h

/-- The body of every command writes only what R42 lists for it and its result. -/
theorem bodyOf_writesOnlyListed (i : Instr) (s : State) : WritesOnlyListed i (bodyOf i s).1 s (bodyOf i s).2 := by
  have kept := fun r => WritesOnlyListed.refl i r s
  cases i with
  | reset => exact { kept .ok with busState := nofun }
  | wbit v => exact { kept .ok with }
  | rbit => exact { kept .ok with rdata := fun h => (h (.head _)).elim }
  | wbyte => exact { kept .ok with }
  | rbyte => exact { kept .ok with rdata := fun h => (h (.head _)).elim }
  | search a =>
    simp only [bodyOf]
    rcases searchBody_outcomes a s with h | ⟨r, x, p, b, l, n, h, hr⟩
    · rw [h]; exact kept .illegal
    · have hne : r ≠ .illegal := by
        rcases hr with ⟨rfl, -⟩ | ⟨hr, -⟩
        · decide
        · rintro rfl; simp at hr
      have hw := locationsWritten_search a hne
      rw [h]
      exact { kept r with
        resPos := fun hn => absurd (by simp [hw]) hn
        rbuf := fun hn => absurd (by simp [hw]) hn
        busState := fun hn => absurd (by simpa [writesBusState] using hn) hne }
  | rdrom =>
    simp only [bodyOf]
    obtain ⟨r, x, b, l, n, h, -⟩ := rdromBody_outcomes s
    rw [h]
    exact { kept r with
      rbuf := fun hn => absurd (by simp [locationsWritten]) hn
      busState := nofun }
  | matchRom =>
    simp only [bodyOf]
    obtain ⟨l, h⟩ | h := matchBody_outcomes s
    · rw [h]; exact { kept .ok with busState := nofun }
    · rw [h]; exact kept .stateError
  | skip =>
    simp only [bodyOf]
    obtain ⟨l, h⟩ | h := skipBody_outcomes s
    · rw [h]; exact { kept .ok with busState := nofun }
    · rw [h]; exact kept .stateError
  | rdpwr =>
    simp only [bodyOf]
    obtain ⟨x, l, h⟩ | h := rdpwrBody_outcomes s
    · rw [h]; exact { kept .ok with rdata := fun h => (h (.head _)).elim, busState := nofun }
    · rw [h]; exact kept .stateError
  | idlepoll => exact { kept .ok with busState := nofun, ibudget := nofun }
  | crc len =>
    simp only [bodyOf, crcBody]
    split
    · exact kept .illegal
    · exact { kept .ok with crcv := fun h => (h (.head _)).elim }
  | getst => exact { kept .ok with rdata := fun h => (h (.head _)).elim }

/-- Every command writes only what R42 lists for it and its result. -/
theorem exec_writesOnlyListed {i : Instr} {s t : State} (h : exec i s = .next t) : WritesOnlyListed i t.result s t := by
  obtain rfl := exec_next h
  exact { bodyOf_writesOnlyListed i { s with busy := true } with }

/-- What R42 does not list, `STATUS` apart, the host reads as before. -/
theorem WritesOnlyListed.sameAt {i : Instr} {r : Result} {s t : State} (h : WritesOnlyListed i r s t) {a : Nat}
    (hstatus : a ≠ 0x01) (ha : a ∉ locationsWritten i r) : SameAt a s t where
  status := fun he => absurd he hstatus
  wdata := fun _ => h.wdata
  rdata := fun he => h.rdata (he ▸ ha)
  crcv := fun he => h.crcv (he ▸ ha)
  poly := fun _ => h.poly
  curPos := fun _ => h.curPos
  resPos := fun he => h.resPos (he ▸ ha)
  budgetL := fun _ => h.budgetL
  budgetH := fun _ => h.budgetH
  abuf := fun _ _ => by rw [h.abuf]
  rbuf := fun hlo hhi => by rw [h.rbuf fun hsub => ha (hsub (mem_rbufLocations.mpr ⟨hlo, hhi⟩))]

/-- The only command that writes `IBUDGET` is `IDLEPOLL` (R21, R42). -/
theorem writesIdleBudget_eq_false {i : Instr} (h : i ≠ .idlepoll) : writesIdleBudget i = false := by
  cases i
  case idlepoll => contradiction
  all_goals rfl

/-! ## No command ends LF_HELD_TOO_LONG -/

/-- No body has the result `LF_HELD_TOO_LONG` (R162). -/
theorem bodyOf_ne_heldTooLong (i : Instr) (s : State) : (bodyOf i s).1 ≠ .lfHeldTooLong := by
  cases i with
  | reset => simp only [bodyOf, resetBody]; cases s.resetSeq.1 <;> simp [resultOfReset]
  | wbit | rbit | wbyte | rbyte | idlepoll | getst => exact nofun
  | search a =>
    simp only [bodyOf]
    obtain h | ⟨r, x, p, b, l, n, h, ⟨rfl, -⟩ | ⟨hr, -⟩⟩ := searchBody_outcomes a s
    · simp [h]
    · simp [h]
    · rw [h]; rintro rfl; simp at hr
  | rdrom =>
    simp only [bodyOf]
    obtain ⟨r, x, b, l, n, h, ⟨rfl, -⟩ | hr⟩ := rdromBody_outcomes s
    · simp [h]
    · rw [h]; rintro rfl; simp at hr
  | matchRom => obtain ⟨l, h⟩ | h := matchBody_outcomes s <;> simp [bodyOf, h]
  | skip => obtain ⟨l, h⟩ | h := skipBody_outcomes s <;> simp [bodyOf, h]
  | rdpwr => obtain ⟨x, l, h⟩ | h := rdpwrBody_outcomes s <;> simp [bodyOf, h]
  | crc len => simp only [bodyOf, crcBody]; split <;> simp

end Sys2Proof.Machine
end

section
/-! PROOF. What commands write (10_state.md R42), what the result registers hold (R33, R36), and the invariant over steps. -/

namespace Sys2Proof.Machine

open Sys2Proof

/-! ## Registers written and registers kept -/

/-- Settles O48: every command writes only what the table lists for it and its result (`exec_writesOnlyListed`), so every
other location shows what it showed (`WritesOnlyListed.sameAt`). -/
theorem onlyListedRegistersWritten : Obligations.OnlyListedRegistersWritten := by
  intro i s t h
  have hw := exec_writesOnlyListed h
  exact ⟨fun a h1 ha => hostRead_eq_of_sameAt (hw.sameAt h1 ha), hw.busState, hw.ibudget⟩

/-- Settles O47: the same table of writes lists none of these registers for any command. -/
theorem hostRegistersKept : Obligations.HostRegistersKept := by
  intro i s t h
  have hw := exec_writesOnlyListed h
  exact ⟨hw.toHostSideKept, fun hi => hw.ibudget (writesIdleBudget_eq_false hi)⟩

/-! ## The result registers of the composite commands -/

/-- `SEARCH` and its result registers (R33, R187, R188). -/
theorem search_resultRegisters {s t : State} {a : Bool} (h : exec (.search a) s = .next t) :
    (t.result = .ok → addressValid s.cfg t.rbuf = true ∧ t.resPos.toNat ≤ 64) ∧
      (t.result ≠ .ok → t.result ≠ .illegal → t.resPos = 0xFF) ∧
      (t.result = .illegal → t.rbuf = s.rbuf ∧ t.resPos = s.resPos) := by
  obtain rfl := exec_next h
  simp only [runCommand_result, runCommand_rbuf, runCommand_resPos, bodyOf]
  obtain h | ⟨r, x, p, b, l, n, h, ⟨rfl, hv, hp⟩ | ⟨hr, hp⟩⟩ := searchBody_outcomes a { s with busy := true }
  · rw [h]; exact ⟨nofun, fun _ hn => absurd rfl hn, fun _ => ⟨rfl, rfl⟩⟩
  · rw [h]; exact ⟨fun _ => ⟨hv, hp⟩, fun hn => absurd rfl hn, nofun⟩
  · rw [h]
    refine ⟨?_, fun _ _ => hp, ?_⟩ <;> (rintro rfl; simp at hr)

/-- Settles O35: the outcomes of the two composite commands (`searchBody_outcomes`, `rdromBody_outcomes`), read off at `RBUF`
and `RES_POS`. -/
theorem searchResultRegisters : Obligations.SearchResultRegisters := by
  refine ⟨fun s t a h => search_resultRegisters h, fun s t h => ?_⟩
  obtain rfl := exec_next h
  simp only [runCommand_result, runCommand_rbuf, runCommand_resPos, bodyOf]
  obtain ⟨r, x, b, l, n, h, ⟨rfl, hv⟩ | hr⟩ := rdromBody_outcomes { s with busy := true }
  · rw [h]; exact ⟨rfl, fun _ => hv⟩
  · rw [h]
    refine ⟨rfl, ?_⟩
    rintro rfl; simp at hr

/-! ## The invariant -/

/-- Settles O53: after reset the trace is empty, so it is no frames at all, and every other part is a value of R43. -/
theorem resetMeetsInvariant : Obligations.ResetMeetsInvariant :=
  ⟨⟨rfl, rfl⟩, ⟨[], nofun, rfl⟩, .inl rfl, nofun⟩

/-- A command leaves a legal `RES_POS` legal (R33): only `SEARCH` writes it, -1 or a position 0 to 64. -/
theorem exec_keeps_resPosLegal {i : Instr} {s t : State} (h : exec i s = .next t) (hs : s.ResPosLegal) :
    t.ResPosLegal := by
  by_cases hw : 0x07 ∈ locationsWritten i t.result
  · obtain ⟨a, rfl⟩ := search_of_writes_resPos hw
    obtain ⟨hok, hfailed, hillegal⟩ := search_resultRegisters h
    by_cases h1 : t.result = .ok
    · exact .inr (hok h1).2
    by_cases h2 : t.result = .illegal
    · rw [State.ResPosLegal, (hillegal h2).2]; exact hs
    · exact .inl (hfailed h1 h2)
  · rw [State.ResPosLegal, (exec_writesOnlyListed h).resPos hw]; exact hs

/-- A command keeps the invariant: it appends whole frames, ends with the line released, and no result is
`LF_HELD_TOO_LONG`. -/
theorem exec_keeps_inv {i : Instr} {s t : State} (h : exec i s = .next t) (hs : s.Inv) : t.Inv := by
  obtain ⟨⟨-, hdrive⟩, ⟨before, hbefore, htrace⟩, hpos, -⟩ := hs
  have hlegal := exec_keeps_resPosLegal h hpos
  obtain rfl := exec_next h
  obtain ⟨slots, hslots, hline, hcfg⟩ := bodyOf_frames i { s with busy := true }
  refine ⟨⟨rfl, ?_⟩, ⟨before ++ slots, ?_, ?_⟩, hlegal, bodyOf_ne_heldTooLong i _⟩
  · rw [runCommand_line, hline]
    exact Line.after_released s.cfg s.line slots hdrive
  · rw [runCommand_cfg, hcfg]
    exact List.forall_mem_append.mpr ⟨hbefore, hslots⟩
  · rw [runCommand_line, runCommand_cfg, hline, hcfg, Line.after_events, htrace, slotEvents_append]

/-- Settles O54: a step is a command, which keeps the invariant (`exec_keeps_inv`), or it leaves the line and `RES_POS` alone
and ends with the old result or `ILLEGAL` (`step_cases`). -/
theorem stepKeepsInvariant : Obligations.StepKeepsInvariant := by
  intro s t hs h
  rcases step_cases h with ⟨w, i, rest, -, -, -, hexec⟩ | ⟨hline, hcfg, -, hpos, hbusy, hresult⟩
  · exact exec_keeps_inv hexec hs
  · obtain ⟨⟨hb, hdrive⟩, hframes, hlegal, hheld⟩ := hs
    refine ⟨⟨hbusy hb, hline ▸ hdrive⟩, ?_, ?_, ?_⟩
    · rw [State.WholeFrames, hline, hcfg]; exact hframes
    · rw [State.ResPosLegal, hpos]; exact hlegal
    · rcases hresult with h | h <;> rw [State.NeverHeldTooLong, h]
      · exact hheld
      · exact nofun

end Sys2Proof.Machine
end

section
/-! PROOF. What commands read (10_state.md R42): two runs from states that agree on the registers listed as read agree on all
that is listed as written. -/

namespace Sys2Proof.Machine

open Sys2Proof

/-! ## What two runs agree on -/

/-- Two outcomes of the command `i` agree on its result, on the line and on every register that R42 lists as written; but for
`RBUF` after a failure (R36). -/
structure SameWrites (i : Instr) (o o' : Result × State) : Prop where
  result : o.1 = o'.1
  line : o.2.line = o'.2.line
  busState : writesBusState i o.1 = true → o.2.busState = o'.2.busState
  ibudget : writesIdleBudget i = true → o.2.ibudget = o'.2.ibudget
  window : ∀ a ∈ locationsWritten i o.1, o.1 = .ok ∨ a ∉ rbufLocations → hostRead a o.2 = hostRead a o'.2

/-- The end of a command changes no location but that of `STATUS` (R28). -/
theorem hostRead_runCommand (body : State → Result × State) (s : State) {a : Nat} (ha : a ≠ 0x01) :
    hostRead a (runCommand body s) = hostRead a (body { s with busy := true }).2 :=
  hostRead_eq_of_sameAt { SameAt.refl a (body { s with busy := true }).2 with status := fun h => absurd h ha }

/-- `BUSY` shows at the location of `STATUS` only (R28). -/
theorem hostRead_setBusy (b : Bool) (s : State) {a : Nat} (ha : a ≠ 0x01) : hostRead a { s with busy := b } = hostRead a s :=
  hostRead_eq_of_sameAt { SameAt.refl a s with status := fun h => absurd h ha }

/-- No command reads `STATUS` (R42). -/
theorem ne_status_of_mem_locationsRead {i : Instr} {a : Nat} (h : a ∈ locationsRead i) : a ≠ 0x01 := by
  rintro rfl
  cases i <;> simp [locationsRead, abufLocations] at h

/-- `STATUS` is in no row of the table (R42). -/
theorem ne_status_of_mem_locationsWritten {i : Instr} {r : Result} {a : Nat} (h : a ∈ locationsWritten i r) :
    a ≠ 0x01 := by
  rintro rfl
  unfold locationsWritten at h
  split at h <;> simp [rbufLocations] at h

/-- Two states with the same `RBUF` show it at its locations. -/
theorem hostRead_eq_of_rbuf {s t : State} (h : s.rbuf = t.rbuf) {a : Nat} (ha : a ∈ rbufLocations) :
    hostRead a s = hostRead a t := by
  obtain ⟨hlo, hhi⟩ := mem_rbufLocations.mp ha
  obtain ⟨j, rfl⟩ := Nat.exists_eq_add_of_le hlo
  rw [hostRead_rbuf s j (by omega), hostRead_rbuf t j (by omega), h]

/-- A window of one location agrees when that location does. -/
theorem window_single {r : Result} {a : Nat} {s t : State} (h : hostRead a s = hostRead a t) :
    ∀ b ∈ [a], r = .ok ∨ b ∉ rbufLocations → hostRead b s = hostRead b t :=
  fun _ hb _ => List.mem_singleton.mp hb ▸ h

/-! ## The handshake and the composite commands -/

/-- The handshake reads `STATE`, `IBUDGET`, the parameters and the line, nothing else (R145, R150). -/
theorem State.resetSeq_congr {s s' : State} (hcfg : s.cfg = s'.cfg) (hline : s.line = s'.line)
    (hstate : s.busState = s'.busState) (hbudget : s.ibudget = s'.ibudget) :
    s.resetSeq.1 = s'.resetSeq.1 ∧ s.resetSeq.2.busState = s'.resetSeq.2.busState ∧
      s.resetSeq.2.line = s'.resetSeq.2.line := by
  simp only [State.resetSeq, hcfg, hline, hstate, hbudget, and_self]

/-- The result registers of `SEARCH` agree when `RES_POS` does and, after `OK`, `RBUF`. -/
theorem search_window {r : Result} {s s' : State} (hpos : s.resPos = s'.resPos) (hbuf : r = .ok → s.rbuf = s'.rbuf) :
    ∀ b ∈ 0x07 :: rbufLocations, r = .ok ∨ b ∉ rbufLocations → hostRead b s = hostRead b s' := by
  intro b hb hor
  rcases List.mem_cons.mp hb with rfl | hb
  · exact hpos
  · exact hostRead_eq_of_rbuf (hbuf (hor.resolve_right (not_not_intro hb))) hb

/-- After the handshake `SEARCH` reads `CUR_POS` and `ABUF`, the parameters and the line (R180). -/
theorem searchSelected_sameWrites (a : Bool) {s s' : State} (hcfg : s.cfg = s'.cfg) (hline : s.line = s'.line)
    (hcur : s.curPos = s'.curPos) (habuf : s.abuf = s'.abuf) :
    SameWrites (.search a) (searchSelected a s) (searchSelected a s') := by
  simp only [searchSelected, State.cursorPosition, hcfg, hline, hcur, habuf]
  split
  · exact ⟨rfl, rfl, fun _ => rfl, nofun, search_window rfl nofun⟩
  · split
    · exact ⟨rfl, rfl, fun _ => rfl, nofun, search_window rfl fun _ => rfl⟩
    · exact ⟨rfl, rfl, fun _ => rfl, nofun, search_window rfl nofun⟩

/-- `SEARCH` reads `CUR_POS` and `ABUF` beside what its handshake reads (R42, R180). -/
theorem searchBody_sameWrites (a : Bool) {s s' : State} (hcfg : s.cfg = s'.cfg) (hline : s.line = s'.line)
    (hstate : s.busState = s'.busState) (hbudget : s.ibudget = s'.ibudget) (hcur : s.curPos = s'.curPos)
    (habuf : s.abuf = s'.abuf) : SameWrites (.search a) (searchBody a s) (searchBody a s') := by
  obtain ⟨hr, hb, hl⟩ := State.resetSeq_congr hcfg hline hstate hbudget
  simp only [searchBody, State.cursorPosition, hcur, hr]
  by_cases hc : cursorLegal s'.curPos.toInt = true
  · simp only [hc, if_true]
    split
    · exact searchSelected_sameWrites a hcfg hl hcur habuf
    · exact ⟨rfl, hl, fun _ => hb, nofun, search_window rfl nofun⟩
  · simp only [hc]
    exact ⟨rfl, hline, nofun, nofun, nofun⟩

/-- `RDROM` reads what its handshake reads (R42, R215). -/
theorem rdromBody_sameWrites {s s' : State} (hcfg : s.cfg = s'.cfg) (hline : s.line = s'.line)
    (hstate : s.busState = s'.busState) (hbudget : s.ibudget = s'.ibudget) :
    SameWrites .rdrom (rdromBody s) (rdromBody s') := by
  obtain ⟨hr, hb, hl⟩ := State.resetSeq_congr hcfg hline hstate hbudget
  have hcfg' : s.resetSeq.2.cfg = s'.resetSeq.2.cfg := hcfg
  simp only [rdromBody, hr]
  split
  · simp only [rdromSelected, hcfg', hl]
    split
    · exact ⟨rfl, rfl, fun _ => rfl, nofun, fun b hb _ => hostRead_eq_of_rbuf (by rfl) hb⟩
    · exact ⟨rfl, rfl, fun _ => rfl, nofun, fun b hb hor => absurd hb (hor.resolve_left nofun)⟩
  · exact ⟨rfl, hl, fun _ => hb, nofun, fun b hb hor => absurd hb (hor.resolve_left nofun)⟩

/-! ## All commands -/

/-- The table of reads (R42): what a command writes depends on the registers listed for it, the parameters and the line. -/
theorem bodyOf_sameWrites (i : Instr) {s s' : State} (hcfg : s.cfg = s'.cfg) (hline : s.line = s'.line)
    (hread : ∀ a ∈ locationsRead i, hostRead a s = hostRead a s')
    (hstate : readsBusState i = true → s.busState = s'.busState)
    (hbudget : readsIdleBudget i = true → s.ibudget = s'.ibudget) :
    SameWrites i (bodyOf i s) (bodyOf i s') := by
  cases i with
  | reset =>
    obtain ⟨hr, hb, hl⟩ := State.resetSeq_congr hcfg hline (hstate rfl) (hbudget rfl)
    exact ⟨congrArg resultOfReset hr, hl, fun _ => hb, nofun, nofun⟩
  | wbit v =>
    simp only [bodyOf, wbitBody, hcfg, hline]
    exact ⟨rfl, rfl, nofun, nofun, nofun⟩
  | rbit =>
    simp only [bodyOf, rbitBody, hcfg, hline]
    exact ⟨rfl, rfl, nofun, nofun, window_single rfl⟩
  | wbyte =>
    have hw : s.wdata = s'.wdata := hread 0x02 (.head _)
    simp only [bodyOf, wbyteBody, hcfg, hline, hw]
    exact ⟨rfl, rfl, nofun, nofun, nofun⟩
  | rbyte =>
    simp only [bodyOf, rbyteBody, hcfg, hline]
    exact ⟨rfl, rfl, nofun, nofun, window_single rfl⟩
  | search a =>
    exact searchBody_sameWrites a hcfg hline (hstate rfl) (hbudget rfl) (hread 0x06 (.head _))
      (abuf_eq_of_hostRead fun b hb => hread b (.tail _ hb))
  | rdrom => exact rdromBody_sameWrites hcfg hline (hstate rfl) (hbudget rfl)
  | matchRom =>
    have ha := abuf_eq_of_hostRead hread
    simp only [bodyOf, matchBody, gated, hstate rfl, hcfg, hline, ha]
    split
    · exact ⟨rfl, rfl, fun _ => rfl, nofun, nofun⟩
    · exact ⟨rfl, hline, nofun, nofun, nofun⟩
  | skip =>
    simp only [bodyOf, skipBody, gated, hstate rfl, hcfg, hline]
    split
    · exact ⟨rfl, rfl, fun _ => rfl, nofun, nofun⟩
    · exact ⟨rfl, hline, nofun, nofun, nofun⟩
  | rdpwr =>
    simp only [bodyOf, rdpwrBody, gated, hstate rfl, hcfg, hline]
    split
    · exact ⟨rfl, rfl, fun _ => rfl, nofun, window_single rfl⟩
    · exact ⟨rfl, hline, nofun, nofun, nofun⟩
  | idlepoll =>
    have hl : s.budgetL = s'.budgetL := hread 0x08 (.head _)
    have hh : s.budgetH = s'.budgetH := hread 0x09 (.tail _ (.head _))
    simp only [bodyOf, idlepollBody, State.budget, hl, hh]
    exact ⟨rfl, hline, fun _ => rfl, fun _ => rfl, nofun⟩
  | crc len =>
    have hc : s.crcv = s'.crcv := hread 0x04 (.head _)
    have hp : s.poly = s'.poly := hread 0x05 (.tail _ (.head _))
    have ha := abuf_eq_of_hostRead fun b hb => hread b (.tail _ (.tail _ hb))
    simp only [bodyOf, crcBody, State.crcData, hc, hp, ha]
    split
    · exact ⟨rfl, hline, nofun, nofun, nofun⟩
    · exact ⟨rfl, hline, nofun, nofun, window_single rfl⟩
  | getst =>
    simp only [bodyOf, getstBody, hstate rfl]
    exact ⟨rfl, hline, nofun, nofun, window_single rfl⟩

/-- Settles O49: the bodies of the two runs agree on everything listed (`bodyOf_sameWrites`), and the end of a command adds
only `STATUS`. -/
theorem onlyListedRegistersRead : Obligations.OnlyListedRegistersRead := by
  intro i s s' t t' hcfg hline hread hstate hbudget h h'
  obtain rfl := exec_next h
  obtain rfl := exec_next h'
  have hsame : SameWrites i (bodyOf i { s with busy := true }) (bodyOf i { s' with busy := true }) := by
    refine bodyOf_sameWrites i hcfg hline (fun a ha => ?_) hstate hbudget
    have hne := ne_status_of_mem_locationsRead ha
    rw [hostRead_setBusy true s hne, hostRead_setBusy true s' hne]
    exact hread a ha
  refine ⟨hsame.result, hsame.line, hsame.busState, hsame.ibudget, fun a ha hor => ?_⟩
  have hne := ne_status_of_mem_locationsWritten ha
  rw [hostRead_runCommand _ _ hne, hostRead_runCommand _ _ hne]
  exact hsame.window a ha hor

end Sys2Proof.Machine
end

section
/-! PROOF. What the composite commands do not read: the cursor bits above the position (44_rom_search.md R194) and the
registers `CRCV` and `POLY` (R31, R187); and the handshake they begin with (R182, R215). -/

namespace Sys2Proof.Machine

open Sys2Proof

/-! ## Cursor bits that the walk does not read -/

/-- Two cursors that agree below the position `last` and below bit 64 (R35). -/
def AgreeBelow (last : Int) (x y : DeviceAddress) : Prop := ∀ i : Nat, i < 64 → (i : Int) < last → x.getLsbD i = y.getLsbD i

/-- The direction at bit `i` reads the cursor's bit only below the position (R184). -/
theorem searchChoice_congr {last : Int} {x y : DeviceAddress} (h : AgreeBelow last x y) {i : Nat} (hi : i < 64)
    (mark : Nat) (b nb : Bool) : searchChoice last x i mark b nb = searchChoice last y i mark b nb := by
  unfold searchChoice conflictChoice
  by_cases hlast : (i : Int) < last
  · rw [h i hi hlast]
  · by_cases heq : (i : Int) = last
    · simp only [if_pos heq]
    · simp only [if_neg heq, if_pos (show last < (i : Int) by omega)]

/-- So does the walk over all bits (R194). -/
theorem searchWalk_congr (c : Config) {last : Int} {x y : DeviceAddress} (h : AgreeBelow last x y) (n i : Nat) (f : Found)
    (l : Line) (hn : i + n ≤ 64) : searchWalk c last x n i f l = searchWalk c last y n i f l := by
  induction n generalizing i f l with
  | zero => rfl
  | succ n ih =>
    simp only [searchWalk, searchChoice_congr h (show i < 64 by omega)]
    split
    · rfl
    · exact ih _ _ _ (by omega)

/-! ## Registers that the composite commands do not read -/

/-- `s` with another cursor in `ABUF` and other values in `CRCV` and `POLY`. -/
def State.withUnread (s : State) (other : DeviceAddress) (x y : Byte) : State :=
  { s with abuf := other, crcv := x, poly := y }

/-- The outcome with another cursor in `ABUF` and other values in `CRCV` and `POLY`. -/
def outcomeWithUnread (o : Result × State) (other : DeviceAddress) (x y : Byte) : Result × State :=
  (o.1, o.2.withUnread other x y)

section
variable (s : State) (other : DeviceAddress) (x y : Byte)

@[simp] theorem State.withUnread_cfg : (s.withUnread other x y).cfg = s.cfg := rfl
@[simp] theorem State.withUnread_line : (s.withUnread other x y).line = s.line := rfl
@[simp] theorem State.withUnread_abuf : (s.withUnread other x y).abuf = other := rfl
@[simp] theorem State.withUnread_cursorPosition : (s.withUnread other x y).cursorPosition = s.cursorPosition := rfl
@[simp] theorem State.withUnread_resetSeq :
    (s.withUnread other x y).resetSeq = (s.resetSeq.1, s.resetSeq.2.withUnread other x y) := rfl

/-- After its handshake `SEARCH` reads neither `CRCV` and `POLY` nor the cursor bits from the position on (R187, R194). -/
theorem searchSelected_withUnread (a : Bool) (h : AgreeBelow s.cursorPosition other s.abuf) :
    searchSelected a (s.withUnread other x y) = outcomeWithUnread (searchSelected a s) other x y := by
  simp only [searchSelected, State.withUnread_cfg, State.withUnread_line, State.withUnread_abuf,
    State.withUnread_cursorPosition, searchWalk_congr s.cfg h 64 0 ⟨0, 64⟩ _ le_rfl]
  generalize searchWalk s.cfg s.cursorPosition s.abuf 64 0 ⟨0, 64⟩ _ = walk
  obtain ⟨_ | found, l⟩ := walk
  · rfl
  · by_cases hv : addressValid s.cfg found.address = true
    · simp only [hv, if_true]; rfl
    · simp only [hv]; rfl

/-- Neither does `SEARCH` from its issue on. -/
theorem searchBody_withUnread (a : Bool) (h : AgreeBelow s.cursorPosition other s.abuf) :
    searchBody a (s.withUnread other x y) = outcomeWithUnread (searchBody a s) other x y := by
  simp only [searchBody, State.withUnread_cursorPosition, State.withUnread_resetSeq]
  by_cases hc : cursorLegal s.cursorPosition = true
  · by_cases hr : s.resetSeq.1 = .success
    · simp only [hc, hr, if_true]
      exact searchSelected_withUnread s.resetSeq.2 other x y a h
    · simp only [hc, hr, if_true]; rfl
  · simp only [hc]; rfl

/-- After its handshake `RDROM` reads none of `CRCV`, `POLY` and `ABUF` (R187, R215). -/
theorem rdromSelected_withUnread :
    rdromSelected (s.withUnread other x y) = outcomeWithUnread (rdromSelected s) other x y := by
  obtain ⟨out, hbits, he⟩ := rdromSelected_cases s _ rfl
  obtain ⟨out', hbits', he'⟩ := rdromSelected_cases (s.withUnread other x y) _ rfl
  obtain rfl : out' = out := address_ext fun i hi => (hbits' i hi).trans (hbits i hi).symm
  simp only [he, he', State.withUnread_cfg, State.withUnread_line]
  by_cases hv : addressValid s.cfg out' = true
  · simp only [hv, if_true]; rfl
  · simp only [hv]; rfl

/-- Neither does it from its issue on. -/
theorem rdromBody_withUnread : rdromBody (s.withUnread other x y) = outcomeWithUnread (rdromBody s) other x y := by
  simp only [rdromBody, State.withUnread_resetSeq]
  by_cases hr : s.resetSeq.1 = .success
  · simp only [hr, if_true]
    exact rdromSelected_withUnread s.resetSeq.2 other x y
  · simp only [hr]; rfl

/-- A body that does not read these registers makes a command that does not. -/
theorem exec_withUnread (i : Instr)
    (h : bodyOf i ({ s with busy := true }.withUnread other x y) =
      outcomeWithUnread (bodyOf i { s with busy := true }) other x y) :
    exec i (s.withUnread other x y) = .next ((runCommand (bodyOf i) s).withUnread other x y) := by
  have hbusy : { s.withUnread other x y with busy := true } = { s with busy := true }.withUnread other x y := rfl
  rw [exec_eq, runCommand, hbusy, h]
  rfl

end

/-- Settles O34: only a conflict below the position reads the cursor's bit (`searchChoice_congr`), so the walk and with it the
command go on alike with the other cursor. -/
theorem searchReadsOnlyBitsBelowCursor : Obligations.SearchReadsOnlyBitsBelowCursor := by
  intro s t a other hagree h
  have hkept := exec_writesOnlyListed h
  have hpoly : t.poly = s.poly := hkept.poly
  have hcrcv : t.crcv = s.crcv := hkept.crcv fun hw => by
    obtain ⟨len, hi⟩ := crc_of_writes_crcv hw
    cases hi
  obtain rfl := exec_next h
  have hbody := searchBody_withUnread { s with busy := true } other s.crcv s.poly a hagree
  refine (exec_withUnread s other s.crcv s.poly (.search a) hbody).trans ?_
  rw [State.withUnread, ← hcrcv, ← hpoly]

/-- Settles O40: `CRCV` and `POLY` are read neither by the handshake nor by the walk, and the address check is made under the
parameters (R203). -/
theorem addressCheckIgnoresRegisters : Obligations.AddressCheckIgnoresRegisters := by
  intro s t i x y hi h
  have habuf : t.abuf = s.abuf := (exec_writesOnlyListed h).abuf
  obtain rfl := exec_next h
  have hbody : bodyOf i ({ s with busy := true }.withUnread s.abuf x y) =
      outcomeWithUnread (bodyOf i { s with busy := true }) s.abuf x y := by
    rcases hi with rfl | ⟨a, rfl⟩
    · exact rdromBody_withUnread _ _ x y
    · exact searchBody_withUnread _ _ x y a fun _ _ _ => rfl
  refine (exec_withUnread s s.abuf x y i hbody).trans ?_
  rw [State.withUnread, ← habuf]

/-! ## The handshake at the head -/

/-- `RESET` ends `OK` exactly if the handshake succeeded (R146). -/
theorem resultOfReset_eq_ok {r : ResetResult} : resultOfReset r = .ok ↔ r = .success := by
  cases r <;> simp [resultOfReset]

/-- Settles O29: the three commands begin with the same `ResetSeq()`; it succeeds exactly if the handshake is good
(`State.goodHandshake_iff`), and a failed one ends the composite commands at once (`rdromBody_cases`, `searchBody_cases`). -/
theorem compositeCommandsBeginWithReset : Obligations.CompositeCommandsBeginWithReset := by
  intro s r h
  obtain rfl := exec_next h
  refine ⟨fun l => ?_, fun hfail => ?_⟩
  · rw [State.goodHandshake_iff, runCommand_result, runCommand_line]
    exact and_congr_left' resultOfReset_eq_ok.symm
  · have hne : s.resetSeq.1 ≠ .success := fun hs => hfail (resultOfReset_eq_ok.mpr hs)
    refine ⟨?_, fun a hlo hhi => ?_⟩
    · have hbody : bodyOf .rdrom { s with busy := true } = _ := if_neg hne
      exact ⟨_, _, exec_of_body hbody⟩
    · have hcursor : cursorLegal s.curPos.toInt = true := decide_eq_true ⟨hlo, hhi⟩
      have hbody : bodyOf (.search a) { s with busy := true } = _ := (if_pos hcursor).trans (if_neg hne)
      exact ⟨_, _, exec_of_body hbody⟩

end Sys2Proof.Machine
end

section
/-! PROOF. The host's window and the registers after reset (10_state.md R26 to R37, R43), and the two commands that only move
a register (R160, R170). -/

namespace Sys2Proof.Machine

open Sys2Proof

/-! ## Issue -/

/-- A word of the table decodes to what `decodeTableWord` reads from it (R91). -/
theorem decode_of_decodeTableWord {nbits n : Nat} {i : Instr} (h : decodeTableWord nbits n = some i) :
    decode (tableByte nbits n) = .ok i := by
  unfold decodeTableWord at h
  split at h
  · rename_i j hj; rw [hj, Option.some.inj h]
  · simp at h

/-- Settles O5: the write of a decoded word is its command (`step_of_write`, `hostWrite_of_command`), and `withFetchWord` places
such a write. -/
theorem stepRunsDecodedCommand : Obligations.StepRunsDecodedCommand := by
  have hissue : ∀ (s : State) (w : Byte) (i : Instr) (rest : List HostAction), decode w = .ok i → s.busy = false →
      s.host = .write 0x00 w :: rest → step s = exec i { s with host := rest } := fun s w i rest hw hb hh =>
    (step_of_write hh (by decide)).trans (hostWrite_of_command hb hw)
  exact ⟨hissue, fun s n i hi =>
    hissue (s.withFetchWord 8 n) (tableByte 8 n) i s.host (decode_of_decodeTableWord hi) rfl rfl⟩

/-! ## The register window -/

/-- Settles O6: the step is one register write (`hostStore`), which shows at its own location and nowhere else. -/
theorem hostWriteThenRead : Obligations.HostWriteThenRead := by
  intro s a v rest hpos ha hb hh
  have hstep : step s = .next (hostStore a v { s with host := rest }) :=
    (step_of_write hh ha).trans (hostWrite_of_register v hb hpos)
  obtain ⟨hline, -, hstate, -⟩ := hostStore_kept a v { s with host := rest }
  refine ⟨_, hstep, hostRead_hostStore_same v _, hostStore_ignored v _, fun b hne => ?_, hstate, hostStore_ibudget a v _,
    hline⟩
  calc hostRead b (hostStore a v { s with host := rest })
      = hostRead b { s with host := rest } := hostRead_eq_of_sameAt (hostStore_sameAt_other v _ hne)
    _ = hostRead b s := hostRead_eq_of_sameAt { SameAt.refl b s with }

/-- Settles O7: a host read is one record in `readback` (`step_of_read`), and every location shows its register. -/
theorem hostReadsTheWindow : Obligations.HostReadsTheWindow := by
  refine ⟨fun s a rest ha hh => step_of_read hh ha, fun s => ?_, fun s a ha => ?_⟩
  · refine ⟨?_, rfl, rfl, rfl, rfl, rfl, rfl, rfl, rfl, fun j hj k hk => ⟨?_, ?_⟩⟩
    · change s.statusByte = _
      rw [State.statusByte]
      cases s.result <;> rfl
    · rw [hostRead_abuf s j hj, byteOf_getLsbD _ _ _ hk]
    · rw [hostRead_rbuf s j hj, byteOf_getLsbD _ _ _ hk]
  · simp only [List.mem_cons, List.not_mem_nil, or_false] at ha
    rcases ha with rfl | rfl | rfl | rfl | rfl | rfl | rfl <;> rfl

/-- Settles O8: the three edges, one lemma about the step for each. -/
theorem hostInterfaceEdges : Obligations.HostInterfaceEdges := by
  refine ⟨fun s a v rest hb ha hh => ?_, fun s a v rest ha hh => ?_, fun s h => step_of_no_action h⟩
  · exact (step_of_write hh ha).trans (hostWrite_of_busy a v hb)
  · rcases hh with hh | hh
    · exact step_of_write_outside hh ha
    · exact step_of_read_outside hh ha

/-- A buffer that is 0 shows 0x00 at each of its locations (R26). -/
theorem byteOf_zero (j : Nat) : byteOf 0 j = 0x00 := by
  simp [byteOf]

/-- Settles O9: each value is the one of `State.resetWith`, under the default parameters. -/
theorem resetValues : Obligations.ResetValues := by
  refine ⟨rfl, rfl, rfl, rfl, rfl, rfl, rfl, rfl, rfl, rfl, rfl, fun j hj => ⟨?_, ?_⟩, rfl, rfl⟩
  · rw [hostRead_abuf _ j hj]; exact byteOf_zero j
  · rw [hostRead_rbuf _ j hj]; exact byteOf_zero j

/-! ## The commands that only move a register -/

/-- The 16-bit budget is its high byte times 256 and its low byte (R34, R65). -/
theorem State.budget_toNat (s : State) : s.budget.toNat = 256 * s.budgetH.toNat + s.budgetL.toNat := by
  rw [State.budget, BitVec.toNat_append, Nat.shiftLeft_eq, Nat.mul_comm,
    ← Nat.two_pow_add_eq_or_of_lt s.budgetL.isLt]

/-- Settles O23: the body of `IDLEPOLL` moves the budget operand into `IBUDGET` and enters `AWAITING_IDLE`. -/
theorem idlePollResult : Obligations.IdlePollResult :=
  fun s => ⟨s.budget, s.budget_toNat, exec_of_body (i := .idlepoll) rfl⟩

/-- Settles O24: the body of `GETST` moves the code of `STATE` (R20) into `RDATA`. -/
theorem getStateResult : Obligations.GetStateResult := by
  intro s
  refine (exec_of_body (i := .getst) (s := s) rfl).trans ?_
  cases s.busState <;> rfl

end Sys2Proof.Machine
end

section
/-! PROOF. The trace grows by whole frames (70_reset_and_hazards.md R275), the commands that leave the line alone (R70, R166),
and what the byte, `MATCH` and `RDROM` commands and `RESET` at its bounds leave, each with its frames. -/

namespace Sys2Proof.Machine

open Sys2Proof

/-! ## Steps and the trace -/

/-- Settles O52: a step is a command, whose body appends whole frames (`bodyOf_frames`), or it leaves the line alone
(`step_cases`), which appends no frame. -/
theorem stepsAppendWholeFrames : Obligations.StepsAppendWholeFrames := by
  intro s t h
  rcases step_cases h with ⟨w, i, rest, -, -, -, hexec⟩ | ⟨hline, -⟩
  · obtain rfl := exec_next hexec
    obtain ⟨slots, hslots, hline, -⟩ := bodyOf_frames i { s with host := rest, busy := true }
    exact ⟨slots, hslots, by rw [runCommand_line, hline, Line.after_events]⟩
  · exact ⟨[], nofun, by rw [hline, slotEvents_nil, List.append_nil]⟩

/-! ## Commands that do not touch the line -/

/-- `CRC` leaves the line alone, whether it checks or refuses its length (R205). -/
theorem crcBody_line (len : BitVec 4) (s : State) : (crcBody len s).2.line = s.line := by
  unfold crcBody
  split <;> rfl

/-- `RESET` ends with one of the results of its handshake (R146). -/
theorem resultOfReset_ne (r : ResetResult) : resultOfReset r ≠ .stateError ∧ resultOfReset r ≠ .illegal := by
  cases r <;> exact ⟨nofun, nofun⟩

/-- A gated command, which ends `OK` or does nothing (R166), has left the line alone when it does not end `OK`. -/
theorem line_of_gate {o : Result × State} {s : State} (ho : (∃ u, o = (.ok, u)) ∨ o = (.stateError, s))
    (h : o.1 = .stateError ∨ o.1 = .illegal) : o.2.line = s.line := by
  obtain ⟨u, rfl⟩ | rfl := ho
  · rcases h with h | h <;> cases h
  · rfl

/-- A body that ends `STATE_ERROR` or `ILLEGAL` has done nothing on the line (R166, R181). -/
theorem bodyOf_line_of_refused {i : Instr} {s : State}
    (h : (bodyOf i s).1 = .stateError ∨ (bodyOf i s).1 = .illegal) : (bodyOf i s).2.line = s.line := by
  cases i with
  | reset =>
    obtain ⟨hstate, hillegal⟩ := resultOfReset_ne s.resetSeq.1
    exact (h.elim hstate hillegal).elim
  | wbit | rbit | wbyte | rbyte => rcases h with h | h <;> cases h
  | idlepoll | getst => rfl
  | crc len => exact crcBody_line len s
  | search a =>
    simp only [bodyOf] at h ⊢
    obtain he | ⟨r, x, p, b, l, n, he, hr⟩ := searchBody_outcomes a s
    · rw [he]
    · rw [he] at h
      rcases h with rfl | rfl <;> simp at hr
  | rdrom =>
    simp only [bodyOf] at h ⊢
    obtain ⟨r, x, b, l, n, he, hr⟩ := rdromBody_outcomes s
    rw [he] at h
    rcases h with rfl | rfl <;> simp at hr
  | matchRom => exact line_of_gate ((matchBody_outcomes s).imp_left fun ⟨_, he⟩ => ⟨_, he⟩) h
  | skip => exact line_of_gate ((skipBody_outcomes s).imp_left fun ⟨_, he⟩ => ⟨_, he⟩) h
  | rdpwr => exact line_of_gate ((rdpwrBody_outcomes s).imp_left fun ⟨_, _, he⟩ => ⟨_, he⟩) h

/-- Settles O50: `CRC`, `GETST` and `IDLEPOLL` only move registers, and a refused command has done nothing
(`bodyOf_line_of_refused`). -/
theorem lineUntouched : Obligations.LineUntouched := by
  intro i s t h hi
  obtain rfl := exec_next h
  rw [runCommand_line]
  rcases hi with ⟨len, rfl⟩ | rfl | rfl | hrefused
  · exact crcBody_line len _
  · rfl
  · rfl
  · exact bodyOf_line_of_refused hrefused

/-! ## Bytes (41_byte_framer.md) -/

/-- Settles O14: the body is one `WriteByteSeq` of `WDATA`, which is the write slots of its bits in order
(`writeByteSeq_eq`). -/
theorem writeByteResult : Obligations.WriteByteResult := by
  intro s
  have hbody : bodyOf .wbyte { s with busy := true } =
      (.ok, { s with busy := true, line := s.line.after s.cfg (byteSlots s.wdata) }) := by
    simp only [bodyOf, wbyteBody, writeByteSeq_eq]
  exact exec_of_body hbody

/-- Settles O15: the body is one `ReadByteSeq`, whose slots and bits `readByteSeq_spec` gives from the line as it stands. -/
theorem readByteResult : Obligations.ReadByteResult := by
  intro s
  obtain ⟨hline, hbits⟩ := readByteSeq_spec s.cfg s.line 0
  rw [show s.line.readFrames s.cfg 0 = [] from rfl, Line.after_nil] at hline hbits
  have hbody : bodyOf .rbyte { s with busy := true } = (.ok, { s with
      busy := true, rdata := (readByteSeq s.cfg s.line).1, line := s.line.after s.cfg (s.line.readFrames s.cfg 8) }) := by
    simp only [bodyOf, rbyteBody, hline]
  exact ⟨_, fun k hk => by rw [hbits k hk, Nat.zero_add], exec_of_body hbody⟩

/-! ## Addresses (46_direct_addressing.md) -/

/-- In its state `MATCH` puts its command byte and the 64 bits of `ABUF` on the line (R218). -/
theorem exec_matchRom {s : State} (h : s.busState = .romCommand) :
    exec .matchRom s = .next { s with
      busy := false, result := .ok, busState := .functionCommand,
      line := s.line.after s.cfg (byteSlots s.cfg.cmdMatchRom ++ addressSlots s.abuf) } := by
  have hbody : bodyOf .matchRom { s with busy := true } = (.ok, { s with
      busy := true, busState := .functionCommand,
      line := s.line.after s.cfg (byteSlots s.cfg.cmdMatchRom ++ addressSlots s.abuf) }) := by
    simp only [bodyOf, matchBody, gated, h, if_true, writeBytes_address, writeByteSeq_eq, Line.after_after]
  exact exec_of_body hbody

/-- Settles O41: the frames are those of `exec_matchRom`, the address slots written out. -/
theorem matchResult : Obligations.MatchResult := fun _ h => exec_matchRom h

/-- The check of an address, read as the equation of R203. -/
theorem addressValid_iff {c : Config} {a : DeviceAddress} :
    addressValid c a = true ↔ byteOf a 7 = crc8 c.crcSeedRom c.crcPoly (bytesOf a 7) :=
  decide_eq_true_iff

/-- Settles O44: a good handshake is one that `ResetSeq()` ends in success with (`State.goodHandshake_iff`); what follows is
`rdromSelected_cases`, and the 64 bits determine the address it reads. -/
theorem readRomResult : Obligations.ReadRomResult := by
  intro s out r m hgood hm hout
  obtain ⟨hsuccess, hline⟩ := (State.goodHandshake_iff { s with busy := true } r).mp hgood
  obtain ⟨read, hread, hbody⟩ :=
    rdromSelected_cases ({ s with busy := true } : State).resetSeq.2 m (by rw [hline, hm]; rfl)
  obtain rfl : read = out := address_ext fun i hi => (hread i hi).trans (hout i hi).symm
  have hrdrom : bodyOf .rdrom { s with busy := true } = _ := (if_pos hsuccess).trans hbody
  refine ⟨fun hvalid => ?_, fun hinvalid => ?_⟩
  · exact exec_of_body (hrdrom.trans (if_pos (addressValid_iff.mpr hvalid)))
  · exact ⟨_, _, exec_of_body (hrdrom.trans (if_neg (mt addressValid_iff.mp hinvalid)))⟩

/-! ## The bounds of the handshake (42_reset_presence.md) -/

/-- From every state but `AWAITING_IDLE` the result of `RESET` is that of the reset pulse (R146, R150). -/
theorem exec_reset_result {s t : State} (hb : s.busState ≠ .awaitingIdle) (h : exec .reset s = .next t) :
    t.result = resultOfReset (s.line.nextHandshake s.cfg).outcome := by
  obtain rfl := exec_next h
  have hreads : ({ s with busy := true } : State).IdleReads 0 := .inl ⟨hb, rfl⟩
  obtain ⟨houtcome, -⟩ := State.resetSeq_of_idleReads hreads
  rw [show s.line.readFrames s.cfg 0 = [] from rfl, Line.after_nil] at houtcome
  exact congrArg resultOfReset houtcome

/-- The `k`-th of the next polls gets the `k`-th answer lined up (R57). -/
theorem Line.pollAt_of_lined_up {l : Line} {k : Nat} {first : Option Nat} (h : l.polls[k]? = some first) :
    l.pollAt k = first := by
  simp [Line.pollAt, List.head?_drop, h]

/-- Settles O19: `RESET` ends as its two polls answer (`exec_reset_result`, `Line.nextHandshake`); at the bound a poll hits and
one unit later it times out (`pollAnswer`, R54). -/
theorem resetBoundsInclusive : Obligations.ResetBoundsInclusive := by
  intro s t rest hcfg hb h
  have hresult := exec_reset_result hb h
  rw [hcfg] at hresult
  refine ⟨fun hp => ?_, fun hp => ?_, fun hp => ?_⟩
  · have h0 : s.line.pollAt 0 = some 74 := Line.pollAt_of_lined_up (by rw [hp]; rfl)
    have h1 : s.line.pollAt 1 = some 254 := Line.pollAt_of_lined_up (by rw [hp]; rfl)
    rw [hresult, Line.nextHandshake, h0, h1]; rfl
  · have h0 : s.line.pollAt 0 = some 74 := Line.pollAt_of_lined_up (by rw [hp]; rfl)
    have h1 : s.line.pollAt 1 = some 255 := Line.pollAt_of_lined_up (by rw [hp]; rfl)
    rw [hresult, Line.nextHandshake, h0, h1]; rfl
  · have h0 : s.line.pollAt 0 = some 75 := Line.pollAt_of_lined_up (by rw [hp]; rfl)
    rw [hresult, Line.nextHandshake, h0]; rfl

end Sys2Proof.Machine
end

section
/-! SUPPORT. The reference environment under `MATCH` and `RDPWR` slave by slave (20_memory.md R80, R82, R84), and `SEARCH` on
it from issue to result when some slave takes part (R79, R180). -/

namespace Sys2Proof.Machine

open Sys2Proof

/-! ## What one slave makes of a command -/

/-- A slave hears two parts of a sequence of write slots one after the other. -/
theorem Slave.hears_append (c : Config) (x y : List Bool) (v : Slave) : v.hears c (x ++ y) = (v.hears c x).hears c y :=
  List.foldl_append

/-- What a slave has heard does not change who it is. -/
theorem Slave.hears_identity (c : Config) (bits : List Bool) (v : Slave) : (v.hears c bits).identity = v.identity := by
  induction bits generalizing v with
  | nil => rfl
  | cons b bits ih => exact (ih (v.afterWrite c b)).trans (Slave.afterWrite_identity c b v)

theorem Slave.hears_rom (c : Config) (bits : List Bool) (v : Slave) : (v.hears c bits).rom = v.rom :=
  congrArg Prod.fst (Slave.hears_identity c bits v)

/-- `CMD_MATCH_ROM` makes a slave compare addresses from bit 0 on (R80). -/
theorem Slave.romCommand_match {c : Config} (hc : c.Ok) (v : Slave) :
    v.romCommand c c.cmdMatchRom = { v with mode := .matching 0 } := by
  obtain ⟨-, hsearch, halarm, hread⟩ := Config.commands_distinct hc
  simp [Slave.romCommand, hsearch, halarm, hread]

/-- A slave that awaits a ROM command and hears `CMD_MATCH_ROM` and an address stays active exactly if the address is its
own, and then awaits a function command (R82). -/
theorem Slave.hears_matchCommand {c : Config} (hc : c.Ok) (a : DeviceAddress) {v : Slave} (ha : v.active = true)
    (hm : v.mode = .rom []) :
    let w := v.hears c (bitsOf c.cmdMatchRom ++ (List.range 64).map a.getLsbD)
    (w.active = true ↔ v.rom = a) ∧ (w.active = true → w.mode = .func []) := by
  obtain ⟨got, hgot⟩ := Slave.hears_romCommand c c.cmdMatchRom v ha hm
  rw [Slave.hears_append, hgot, Slave.romCommand_match hc]
  obtain ⟨-, hactive, hmode⟩ := Slave.hears_match c a { v with mode := .matching 0 } 64 le_rfl ha rfl
  exact ⟨hactive.trans ⟨address_ext, fun he j _ => he ▸ rfl⟩, hmode⟩

/-- A slave that awaits a function command and hears `CMD_READ_POWER` drives the next read slot low exactly if it is active
and uses parasite power (R84). -/
theorem Slave.hears_readPower (c : Config) {v : Slave} (hm : v.active = true → v.mode = .func []) :
    let w := v.hears c (bitsOf c.cmdReadPower)
    (w.drivesLow = true ↔ v.active = true ∧ v.parasite = true) ∧ (w.active = true → w.mode = .pwr) := by
  cases ha : v.active with
  | false =>
    rw [Slave.hears_inactive c _ v ha]
    simp [Slave.drivesLow, ha]
  | true =>
    rw [Slave.hears_functionCommand c _ v ha (hm ha)]
    simp [Slave.functionCommand, Slave.drivesLow, ha]

/-- A single read slot is low exactly if an active slave drives it, when the line is not busy and no active slave is outside
the spec (R78). -/
theorem Bus.run_read_low {c : Config} {bus after : Bus} {samples : List Level}
    (h : Bus.run c [.read samples] bus = some after) (hb : bus.busy = 0)
    (hout : ∀ v ∈ bus.slaves, v.active = true → v.mode ≠ .deviceSpecific) :
    bitOfSamples samples = false ↔ ∃ v ∈ bus.slaves, v.drivesLow = true := by
  rw [Bus.run] at h
  split at h
  case h_1 next hnext => exact (Bus.read_low hb hout hnext).1
  case h_2 => cases h

/-! ## `SEARCH` on the environment -/

section
variable {s : State} {a : Bool} {bus after : Bus}

/-- If a slave takes part in the search, there is a slave. -/
theorem Bus.slaves_ne_nil (h : bus.searched a ≠ []) : bus.slaves ≠ [] := fun he => h (by simp [Bus.searched, he])

/-- With a slave on the bus a `SEARCH` with a legal cursor, whose idle poll does not fail, has a successful handshake (R79):
a failed one would end the command, and the environment does not answer a reset frame so. -/
theorem searchBody_handshake (hc : s.cfg.Ok) (hlegal : cursorLegal s.cursorPosition = true) (hslaves : bus.slaves ≠ [])
    (hreads : ∃ n, s.IdleReads n) (hans : bus.Answers s.cfg (s.line.since (searchBody a s).2.line) after) :
    s.resetSeq.1 = .success := by
  obtain ⟨n, hn⟩ := hreads
  rcases searchBody_cases a s with ⟨hillegal, -⟩ | ⟨-, -, hfailed⟩ | ⟨-, hsuccess, -⟩
  · rw [hlegal] at hillegal; cases hillegal
  · rw [hfailed] at hans
    exact State.resetSeq_on_environment hc hslaves hn hans
  · exact hsuccess

/-- A `SEARCH` in which slaves at valid addresses take part ends `OK` with one of their addresses (R180, R188): the pairs it
read are those of the addresses, it followed R184 and R186, and `RES_POS` is the position it recorded. -/
theorem exec_search_finds {t : State} (hc : s.cfg.Ok) (hb : bus.busy = 0) (hlegal : cursorLegal s.cursorPosition = true)
    (hne : bus.searched a ≠ []) (hvalid : ∀ d ∈ bus.searched a, addressValid s.cfg d = true)
    (hreads : ∃ n, s.IdleReads n) (h : exec (.search a) s = .next t)
    (hans : bus.Answers s.cfg (s.line.since t.line) after) :
    t.result = .ok ∧ t.rbuf ∈ bus.searched a ∧ ∃ m : Line, PairsRead (bus.searched a) s.cfg m t.rbuf 64 ∧
      BitsChosen s.cursorPosition s.abuf s.cfg m t.rbuf 64 ∧ RecordedPosition s.cfg m t.rbuf t.resPos.toNat := by
  obtain rfl := exec_next h
  have hsuccess := searchBody_handshake (s := { s with busy := true }) hc hlegal (Bus.slaves_ne_nil hne) hreads hans
  obtain ⟨m, out, ⟨⟨k, -, hpairs, hbits, hones⟩, -⟩ | ⟨p, hpairs, hbits, hpos, -, -, hend⟩⟩ :=
    searchBody_on_environment (s := { s with busy := true }) hc hb hlegal hsuccess hans
  · exact absurd hones (pair_not_ones hpairs hbits hne)
  · have hmem := found_mem hpairs hbits hne
    rcases hend with ⟨-, hok, rfl, hres⟩ | ⟨hbad, -⟩
    · have hp : (searchBody a { s with busy := true }).2.resPos.toNat = p := by
        have hle := hpos.le
        rw [hres, BitVec.toNat_ofNat]; omega
      exact ⟨hok, hmem, m, hpairs, hbits, hp.symm ▸ hpos⟩
    · cases (hvalid out hmem).symm.trans hbad

end

end Sys2Proof.Machine
end

section
/-! PROOF. The statements against the reference environment (20_memory.md R77 to R86): the enumeration of R192, the alarm
search with no alarm, `MATCH` and `RDPWR`. -/

namespace Sys2Proof.Machine

open Sys2Proof

/-! ## The enumeration (44_rom_search.md R180 to R192) -/

/-- Settles O56: the search finds a present address and records the position of R189 (`exec_search_finds`,
`recorded_returned`), and with the cursor position -1 that address is the least (`fresh_least`). -/
theorem freshSearchFindsLeastKey : Obligations.FreshSearchFindsLeastKey := by
  intro s t a bus after hc hcur hb hne hvalid hreads h hans
  have hlast : s.cursorPosition = -1 := by rw [State.cursorPosition, hcur]; rfl
  have hlegal : cursorLegal s.cursorPosition = true := by rw [hlast]; rfl
  obtain ⟨hok, hmem, m, hpairs, hbits, hpos⟩ := exec_search_finds hc hb hlegal hne hvalid hreads h hans
  rw [hlast] at hbits
  exact ⟨hok, hmem, fresh_least hpairs hbits hmem, recorded_returned hpairs hmem hpos⟩

/-- Settles O57: an address follows the cursor's, so some slave takes part and the search finds a present address
(`exec_search_finds`); it is the one that follows (`next_found`). -/
theorem searchContinuesInKeyOrder : Obligations.SearchContinuesInKeyOrder := by
  intro s t a bus after hc hb hvalid hcursor hlt hreads h hans
  obtain ⟨b, hnext, hdiff⟩ : ∃ b, NextInKey (bus.searched a) s.abuf b ∧ FirstDifference s.abuf b s.curPos.toNat :=
    hcursor.resolve_left fun hend => by omega
  have hlast : s.cursorPosition = s.curPos.toNat := BitVec.toInt_eq_toNat_of_lt (by omega)
  have hlegal : cursorLegal s.cursorPosition = true := decide_eq_true (by omega)
  obtain ⟨hok, hmem, m, hpairs, hbits, hpos⟩ :=
    exec_search_finds hc hb hlegal (List.ne_nil_of_mem hnext.1) hvalid hreads h hans
  rw [hlast] at hbits
  have hfound : t.rbuf = b := next_found hpairs hbits hnext hdiff
  exact ⟨hok, hfound ▸ hnext, recorded_returned hpairs hmem hpos⟩

/-- Settles O59: the handshake succeeds, since there are slaves (`searchBody_handshake`), and with no address taking part the
first pair reads `(1, 1)` (`pair_ones_of_none`), so the walk cannot complete. -/
theorem alarmSearchWithoutAlarm : Obligations.AlarmSearchWithoutAlarm := by
  intro s t bus after hc hlo hhi hb hslaves hnone hreads h hans
  obtain rfl := exec_next h
  have hlegal : cursorLegal ({ s with busy := true } : State).cursorPosition = true := decide_eq_true ⟨hlo, hhi⟩
  have hsuccess := searchBody_handshake (s := { s with busy := true }) hc hlegal hslaves hreads hans
  obtain ⟨m, out, ⟨-, hprotocol⟩ | ⟨p, hpairs, -, -, hno, -⟩⟩ :=
    searchBody_on_environment (s := { s with busy := true }) hc hb hlegal hsuccess hans
  · exact hprotocol
  · rw [hnone] at hpairs
    exact absurd (pair_ones_of_none fun i hi => hpairs i (by omega)) (hno 0 (by omega))

/-! ## Direct addressing (46_direct_addressing.md) -/

/-- Settles O55: the frames of `MATCH` are all write slots (`exec_matchRom`), so the environment after them is every slave
after what it has heard (`Bus.run_writes`, `Slave.hears_matchCommand`). -/
theorem matchSelectsExactlyTheAddress : Obligations.MatchSelectsExactlyTheAddress := by
  intro s t bus after hc hstate hlisten h hans
  obtain rfl := Host.Outcome.next.inj ((exec_matchRom hstate).symm.trans h)
  have hframes : byteSlots s.cfg.cmdMatchRom ++ addressSlots s.abuf =
      (bitsOf s.cfg.cmdMatchRom ++ (List.range 64).map s.abuf.getLsbD).map .write := by
    rw [List.map_append, List.map_map]; rfl
  rw [hframes, Line.since_after] at hans
  have hrun := Bus.answers_run hc (writeSlots_complete s.cfg _) hans
  rw [Bus.run_writes] at hrun
  obtain rfl := Option.some.inj hrun
  refine ⟨?_, fun w hw => ?_⟩
  · rw [List.map_map]
    exact List.map_congr_left fun v _ => Slave.hears_rom s.cfg _ v
  · obtain ⟨v, hv, rfl⟩ := List.mem_map.mp hw
    obtain ⟨hactive, hmode⟩ := hlisten v hv
    rw [Slave.hears_rom]
    exact Slave.hears_matchCommand hc s.abuf hactive hmode

/-- In its state `RDPWR` puts its command byte and one read slot on the line, and `RDATA` is the bit read (R224). -/
theorem exec_rdpwr {s : State} (h : s.busState = .functionCommand) :
    exec .rdpwr s = .next { s with
      busy := false, result := .ok, busState := .idle, rdata := zextBit (s.line.bitAt s.cfg 0),
      line := s.line.after s.cfg (byteSlots s.cfg.cmdReadPower ++ [.read (s.line.slotSamples s.cfg 0)]) } := by
  have hbody : bodyOf .rdpwr { s with busy := true } = (.ok, { s with
      busy := true, busState := .idle, rdata := zextBit (s.line.bitAt s.cfg 0),
      line := s.line.after s.cfg (byteSlots s.cfg.cmdReadPower ++ [.read (s.line.slotSamples s.cfg 0)]) }) := by
    have hsamples := Line.slotSamples_after s.cfg s.line (byteSlots s.cfg.cmdReadPower) 0 0 (by simp) (by simp)
    simp only [bodyOf, rdpwrBody, gated, h, if_true, writeByteSeq_eq, readSlot_eq, hsamples, Line.after_after,
      Line.bitAt_after_byteSlots]
  exact exec_of_body hbody

/-- Settles O60: after the command byte the read slot is low exactly if an active slave drives it (`Bus.read_low`), which are
those with parasite power (`Slave.hears_readPower`). -/
theorem readPowerFindsParasite : Obligations.ReadPowerFindsParasite := by
  intro s t bus after hc hstate hb hlisten h hans
  obtain rfl := Host.Outcome.next.inj ((exec_rdpwr hstate).symm.trans h)
  rw [Line.since_after] at hans
  have hcomplete : ∀ slot ∈ byteSlots s.cfg.cmdReadPower ++ [.read (s.line.slotSamples s.cfg 0)],
      slot.Complete s.cfg = true :=
    List.forall_mem_append.mpr ⟨writeSlots_complete s.cfg _, by simp [Slot.Complete]⟩
  obtain ⟨mid, hwrites, hread⟩ := Bus.run_append_some (Bus.answers_run hc hcomplete hans)
  rw [byteSlots, Bus.run_writes] at hwrites
  obtain rfl := Option.some.inj hwrites
  have hparasite : s.line.bitAt s.cfg 0 = false ↔ ∃ v ∈ bus.slaves, v.active = true ∧ v.parasite = true := by
    refine (Bus.run_read_low hread hb fun w hw hactive => ?_).trans ?_
    · obtain ⟨v, hv, rfl⟩ := List.mem_map.mp hw
      rw [(Slave.hears_readPower s.cfg (hlisten v hv)).2 hactive]; nofun
    · simp only [List.mem_map, exists_exists_and_eq_and]
      exact exists_congr fun v => and_congr_right fun hv => (Slave.hears_readPower s.cfg (hlisten v hv)).1
  by_cases hp : ∃ v ∈ bus.slaves, v.active = true ∧ v.parasite = true
  · simp [hparasite.mpr hp, hp, zextBit]
  · have hhigh : s.line.bitAt s.cfg 0 = true := by simpa using mt hparasite.mp hp
    simp [hhigh, hp, zextBit]

end Sys2Proof.Machine
end

section
/-! SUPPORT. The decoder of command words (30_encoding.md R90 to R93), said once: the fields of a word, what decoding can make
of it, and that the word of a command is not reserved. -/

namespace Sys2Proof

/-! ## The fields of a word (R90) -/

@[simp] theorem opField_append (op arg : BitVec 4) : opField (op ++ arg) = op := BitVec.extractLsb'_append_eq_left

@[simp] theorem argField_append (op arg : BitVec 4) : argField (op ++ arg) = arg := BitVec.extractLsb'_append_eq_right

/-- A word is its two fields. -/
theorem fields_append (w : Byte) : opField w ++ argField w = w := by
  have h := BitVec.extractLsb'_append_extractLsb'_eq_extractLsb' (x := w) (show 4 = 0 + 4 from rfl) (len₂ := 4)
  exact h.trans BitVec.extractLsb'_eq_self

theorem append_eq_word_iff {op arg : BitVec 4} {w : Byte} : op ++ arg = w ↔ op = opField w ∧ arg = argField w := by
  constructor
  · rintro rfl; simp
  · rintro ⟨rfl, rfl⟩; exact fields_append w

/-! ## Reserved words (R93) -/

/-- The four clauses of R93, on the fields of a word. -/
def ReservedFields (op arg : BitVec 4) : Prop :=
  (op = 0x0#4 ∨ op = 0xE#4 ∨ op = 0xF#4) ∨
  (op ∈ [0x1#4, 0x3#4, 0x4#4, 0x5#4, 0x7#4, 0x8#4, 0x9#4, 0xA#4, 0xB#4, 0xD#4] ∧ arg ≠ 0#4) ∨
  (op ∈ [0x2#4, 0x6#4] ∧ arg.extractLsb' 1 3 ≠ 0#3) ∨
  (op = 0xC#4 ∧ 9 ≤ arg.toNat)

/-- The word of a well-formed command is under no clause of R93. -/
theorem not_reserved_encode {i : Instr} (h : i.WellFormed = true) :
    ¬ ReservedFields (opField (encode i)) (argField (encode i)) := by
  cases i with
  | crc len =>
    have hlen : len.toNat ≤ 8 := of_decide_eq_true h
    simpa [encode, ReservedFields] using Nat.lt_succ_of_le hlen
  | wbit b | search b => unfold ReservedFields; revert b; decide
  | _ => unfold ReservedFields; decide

/-! ## What decoding makes of a word (R90, R91) -/

/-- What the answer of the decoder says of the word: it is the word of that command, or it is reserved. -/
def Decodes (op arg : BitVec 4) : Except DecodeError Instr → Prop
  | .ok i => i.WellFormed = true ∧ encode i = op ++ arg
  | .error _ => ReservedFields op arg

theorem decodePlain_spec {i : Instr} {op : BitVec 4} (arg : BitVec 4) (hwf : i.WellFormed = true)
    (hword : encode i = op ++ 0#4)
    (hop : op ∈ [0x1#4, 0x3#4, 0x4#4, 0x5#4, 0x7#4, 0x8#4, 0x9#4, 0xA#4, 0xB#4, 0xD#4]) :
    Decodes op arg (decodePlain i op arg) := by
  unfold decodePlain
  split
  · rename_i harg; subst harg; exact ⟨hwf, hword⟩
  · rename_i harg; exact .inr (.inl ⟨hop, harg⟩)

/-- The arguments of one-bit immediates are those whose upper bits are 0. -/
theorem flagArgument_eq : ∀ arg : BitVec 4, arg.extractLsb' 1 3 = 0 → 0#3 ++ BitVec.ofBool (arg.getLsbD 0) = arg := by
  decide

theorem decodeFlag_spec {f : Bool → Instr} {op : BitVec 4} (arg : BitVec 4) (hwf : ∀ b, (f b).WellFormed = true)
    (hword : ∀ b, encode (f b) = op ++ (0#3 ++ BitVec.ofBool b)) (hop : op ∈ [0x2#4, 0x6#4]) :
    Decodes op arg (decodeFlag f op arg) := by
  unfold decodeFlag
  split
  · rename_i harg; exact ⟨hwf _, by rw [hword, flagArgument_eq arg harg]⟩
  · rename_i harg; exact .inr (.inr (.inl ⟨hop, harg⟩))

/-- Everything decoding can make of two fields: the command whose word they are, or a refusal under a clause of R93. -/
theorem decode_append_spec (op arg : BitVec 4) : Decodes op arg (decode (op ++ arg)) := by
  simp only [decode, opField_append, argField_append]
  -- the rows with a flag, `CRC`, the opcodes without a row, and the rows without an immediate
  split
  case h_2 | h_6 => exact decodeFlag_spec arg (fun _ => rfl) (fun _ => rfl) (by decide)
  case h_12 =>
    split
    · rename_i hlen; exact ⟨decide_eq_true hlen, rfl⟩
    · rename_i hlen; exact .inr (.inr (.inr ⟨rfl, Nat.lt_of_not_le hlen⟩))
  case h_14 => refine .inl ?_; revert op; decide
  all_goals exact decodePlain_spec arg rfl rfl (by decide)

theorem decode_spec (w : Byte) : Decodes (opField w) (argField w) (decode w) := by
  simpa only [fields_append] using decode_append_spec (opField w) (argField w)

/-- A well-formed command is read back from its word. -/
theorem decode_encode {i : Instr} (h : i.WellFormed = true) : decode (encode i) = .ok i := by
  cases i with
  | crc len =>
    have hlen : len.toNat ≤ 8 := of_decide_eq_true h
    simp [decode, encode, hlen]
  | wbit b | search b => cases b <;> rfl
  | _ => rfl

/-- Decoding and encoding agree (R90, R91). -/
theorem decode_eq_ok_iff {w : Byte} {i : Instr} : decode w = .ok i ↔ i.WellFormed = true ∧ encode i = w := by
  constructor
  · intro h
    have hspec := decode_spec w
    rwa [h, Decodes, fields_append] at hspec
  · rintro ⟨hwf, rfl⟩
    exact decode_encode hwf

/-- The reserved words are those that decode to no command (R93). -/
theorem reserved_iff {w : Byte} : (∀ i, decode w ≠ .ok i) ↔ ReservedFields (opField w) (argField w) := by
  constructor
  · intro h
    have hspec := decode_spec w
    cases hd : decode w with
    | ok i => exact absurd hd (h i)
    | error e => rwa [hd] at hspec
  · intro h i hi
    obtain ⟨hwf, rfl⟩ := decode_eq_ok_iff.mp hi
    exact not_reserved_encode hwf h

/-! ## Rows of the table (R91) -/

/-- Every mask of the table takes the whole opcode, so a word is matched field by field. -/
theorem and_mask_eq_iff (w : Byte) (argMask op arg : BitVec 4) :
    w &&& (0xF#4 ++ argMask) = op ++ arg ↔ op = opField w ∧ arg = argField w &&& argMask := by
  have hop : opField w &&& 0xF#4 = opField w := BitVec.and_allOnes
  have h : w &&& (0xF#4 ++ argMask) = opField w ++ (argField w &&& argMask) := by
    conv_lhs => rw [← fields_append w, BitVec.and_append, hop]
  rw [h, eq_comm, append_eq_word_iff, opField_append, argField_append]

/-- A row with mask 0xFF: the word is matched whole. -/
theorem decode_plainRow {i : Instr} (w : Byte) (hwf : i.WellFormed = true) :
    decode w = .ok i ↔ w &&& 0xFF = encode i := by
  have hmask : w &&& 0xFF = w := BitVec.and_allOnes
  rw [decode_eq_ok_iff, hmask]
  exact (and_iff_right hwf).trans eq_comm

theorem flagArgument_eq_iff : ∀ (arg : BitVec 4) (b : Bool),
    0#3 ++ BitVec.ofBool b = arg ↔ 0#4 = arg &&& 0xE#4 ∧ b = arg.getLsbD 0 := by
  decide

/-- A row with mask 0xFE: bit 0 of the word is the immediate. -/
theorem decode_flagRow {f : Bool → Instr} (op : BitVec 4) (w : Byte) (hwf : ∀ b, (f b).WellFormed = true)
    (hword : ∀ b, encode (f b) = op ++ (0#3 ++ BitVec.ofBool b)) (b : Bool) :
    decode w = .ok (f b) ↔ w &&& 0xFE = op ++ 0#4 ∧ b = w.getLsbD 0 := by
  have hbit : (argField w).getLsbD 0 = w.getLsbD 0 := by simp [argField]
  have hmask : w &&& 0xFE = op ++ 0#4 ↔ op = opField w ∧ 0#4 = argField w &&& 0xE#4 :=
    and_mask_eq_iff w 0xE#4 op 0#4
  rw [decode_eq_ok_iff, hword, append_eq_word_iff, flagArgument_eq_iff, hmask, hbit, and_iff_right (hwf b), and_assoc]

/-- The row of `CRC`, mask 0xF0: the lower half of the word is the length, 0 to 8. -/
theorem decode_crcRow (w : Byte) (len : BitVec 4) :
    decode w = .ok (.crc len) ↔ w &&& 0xF0 = 0xC0 ∧ len = argField w ∧ len.toNat ≤ 8 := by
  have hword : encode (.crc len) = w ↔ 0xC#4 = opField w ∧ len = argField w := append_eq_word_iff
  have hmask : w &&& 0xF0 = 0xC0 ↔ 0xC#4 = opField w :=
    (and_mask_eq_iff w 0#4 0xC#4 0#4).trans (and_iff_left BitVec.and_zero.symm)
  rw [decode_eq_ok_iff, hword, hmask, Instr.WellFormed, decide_eq_true_iff, and_comm, and_assoc]

end Sys2Proof
end

section
/-! PROOF. The command word (30_encoding.md R90 to R93). -/

namespace Sys2Proof.Machine

open Sys2Proof

/-- Settles O4: `decode_encode` and its converse (`decode_eq_ok_iff`). -/
theorem decodeEncodeAgree : Obligations.DecodeEncodeAgree :=
  ⟨fun _ => decode_encode, fun _ _ => decode_eq_ok_iff.mp⟩

/-- A reserved word written to `CMD` while no command runs ends `ILLEGAL`, and nothing else is done (R93). -/
theorem hostWrite_of_reserved {w : Byte} {s : State} (hw : ∀ i, decode w ≠ .ok i) (hb : s.busy = false) :
    hostWrite 0x00 w s = .next { s with result := .illegal } := by
  cases hd : decode w with
  | ok i => exact absurd hd (hw i)
  | error e => simp [hostWrite, hb, issue, hd, runCommand, reservedBody]

/-- How many words of each opcode are reserved, opcode 0x0 first: 3 rows of 16, 10 of 15, 2 of 14 and 7 (R93). -/
theorem reservedWords_perOpcode :
    (List.range 16).map (fun op =>
        ((List.range 16).filter fun arg => (decodeTableWord 8 (16 * op + arg)).isNone).length) =
      [16, 15, 14, 15, 15, 15, 14, 15, 15, 15, 15, 15, 7, 15, 16, 16] := by
  decide

/-- The words in order are the rows of the opcodes, 16 words each. -/
theorem range_rows (n : Nat) :
    List.range (16 * n) = (List.range n).flatMap fun op => (List.range 16).map (16 * op + ·) := by
  induction n with
  | zero => rfl
  | succ n ih => rw [Nat.mul_succ, List.range_add, ih, List.range_succ (n := n), List.flatMap_append,
      List.flatMap_singleton]

theorem reservedWords_count : ((List.range 256).filter fun n => (decodeTableWord 8 n).isNone).length = 233 := by
  rw [show 256 = 16 * 16 from rfl, range_rows, List.filter_flatMap, List.length_flatMap]
  simp only [List.filter_map, List.length_map, Function.comp_def]
  rw [reservedWords_perOpcode]
  rfl

/-- Settles O3: the clauses are those of the decoder (`reserved_iff`), the words are counted opcode by opcode, and the write
of a reserved word does nothing but set the result (`hostWrite_of_reserved`). -/
theorem reservedWordEndsIllegal : Obligations.ReservedWordEndsIllegal :=
  ⟨fun _ => reserved_iff, reservedWords_count,
    fun _ _ _ hw hb hh => (step_of_write hh (by decide)).trans (hostWrite_of_reserved hw hb)⟩

/-- Settles O1: one lemma for each mask of the table. -/
theorem commandTableSelects : Obligations.CommandTableSelects := fun w =>
  have plain (i : Instr) (hwf : i.WellFormed = true) := decode_plainRow w hwf
  ⟨plain .reset rfl, decode_flagRow 0x2#4 w (fun _ => rfl) fun _ => rfl, plain .rbit rfl, plain .wbyte rfl,
    plain .rbyte rfl, decode_flagRow 0x6#4 w (fun _ => rfl) fun _ => rfl, plain .rdrom rfl, plain .matchRom rfl,
    plain .skip rfl, plain .rdpwr rfl, plain .idlepoll rfl, decode_crcRow w, plain .getst rfl⟩

/-- Settles O2: the words are those of R91 (`decode_encode`). -/
theorem writtenOutWordsDecode : Obligations.WrittenOutWordsDecode :=
  ⟨decode_encode (i := .wbit true) rfl, decode_encode (i := .wbyte) rfl, decode_encode (i := .reset) rfl,
    decode_encode (i := .search true) rfl, decode_encode (i := .crc 7) rfl, decode_encode (i := .matchRom) rfl,
    decode_encode (i := .getst) rfl⟩

end Sys2Proof.Machine
end

section
/-! PROOF. The results each command can end with (30_encoding.md R105). -/

namespace Sys2Proof.Machine

open Sys2Proof

/-- The last column of R105, read by command: `CRC` with a reserved length, which no word selects, ends `ILLEGAL`. -/
def resultsOf : Instr → List Result
  | .reset => [.ok, .noPresence, .lfStillBusy, .lfNeverReleased]
  | .wbit _ | .rbit | .wbyte | .rbyte | .idlepoll | .getst => [.ok]
  | .search _ => [.ok, .noDevices, .protocolError, .checksumError, .illegal]
  | .rdrom => [.ok, .noDevices, .checksumError]
  | .matchRom | .skip | .rdpwr => [.ok, .stateError]
  | .crc len => if 8 < len.toNat then [.illegal] else [.ok]

/-- A command that ends `OK` or is refused by the gate (R166) ends with one of these two. -/
theorem result_of_gate {o : Result × State} {s : State} (ho : (∃ u, o = (.ok, u)) ∨ o = (.stateError, s)) :
    o.1 ∈ [Result.ok, .stateError] := by
  obtain ⟨u, rfl⟩ | rfl := ho <;> simp

/-- Every body ends with a result that R105 lists for its command. -/
theorem bodyOf_result_mem (i : Instr) (s : State) : (bodyOf i s).1 ∈ resultsOf i := by
  cases i with
  | reset => simp only [bodyOf, resetBody]; cases s.resetSeq.1 <;> simp [resultOfReset, resultsOf]
  | wbit | rbit | wbyte | rbyte | idlepoll | getst => exact .head _
  | search a =>
    obtain h | ⟨r, x, p, b, l, n, h, ⟨rfl, -⟩ | ⟨hr, -⟩⟩ := searchBody_outcomes a s
    · simp [bodyOf, h, resultsOf]
    · simp [bodyOf, h, resultsOf]
    · simp only [bodyOf, h, resultsOf]; exact List.mem_cons_of_mem _ (List.mem_append_left [Result.illegal] hr)
  | rdrom =>
    obtain ⟨r, x, b, l, n, h, ⟨rfl, -⟩ | hr⟩ := rdromBody_outcomes s
    · simp [bodyOf, h, resultsOf]
    · simp only [bodyOf, h, resultsOf]; exact .tail _ hr
  | matchRom => exact result_of_gate ((matchBody_outcomes s).imp_left fun ⟨_, he⟩ => ⟨_, he⟩)
  | skip => exact result_of_gate ((skipBody_outcomes s).imp_left fun ⟨_, he⟩ => ⟨_, he⟩)
  | rdpwr => exact result_of_gate ((rdpwrBody_outcomes s).imp_left fun ⟨_, _, he⟩ => ⟨_, he⟩)
  | crc len => by_cases hlen : 8 < len.toNat <;> simp [bodyOf, crcBody, crcLength, resultsOf, hlen]

/-- Settles O46: the result is in the command's list (`bodyOf_result_mem`), and the lists are read off. -/
theorem resultsOfEachCommand : Obligations.ResultsOfEachCommand := by
  intro i s t h
  have hmem : t.result ∈ resultsOf i := by
    obtain rfl := exec_next h
    exact bodyOf_result_mem i { s with busy := true }
  cases i with
  | wbit | rbit | wbyte | rbyte | idlepoll | getst => simp [List.mem_singleton.mp hmem]
  | matchRom | skip | rdpwr =>
    simp only [resultsOf, List.mem_cons, List.not_mem_nil, or_false] at hmem
    rcases hmem with hr | hr <;> simp [hr]
  | reset =>
    simp only [resultsOf, List.mem_cons, List.not_mem_nil, or_false] at hmem
    rcases hmem with hr | hr | hr | hr <;> simp [hr]
  | rdrom =>
    simp only [resultsOf, List.mem_cons, List.not_mem_nil, or_false] at hmem
    rcases hmem with hr | hr | hr <;> simp [hr]
  | search a =>
    simp only [resultsOf, List.mem_cons, List.not_mem_nil, or_false] at hmem
    rcases hmem with hr | hr | hr | hr | hr <;> simp [hr]
  | crc len =>
    by_cases hlen : 8 < len.toNat
    · simp only [resultsOf, if_pos hlen, List.mem_singleton] at hmem; simp [hmem, hlen]
    · simp only [resultsOf, if_neg hlen, List.mem_singleton] at hmem; simp [hmem]

end Sys2Proof.Machine
end

section
/-! PROOF. The bit transceiver (40_bit_transceiver.md): what `WBIT` and `RBIT` leave, and how long and how many primitives
their slots are. -/

namespace Sys2Proof.Machine

open Sys2Proof

/-! ## One slot, from issue to result -/

/-- `WBIT v` puts one write slot on the line and does nothing else (R122). -/
theorem exec_wbit (v : Bool) (s : State) :
    exec (.wbit v) s = .next { s with busy := false, result := .ok, line := s.line.after s.cfg [.write v] } := by
  have hbody : bodyOf (.wbit v) { s with busy := true } =
      (.ok, { s with busy := true, line := s.line.after s.cfg [.write v] }) := by
    simp only [bodyOf, wbitBody, writeSlot_eq]
  exact exec_of_body hbody

/-- `RBIT` puts one read slot on the line and leaves its bit in `RDATA` (R127). -/
theorem exec_rbit (s : State) :
    exec .rbit s = .next { s with
      busy := false, result := .ok, rdata := zextBit (s.line.bitAt s.cfg 0),
      line := s.line.after s.cfg [.read (s.line.slotSamples s.cfg 0)] } := by
  have hbody : bodyOf .rbit { s with busy := true } = (.ok, { s with
      busy := true, rdata := zextBit (s.line.bitAt s.cfg 0),
      line := s.line.after s.cfg [.read (s.line.slotSamples s.cfg 0)] }) := by
    simp only [bodyOf, rbitBody, readSlot_eq]
  exact exec_of_body hbody

theorem slotEvents_singleton (c : Config) (slot : Slot) : slotEvents c [slot] = slot.events c := by
  rw [slotEvents_cons, slotEvents_nil, List.append_nil]

theorem since_of_exec_wbit {s t : State} {v : Bool} (h : exec (.wbit v) s = .next t) :
    s.line.since t.line = (Slot.write v).events s.cfg := by
  obtain rfl := Host.Outcome.next.inj ((exec_wbit v s).symm.trans h)
  rw [Line.since_after, slotEvents_singleton]

theorem since_of_exec_rbit {s t : State} (h : exec .rbit s = .next t) :
    s.line.since t.line = (Slot.read (s.line.slotSamples s.cfg 0)).events s.cfg := by
  obtain rfl := Host.Outcome.next.inj ((exec_rbit s).symm.trans h)
  rw [Line.since_after, slotEvents_singleton]

/-- The next read slot takes the next `N_SAMPLES` answers (R125). -/
theorem Line.slotSamples_zero (c : Config) (l : Line) : l.slotSamples c 0 = (List.range c.nSamples).map l.levelAt := by
  simp [Line.slotSamples]

/-- Low dominates (R126): the byte of the bit is 1 exactly if every sample is high. -/
theorem zextBit_bitOfSamples (samples : List Level) :
    zextBit (bitOfSamples samples) = if ∀ v ∈ samples, v = .high then 0x01 else 0x00 := by
  have hall : bitOfSamples samples = true ↔ ∀ v ∈ samples, v = .high := by simp [bitOfSamples]
  simp only [zextBit, hall, BitVec.ofNat_eq_ofNat]

/-- Settles O10: `WBIT` is one write slot on the line (`exec_wbit`), which takes no answer. -/
theorem writeBitResult : Obligations.WriteBitResult := by
  intro s v
  refine ⟨_, exec_wbit v s, ?_, Line.after_drive _ _ _ (List.cons_ne_nil _ _), rfl, rfl, rfl⟩
  rw [Line.after_events, slotEvents_singleton]
  cases v <;> rfl

/-- Settles O11: `RBIT` is one read slot on the line (`exec_rbit`), and its bit is the AND of its samples
(`zextBit_bitOfSamples`). -/
theorem readBitResult : Obligations.ReadBitResult := by
  intro s
  have hrdata := zextBit_bitOfSamples (s.line.slotSamples s.cfg 0)
  have hevents := Line.after_events s.cfg s.line [.read (s.line.slotSamples s.cfg 0)]
  rw [slotEvents_singleton] at hevents
  refine ⟨_, _, Line.slotSamples_zero s.cfg s.line, hrdata ▸ exec_rbit s, hevents,
    Line.after_drive _ _ _ (List.cons_ne_nil _ _), ?_, rfl, ?_⟩
  · simp [Line.after, Slot.samplesTaken]
  · simp [Line.after, Slot.samplesTaken, Slot.pollsTaken]

/-! ## Times and counts -/

/-- A read slot with at least one sample makes four primitives, then its samples with a delay between each two, then one
(R125). -/
theorem readSlot_events_length (c : Config) {samples : List Level} (h : samples ≠ []) :
    ((Slot.read samples).events c).length = 4 + 2 * samples.length := by
  have hpos := List.length_pos_iff.mpr h
  simp only [Slot.events, List.length_append, (durationOf_window c samples h).2, List.length_cons, List.length_nil]
  omega

/-- Settles O12: the slot lasts `T_SLOT` as every bit slot does (`durationOf_bit`), and its four primitives are read off its
form. -/
theorem writeSlotTiming : Obligations.WriteSlotTiming := by
  intro s t v hcfg h
  rw [since_of_exec_wbit h]
  refine ⟨durationOf_bit hcfg _ rfl (.inl ⟨v, rfl⟩), ?_, ?_⟩ <;> cases v <;> rfl

/-- Settles O13: the slot takes all its samples, so it lasts `T_SLOT` (`durationOf_bit`), and as there is at least one sample
its primitives are counted by `readSlot_events_length`. -/
theorem readSlotTiming : Obligations.ReadSlotTiming := by
  intro s t hcfg h
  have hlength := Line.slotSamples_length s.cfg s.line 0
  have hsamples : s.line.slotSamples s.cfg 0 ≠ [] := by
    obtain ⟨-, -, -, hone, -⟩ := hcfg
    exact List.length_pos_iff.mp (hlength ▸ hone)
  rw [since_of_exec_rbit h]
  refine ⟨durationOf_bit hcfg _ (decide_eq_true hlength) (.inr ⟨_, rfl⟩), ?_⟩
  rw [readSlot_events_length s.cfg hsamples, hlength]

end Sys2Proof.Machine
end

section
/-! PROOF. The byte framer (41_byte_framer.md): the byte commands against their bits (R141), and the round trip of a byte over a
loopback slave (R140). -/

namespace Sys2Proof.Machine

open Sys2Proof

/-! ## Bit commands in a row -/

/-- `WBIT` commands in a row leave the write slots of their bits on the line, one after the other (R122). -/
theorem state_of_wbits {t : Nat → State} {bit : Nat → Bool} {m : Nat}
    (h : ∀ k < m, exec (.wbit (bit k)) (t k) = .next (t (k + 1))) {n : Nat} (hn : n < m) :
    t (n + 1) = { t 0 with
      busy := false, result := .ok,
      line := (t 0).line.after (t 0).cfg ((List.range (n + 1)).map fun k => .write (bit k)) } := by
  have hstep {k : Nat} (hk : k < m) := Host.Outcome.next.inj ((h k hk).symm.trans (exec_wbit (bit k) (t k)))
  induction n with
  | zero => exact hstep hn
  | succ n ih =>
    rw [hstep hn, ih (by omega)]
    simp only [Line.after_after, List.range_succ (n := n + 1), List.map_append, List.map_singleton]

/-- `RBIT` commands in a row take the next read slots one after the other, each leaving its own bit in `RDATA` (R127). -/
theorem state_of_rbits {t : Nat → State} {m : Nat} (h : ∀ k < m, exec .rbit (t k) = .next (t (k + 1))) {n : Nat}
    (hn : n < m) :
    t (n + 1) = { t 0 with
      busy := false, result := .ok, rdata := zextBit ((t 0).line.bitAt (t 0).cfg n),
      line := (t 0).line.after (t 0).cfg ((t 0).line.readFrames (t 0).cfg (n + 1)) } := by
  have hstep {k : Nat} (hk : k < m) := Host.Outcome.next.inj ((h k hk).symm.trans (exec_rbit (t k)))
  induction n with
  | zero => exact hstep hn
  | succ n ih =>
    rw [hstep hn, ih (by omega)]
    simp only [Line.bitAt_after_readFrames, Line.slotSamples_after_readFrames, Line.after_after, Nat.add_zero,
      ← Line.readFrames_succ]

/-- Settles O16: eight bit commands put the slots of the byte command on the line (`state_of_wbits`, `state_of_rbits`), and
each bit read is the byte's bit of that read slot. -/
theorem eightBitsMakeAByte : Obligations.EightBitsMakeAByte := by
  constructor
  · rintro s t rfl hbits
    rw [state_of_wbits hbits (n := 7) (by omega)]
    exact writeByteResult (t 0)
  · rintro s u t rfl hbits hbyte
    obtain ⟨x, hx, hexec⟩ := readByteResult (t 0)
    obtain rfl := Host.Outcome.next.inj (hexec.symm.trans hbyte)
    refine ⟨by rw [state_of_rbits hbits (n := 7) (by omega)], fun k hk => ?_⟩
    rw [state_of_rbits hbits hk, hx k hk]
    rfl

/-! ## The round trip -/

/-- The write slots of a byte are read off the trace in one way only: their bits are those of the byte in order (R63). -/
theorem bits_of_byteSlots_events {c : Config} (hc : c.Ok) {x : Byte} {bits : List Bool}
    (h : slotEvents c (byteSlots x) = slotEvents c (bits.map .write)) : bits = bitsOf x := by
  have hslots : byteSlots x = bits.map .write :=
    slotEvents_inj hc _ _ (writeSlots_complete c _) (writeSlots_complete c _) h
  exact (List.map_injective_iff.mpr (fun _ _ => Slot.write.inj) hslots).symm

/-- Settles O17: the slave has stored the bits of `WDATA` (`bits_of_byteSlots_events`), and bit `k` of `RDATA` is the bit it
drives in read slot `k`. -/
theorem loopbackReturnsTheByte : Obligations.LoopbackReturnsTheByte := by
  intro s t u stored hcfg hwrite hstored hdrives hread
  obtain rfl := Host.Outcome.next.inj ((writeByteResult s).symm.trans hwrite)
  rw [Line.since_after] at hstored
  obtain rfl := bits_of_byteSlots_events hcfg (x := s.wdata) hstored
  obtain ⟨x, hx, hexec⟩ := readByteResult _
  obtain rfl := Host.Outcome.next.inj (hexec.symm.trans hread)
  refine BitVec.eq_of_getLsbD_eq fun k hk => ?_
  calc x.getLsbD k
      _ = (bitsOf s.wdata).getD k false := (hx k hk).trans (hdrives k hk)
      _ = s.wdata.getLsbD k := by rw [List.getD_eq_getElem?_getD, bitsOf_getElem? _ _ hk, Option.getD_some]

end Sys2Proof.Machine
end

section
/-! PROOF. `RESET` from issue to result (42_reset_presence.md): its reset frame outside `AWAITING_IDLE` (R159), its idle poll in
`AWAITING_IDLE` (R150, R156), and the budget of 0 (R157). -/

namespace Sys2Proof.Machine

open Sys2Proof

/-! ## From the handshake to the command -/

/-- `RESET` leaves what its handshake left, with the handshake's answer as its result (R146). -/
theorem exec_reset_of_resetSeq {s u : State} {r : ResetResult}
    (h : State.resetSeq { s with busy := true } = (r, u)) :
    exec .reset s = .next { u with busy := false, result := resultOfReset r } :=
  exec_of_body (by rw [bodyOf, resetBody, h])

section
variable {s u : State} {r : ResetResult} (h : s.resetSeq = (r, u)) (hr : r ≠ .success)
include h hr

/-- A failed handshake ends `RDROM` (R215). -/
theorem rdromBody_of_failed : rdromBody s = (.noDevices, u.unspecifyRbuf) := by
  simp only [rdromBody, h, if_neg hr]

/-- A failed handshake ends `SEARCH` (R182). -/
theorem searchBody_of_failed (a : Bool) (hc : cursorLegal s.cursorPosition = true) :
    searchBody a s = (.noDevices, u.searchFailed) := by
  simp only [searchBody, hc, if_true, h, if_neg hr]

end

/-! ## How the next reset pulse ends -/

/-- The next reset pulse finds no presence when the line is not low in time (R153). -/
theorem Line.nextHandshake_noPresence {c : Config} {l : Line} (h : ∀ u1, l.pollAt 0 = some u1 → c.tPdh < u1) :
    l.nextHandshake c = .noPresence := by
  simp only [Line.nextHandshake, pollAnswer_timeout h]

/-- The next reset pulse finds the line never released when a presence pulse that came in time does not end in time (R154). -/
theorem Line.nextHandshake_neverReleased {c : Config} {l : Line} {u1 : Nat} (h1 : l.pollAt 0 = some u1)
    (hle : u1 ≤ c.tPdh) (h2 : ∀ u2, l.pollAt 1 = some u2 → c.tPdl < u2) : l.nextHandshake c = .neverReleased u1 := by
  simp only [Line.nextHandshake, h1, pollAnswer_some _ _ hle, pollAnswer_timeout h2]

/-! ## Outside AWAITING_IDLE -/

/-- From every state but `AWAITING_IDLE` the handshake is one reset frame (R150 steps 2 to 6). -/
theorem State.resetSeq_of_not_awaiting {s : State} (hb : s.busState ≠ .awaitingIdle) :
    s.resetSeq = ((s.line.nextHandshake s.cfg).outcome, { s with
      busState := stateAfterPulse (s.line.nextHandshake s.cfg).outcome,
      line := s.line.after s.cfg [.reset (s.line.nextHandshake s.cfg)] }) := by
  simp [State.resetSeq, Sys2Proof.Machine.resetSeq, hb, resetPulse_eq]

/-- `RESET` outside `AWAITING_IDLE`, by how its reset frame `h` goes: the frame's primitives on the line, its result and its
`STATE`, and no register written but `STATUS` (R145, R146, R159). -/
theorem exec_reset_of_nextHandshake {s : State} {h : Handshake} (hb : s.busState ≠ .awaitingIdle)
    (hn : s.line.nextHandshake s.cfg = h) :
    ∃ l : Line, exec .reset s = .next { s with
        busy := false, result := resultOfReset h.outcome, busState := stateAfterPulse h.outcome, line := l } ∧
      l.events = s.line.events ++ (Slot.reset h).events s.cfg ∧ l.drive = false := by
  subst hn
  have hseq := State.resetSeq_of_not_awaiting (s := { s with busy := true }) hb
  refine ⟨_, exec_reset_of_resetSeq hseq, ?_, Line.after_drive _ _ _ (List.cons_ne_nil _ _)⟩
  rw [Line.after_events, slotEvents_singleton]

/-- Settles O18: the answers of the two polls fix the reset frame (`Line.nextHandshake`), and the frame fixes the rest
(`exec_reset_of_nextHandshake`). -/
theorem resetHandshakeResult : Obligations.ResetHandshakeResult := by
  intro s hb
  refine ⟨fun u1 u2 h1 hle1 h2 hle2 => ?_, fun h1 => ?_, fun u1 h1 hle1 h2 => ?_⟩
  · exact exec_reset_of_nextHandshake hb ((Line.nextHandshake_success _ _ u1 u2).mpr ⟨h1, hle1, h2, hle2⟩)
  · exact exec_reset_of_nextHandshake hb (Line.nextHandshake_noPresence h1)
  · exact exec_reset_of_nextHandshake hb (Line.nextHandshake_neverReleased h1 hle1 h2)

/-! ## In AWAITING_IDLE -/

section
variable {s : State} (hb : s.busState = .awaitingIdle)
include hb

/-- After a released idle poll the handshake is the one from `IDLE` on the line as it stands then (R150 step 1, R157). -/
theorem State.resetSeq_of_released {k : Nat} (hk : k < s.ibudget.toNat) (hz : ∀ j < k, s.line.bitAt s.cfg j = false)
    (ho : s.line.bitAt s.cfg k = true) :
    s.resetSeq = State.resetSeq { s with
      busState := .idle, line := s.line.after s.cfg (s.line.readFrames s.cfg (k + 1)) } := by
  simp [State.resetSeq, Sys2Proof.Machine.resetSeq, hb, pollIdle_released _ _ _ _ hk hz ho]

/-- A spent idle poll is the whole handshake: its read slots are on the line, and nothing else has changed (R151, R156). -/
theorem State.resetSeq_of_spent (hz : ∀ j < s.ibudget.toNat, s.line.bitAt s.cfg j = false) :
    s.resetSeq = (.stillBusy, { s with line := s.line.after s.cfg (s.line.readFrames s.cfg s.ibudget.toNat) }) := by
  simp [State.resetSeq, Sys2Proof.Machine.resetSeq, hb, pollIdle_exhausted _ _ _ hz]

/-- A budget of 0 is spent at once, without a read slot (R157). -/
theorem State.resetSeq_of_zeroBudget (h0 : s.ibudget = 0) : s.resetSeq = (.stillBusy, s) := by
  have hnone : s.ibudget.toNat = 0 := by rw [h0]; rfl
  rw [State.resetSeq_of_spent hb (by simp [hnone]), hnone, show s.line.readFrames s.cfg 0 = [] from rfl, Line.after_nil]

end

/-- Settles O20: the handshake is that from `IDLE` after the read slots (`State.resetSeq_of_released`), and no handshake writes
`IBUDGET` (R145). -/
theorem resetAfterReleasedIdlePoll : Obligations.ResetAfterReleasedIdlePoll := by
  intro s k hb hk hz ho
  have hseq := State.resetSeq_of_released (s := { s with busy := true }) hb hk hz ho
  exact ⟨_, exec_reset_of_resetSeq hseq, rfl, exec_reset_of_resetSeq rfl⟩

/-- Settles O21: the handshake is the spent idle poll (`State.resetSeq_of_spent`). -/
theorem resetAfterSpentIdlePoll : Obligations.ResetAfterSpentIdlePoll := by
  intro s hb hz
  exact exec_reset_of_resetSeq (State.resetSeq_of_spent (s := { s with busy := true }) hb hz)

/-- Settles O22: each of the three commands begins with the handshake, which fails and leaves everything alone
(`State.resetSeq_of_zeroBudget`); a composite command then writes nothing but `RBUF` and `RES_POS` (R33, R36). -/
theorem zeroBudgetFailsAtOnce : Obligations.ZeroBudgetFailsAtOnce := by
  intro s t i hb h0 hi h
  have hseq := State.resetSeq_of_zeroBudget (s := { s with busy := true }) hb h0
  obtain rfl := exec_next h
  simp only [runCommand_result, runCommand_line, runCommand_busState]
  rcases hi with rfl | rfl | ⟨a, rfl, hlo, hhi⟩
  · rw [bodyOf, resetBody, hseq]
    exact ⟨rfl, rfl, hb⟩
  · rw [bodyOf, rdromBody_of_failed hseq nofun]
    exact ⟨rfl, rfl, hb⟩
  · have hcursor : cursorLegal s.curPos.toInt = true := decide_eq_true ⟨hlo, hhi⟩
    rw [bodyOf, searchBody_of_failed hseq nofun a hcursor]
    exact ⟨rfl, rfl, hb⟩

end Sys2Proof.Machine
end

section
/-! PROOF. The bus state machine (43_state_machine.md): the gate (R166), the transition table (R168), and the ways into and out
of a `STATE` (R172). -/

namespace Sys2Proof.Machine

open Sys2Proof

/-! ## The gate -/

section
variable {need : BusState} (body : State → Result × State) {s : State}

/-- In its state a gated command runs its body (R166). -/
theorem gated_inside (h : s.busState = need) : gated need body s = body s := if_pos h

/-- Outside its state a gated command ends `STATE_ERROR` with nothing done (R166). -/
theorem gated_outside (h : s.busState ≠ need) : gated need body s = (.stateError, s) := if_neg h

/-- A command with a gated body, issued outside its state, changes `STATUS` alone (R166, R174). -/
theorem exec_gated_outside {i : Instr} (hi : bodyOf i = gated need body) (h : s.busState ≠ need) :
    exec i s = .next { s with busy := false, result := .stateError } :=
  exec_of_body (u := { s with busy := true }) (hi ▸ gated_outside body h)

end

/-- Settles O25: the bodies of all three commands are gated (`exec_gated_outside`). -/
theorem gatedCommandsOutsideTheirState : Obligations.GatedCommandsOutsideTheirState := fun _ =>
  ⟨fun h => ⟨exec_gated_outside _ rfl h, exec_gated_outside _ rfl h⟩, fun h => exec_gated_outside _ rfl h⟩

/-! ## The transition table -/

/-- A failed handshake leaves `IDLE`, or it was a spent idle poll, which stays in `AWAITING_IDLE` (R150, R151). -/
theorem State.resetSeq_failed_busState {s : State} (h : s.resetSeq.1 ≠ .success) :
    s.resetSeq.2.busState = .idle ∨ s.busState = .awaitingIdle ∧ s.resetSeq.2.busState = .awaitingIdle := by
  have hafter := s.resetSeq_busState
  cases hr : s.resetSeq.1 with
  | success => exact absurd hr h
  | noPresence | neverReleased => rw [hr] at hafter; exact .inl hafter
  | stillBusy =>
    rw [hr] at hafter
    exact .inr ⟨resetSeq_stillBusy s.cfg s.busState s.ibudget s.line hr, hafter⟩

/-- The handshake alone is a row of `RESET` (R168). -/
theorem resetBody_transitionListed (s : State) :
    transitionListed .reset s.busState (resetBody s).1 (resetBody s).2.busState = true := by
  have hafter := s.resetSeq_busState
  have hspent := resetSeq_stillBusy s.cfg s.busState s.ibudget s.line
  simp only [resetBody]
  cases hr : s.resetSeq.1 with
  | success | noPresence | neverReleased => simp [hafter, hr, resultOfReset, transitionListed]
  | stillBusy => simp [hafter, hr, hspent hr, resultOfReset, transitionListed]

/-- `SEARCH` runs along a row of its own, wherever it stops: at the cursor, at the handshake, or in the walk (R168, R180). -/
theorem searchBody_transitionListed (a : Bool) (s : State) :
    transitionListed (.search a) s.busState (searchBody a s).1 (searchBody a s).2.busState = true := by
  rcases searchBody_cases a s with ⟨-, h⟩ | ⟨-, hfailed, h⟩ | ⟨-, -, -, h⟩
  · simp [h, transitionListed]
  · rcases State.resetSeq_failed_busState hfailed with hb | ⟨hs, hb⟩
    · simp [h, hb, transitionListed]
    · simp [h, hs, hb, transitionListed]
  · obtain ⟨x, p, n, slots, -, ⟨he, -⟩ | ⟨he, -⟩ | ⟨he, -⟩⟩ := searchSelected_outcomes a s.resetSeq.2 <;>
      simp [h, he, transitionListed]

/-- `RDROM` runs along a row of its own, wherever it stops: at the handshake or after the address (R168, R215). -/
theorem rdromBody_transitionListed (s : State) :
    transitionListed .rdrom s.busState (rdromBody s).1 (rdromBody s).2.busState = true := by
  rcases rdromBody_cases s with ⟨hfailed, h⟩ | ⟨-, -, h⟩
  · rcases State.resetSeq_failed_busState hfailed with hb | ⟨hs, hb⟩
    · simp [h, hb, transitionListed]
    · simp [h, hs, hb, transitionListed]
  · obtain ⟨x, n, slots, -, -, ⟨he, -⟩ | he⟩ := rdromSelected_outcomes s.resetSeq.2 <;> simp [h, he, transitionListed]

/-- Every body runs along a row of the table (R168). -/
theorem bodyOf_transitionListed (i : Instr) (s : State) :
    transitionListed i s.busState (bodyOf i s).1 (bodyOf i s).2.busState = true := by
  cases i with
  | reset => exact resetBody_transitionListed s
  | search a => exact searchBody_transitionListed a s
  | rdrom => exact rdromBody_transitionListed s
  | wbit | rbit | wbyte | rbyte | getst => exact beq_self_eq_true s.busState
  | idlepoll => rfl
  | matchRom | skip =>
    by_cases hb : s.busState = .romCommand
    · simp [bodyOf, matchBody, skipBody, gated_inside _ hb, hb, transitionListed]
    · simp [bodyOf, matchBody, skipBody, gated_outside _ hb, hb, transitionListed]
  | rdpwr =>
    by_cases hb : s.busState = .functionCommand
    · simp [bodyOf, rdpwrBody, gated_inside _ hb, hb, transitionListed]
    · simp [bodyOf, rdpwrBody, gated_outside _ hb, hb, transitionListed]
  | crc len =>
    by_cases hlen : 8 < len.toNat
    · simp [bodyOf, crcBody, crcLength, hlen, transitionListed]
    · simp [bodyOf, crcBody, crcLength, hlen, Nat.le_of_not_lt hlen, transitionListed]

/-- A command from its issue to its result is a row of the table (R168). -/
theorem exec_transitionListed {i : Instr} {s t : State} (h : exec i s = .next t) :
    transitionListed i s.busState t.result t.busState = true := by
  obtain rfl := exec_next h
  exact bodyOf_transitionListed i { s with busy := true }

/-- Settles O26: the body of every command runs along a row (`bodyOf_transitionListed`), and `runCommand` records its result and
keeps its `STATE`. -/
theorem transitionTableComplete : Obligations.TransitionTableComplete := fun _ _ _ => exec_transitionListed

/-! ## Into and out of a state -/

/-- The rows of the table that change `STATE`, grouped by the `STATE` after them. The other rows keep it, those of a spent idle
poll among them, which begin and end in `AWAITING_IDLE`. -/
theorem transitionListed_change {i : Instr} {before after : BusState} {r : Result}
    (h : transitionListed i before r after = true) (hne : before ≠ after) :
    (after = .awaitingIdle ∧ i = .idlepoll) ∨
      (after = .romCommand ∧ r = .ok ∧ i = .reset) ∨
      (after = .functionCommand ∧ r = .ok ∧ (i = .rdrom ∨ ∃ a, i = .search a)) ∨
      (after = .functionCommand ∧ r = .ok ∧ before = .romCommand ∧ (i = .matchRom ∨ i = .skip)) ∨
      (after = .idle ∧ (i = .reset ∨ i = .rdrom ∨ ∃ a, i = .search a)) ∨
      (after = .idle ∧ before = .functionCommand ∧ i = .rdpwr) := by
  have hspent : ¬ (before = .awaitingIdle ∧ after = .awaitingIdle) := fun ⟨hb, ha⟩ => hne (hb.trans ha.symm)
  have hkept : ¬ after = before := hne ∘ Eq.symm
  unfold transitionListed at h
  split at h <;>
    simp only [Bool.or_eq_true, Bool.and_eq_true, beq_iff_eq, hspent, hkept, or_false, and_false, Bool.false_eq_true] at h <;>
    simp [h]

/-- Settles O27: only a command changes `STATE` (`step_cases`), along a row of the table (`exec_transitionListed`), and the rows
that change it are those of `transitionListed_change`. -/
theorem stateEnteredOnlySo : Obligations.StateEnteredOnlySo := by
  intro s t h hne
  rcases step_cases h with ⟨w, i, rest, hhost, hw, -, hexec⟩ | ⟨-, -, hsame, -⟩
  · refine ⟨w, i, rest, hhost, hw, ?_⟩
    have hrow : transitionListed i s.busState t.result t.busState = true :=
      exec_transitionListed (s := { s with host := rest }) hexec
    generalize s.busState = before, t.busState = after, t.result = r at hrow hne ⊢
    rcases transitionListed_change hrow hne with
      ⟨rfl, rfl⟩ | ⟨rfl, rfl, rfl⟩ | ⟨rfl, rfl, hi⟩ | ⟨rfl, rfl, rfl, hi⟩ | ⟨rfl, hi⟩ | ⟨rfl, rfl, rfl⟩
    · exact ⟨fun _ => rfl, fun hb => absurd hb hne, nofun, nofun⟩
    · exact ⟨nofun, fun _ => .inl rfl, fun _ => ⟨rfl, rfl⟩, nofun⟩
    · exact ⟨nofun, fun _ => .inr hi, nofun, fun _ => ⟨rfl, .inr (.inr hi)⟩⟩
    · exact ⟨nofun, nofun, nofun, fun _ => ⟨rfl, hi.imp_right .inl⟩⟩
    · exact ⟨nofun, fun _ => hi, nofun, nofun⟩
    · exact ⟨nofun, nofun, nofun, nofun⟩
  · exact absurd hsame.symm hne

end Sys2Proof.Machine
end

section
/-! SUPPORT. `SEARCH` after a good handshake, when the pairs on its line are known (44_rom_search.md R183 to R187), and the
checksum of the address 0 (45_checksum.md R200). -/

namespace Sys2Proof.Machine

open Sys2Proof

/-! ## From the handshake to the walk -/

/-- With a legal cursor and a good handshake `SEARCH` goes on to its command byte in `ROM_COMMAND`, on the line that the
handshake left (R180 to R182). -/
theorem searchBody_of_good {s : State} {r : Line} (a : Bool) (hlo : -1 ≤ s.curPos.toInt) (hhi : s.curPos.toInt ≤ 63)
    (hgood : s.GoodHandshake r) : searchBody a s = searchSelected a { s with busState := .romCommand, line := r } := by
  obtain ⟨hsuccess, hline⟩ := (State.goodHandshake_iff s r).mp hgood
  have hcursor : cursorLegal s.cursorPosition = true := decide_eq_true ⟨hlo, hhi⟩
  have hstate : s.resetSeq.2.busState = .romCommand := by rw [State.resetSeq_busState, hsuccess]
  rw [← hstate, ← hline, ← State.resetSeq_kept]
  exact (if_pos hcursor).trans (if_pos hsuccess)

section
variable {s : State} {a : Bool} {m : Line} (hm : m = s.line.after s.cfg (byteSlots (searchCommand s.cfg a)))
include hm

/-- When no pair reads `(1, 1)` the walk goes to its end, and the address and the position that R184 and R186 give are the
ones it finds (R183, R187). -/
theorem searchSelected_completes {out : DeviceAddress} {p : Nat}
    (hpair : ∀ i < 64, ¬ (m.bitAt s.cfg (2 * i) = true ∧ m.bitAt s.cfg (2 * i + 1) = true))
    (hbits : BitsChosen s.cursorPosition s.abuf s.cfg m out 64) (hpos : RecordedPosition s.cfg m out p) :
    searchSelected a s =
      if addressValid s.cfg out then
        (.ok, { s with
          rbuf := out, resPos := BitVec.ofNat 8 p, busState := .functionCommand,
          line := m.after s.cfg (searchFrames s.cfg m out 64) })
      else (.checksumError, { s.searchFailed with
        busState := .idle, line := m.after s.cfg (searchFrames s.cfg m out 64) }) := by
  obtain ⟨⟨found, mark⟩, hwalk, hfound, hmark⟩ := searchWalk_done s.cfg s.cursorPosition s.abuf m hpair
  obtain rfl : found = out := address_ext fun i hi => (hfound i hi).trans (hbits i hi).symm
  obtain rfl : mark = p := hmark.unique hpos
  simp only [searchSelected, writeByteSeq_eq, ← hm, hwalk]

/-- The first pair that reads `(1, 1)` ends the walk after its two read slots (R185). -/
theorem searchSelected_stops {k : Nat} (hk : k < 64)
    (hpair : ∀ i < k, ¬ (m.bitAt s.cfg (2 * i) = true ∧ m.bitAt s.cfg (2 * i + 1) = true))
    (h0 : m.bitAt s.cfg (2 * k) = true) (h1 : m.bitAt s.cfg (2 * k + 1) = true) :
    ∃ out : DeviceAddress, BitsChosen s.cursorPosition s.abuf s.cfg m out k ∧
      searchSelected a s = (.protocolError, { s.searchFailed with
        busState := .idle
        line := m.after s.cfg (searchFrames s.cfg m out k ++
          [.read (m.slotSamples s.cfg (2 * k)), .read (m.slotSamples s.cfg (2 * k + 1))]) }) := by
  obtain ⟨out, hwalk, hbits⟩ := searchWalk_stopped s.cfg s.cursorPosition s.abuf m k hk hpair h0 h1
  exact ⟨out, hbits, by simp only [searchSelected, writeByteSeq_eq, ← hm, hwalk]⟩

end

/-! ## The address 0 -/

/-- Bytes 0x00 leave the remainder 0, whatever the polynomial (R200). -/
theorem crc8_zeros (poly : Byte) (n : Nat) : crc8 0x00 poly (List.replicate n 0x00) = 0x00 := by
  induction n with
  | zero => rfl
  | succ n ih => rwa [crc8, List.replicate_succ, List.foldl_cons, crcByte_self]

/-- With the seed 0x00 the address 0 is valid, whatever the polynomial (R197). -/
theorem zero_checksum (poly : Byte) : byteOf 0 7 = crc8 0x00 poly (bytesOf 0 7) := by
  have hbytes : bytesOf 0 7 = List.replicate 7 0x00 := List.map_eq_replicate_iff.mpr fun j _ => byteOf_zero j
  rw [hbytes, crc8_zeros, byteOf_zero]

end Sys2Proof.Machine
end

section
/-! PROOF. The ROM search (44_rom_search.md): the cursor test (R181), the walk from a good handshake to its result (R183 to
R187), one device alone and a line held low (R196, R197), and the search on the reference environment (R188, R195). -/

namespace Sys2Proof.Machine

open Sys2Proof

/-! ## Every line -/

/-- Settles O30: the search goes on to its walk (`searchBody_of_good`), whose address and position are determined by the pairs
(`searchSelected_completes`), and the check of that address decides the result. -/
theorem searchFollowsDirectionRule : Obligations.SearchFollowsDirectionRule := by
  intro s a out p r m hlo hhi hgood hm hpair hbits hpos
  have hbody : bodyOf (.search a) { s with busy := true } = _ :=
    (searchBody_of_good (s := { s with busy := true }) a hlo hhi hgood).trans
      (searchSelected_completes hm hpair hbits hpos)
  refine ⟨fun hvalid => ?_, fun hinvalid => ?_⟩
  · exact exec_of_body (hbody.trans (if_pos (addressValid_iff.mpr hvalid)))
  · exact ⟨_, _, exec_of_body (hbody.trans (if_neg (mt addressValid_iff.mp hinvalid)))⟩

/-- Settles O31: the search goes on to its walk (`searchBody_of_good`), which stops at the pair (`searchSelected_stops`). -/
theorem searchProtocolError : Obligations.SearchProtocolError := by
  intro s a k r m hlo hhi hgood hm hk hpair h0 h1
  obtain ⟨out, hbits, hstop⟩ :=
    searchSelected_stops (s := { s with busy := true, busState := .romCommand, line := r }) hm hk hpair h0 h1
  have hbody : bodyOf (.search a) { s with busy := true } = _ :=
    (searchBody_of_good (s := { s with busy := true }) a hlo hhi hgood).trans hstop
  refine ⟨_, out, _, exec_of_body hbody, ?_, hbits⟩
  simp only [List.length_append, byteSlots_length, searchFrames_length, List.length_cons, List.length_nil]
  omega

/-- Settles O28: the cursor test comes before every other action. -/
theorem searchIllegalCursor : Obligations.SearchIllegalCursor := by
  intro s a hcursor
  have hillegal : ¬ cursorLegal s.cursorPosition = true := fun hlegal => by
    obtain ⟨hlo, hhi⟩ := of_decide_eq_true hlegal
    rw [State.cursorPosition] at hlo hhi
    omega
  exact exec_of_body (u := { s with busy := true }) (if_neg hillegal)

/-! ## One device alone, and a line held low -/

/-- Settles O32: a pair that is a bit and its complement leaves no choice (`searchBit_single`) and is no conflict, so the address
is `d` and no position is recorded (`searchFollowsDirectionRule`). -/
theorem searchLoneDevice : Obligations.SearchLoneDevice := by
  intro s a d r m hlo hhi hgood hm hpairs hvalid
  have hpair : ∀ i < 64, ¬ (m.bitAt s.cfg (2 * i) = true ∧ m.bitAt s.cfg (2 * i + 1) = true) := fun i hi => by
    rw [(hpairs i hi).1, (hpairs i hi).2]; simp
  have hbits : BitsChosen s.curPos.toInt s.abuf s.cfg m d 64 := fun i hi => by
    rw [(hpairs i hi).1, (hpairs i hi).2]
    exact (searchBit_single i _ _ _ Iff.rfl (by simp)).symm
  have hnone : ∀ i < 64, unexplored s.cfg m d i = false := fun i hi => by
    rw [unexplored, (hpairs i hi).1, (hpairs i hi).2]; simp
  obtain ⟨hok, -⟩ := searchFollowsDirectionRule s a d 64 r m hlo hhi hgood hm hpair hbits (.inr ⟨rfl, hnone⟩)
  exact ⟨_, hok hvalid, rfl, rfl, rfl, rfl⟩

/-- Settles O33: every bit is a conflict above the cursor position -1, where 0 is taken, so the address is 0 and the highest
position is recorded (`searchFollowsDirectionRule`); that address is valid (`zero_checksum`). -/
theorem searchOnHeldLine : Obligations.SearchOnHeldLine := by
  intro s a r hcur hseed hgood hheld
  have hlast : s.curPos.toInt = -1 := by rw [hcur]; rfl
  obtain ⟨m, hm⟩ : ∃ m, m = r.after s.cfg (byteSlots (searchCommand s.cfg a)) := ⟨_, rfl⟩
  have hlow : ∀ k < 128, m.bitAt s.cfg k = false := fun k hk => by rw [hm, Line.bitAt_after_byteSlots, hheld k hk]
  have h0 : ∀ i < 64, m.bitAt s.cfg (2 * i) = false := fun i hi => hlow _ (by omega)
  have h1 : ∀ i < 64, m.bitAt s.cfg (2 * i + 1) = false := fun i hi => hlow _ (by omega)
  have hpair : ∀ i < 64, ¬ (m.bitAt s.cfg (2 * i) = true ∧ m.bitAt s.cfg (2 * i + 1) = true) := fun i hi => by
    rw [h0 i hi]; simp
  have hbits : BitsChosen s.curPos.toInt s.abuf s.cfg m 0 64 := fun i hi => by
    have hne : (i : Int) ≠ -1 := by omega
    have habove : -1 < (i : Int) := by omega
    simp [searchBit, h0 i hi, h1 i hi, hlast, hne, habove]
  have hlastBit : unexplored s.cfg m 0 63 = true := by
    rw [unexplored, h0 63 (by omega), h1 63 (by omega)]; simp
  obtain ⟨hok, -⟩ := searchFollowsDirectionRule s a 0 63 r m (by omega) (by omega) hgood hm hpair hbits
    (.inl ⟨by omega, hlastBit, fun i _ _ => by omega⟩)
  exact ⟨_, hok (hseed ▸ zero_checksum _), rfl, rfl, rfl, rfl⟩

/-! ## On the reference environment -/

/-- Settles O58: a search that ends `OK` passed the cursor test and the handshake (`searchBody_cases`) and completed its walk
(`searchBody_on_environment`); an address took part, or the first pair would have read `(1, 1)` (`pair_ones_of_none`), so the
address found is one that takes part (`found_mem`). -/
theorem foundDeviceIsPresent : Obligations.FoundDeviceIsPresent := by
  intro s t a bus after hc hb h hok hans
  obtain rfl := exec_next h
  have hresult : (searchBody a { s with busy := true }).1 = .ok := hok
  obtain ⟨hlegal, hsuccess⟩ : cursorLegal ({ s with busy := true } : State).cursorPosition = true ∧
      ({ s with busy := true } : State).resetSeq.1 = .success := by
    rcases searchBody_cases a { s with busy := true } with ⟨-, he⟩ | ⟨-, -, he⟩ | ⟨hlegal, hsuccess, -⟩
    · rw [he] at hresult; cases hresult
    · rw [he] at hresult; cases hresult
    · exact ⟨hlegal, hsuccess⟩
  obtain ⟨m, out, ⟨-, hprotocol, -⟩ | ⟨p, hpairs, hbits, -, hpair, hleft, hend⟩⟩ :=
    searchBody_on_environment (s := { s with busy := true }) hc hb hlegal hsuccess hans
  · rw [hresult] at hprotocol; cases hprotocol
  rcases hend with ⟨hvalid, -, rfl, -⟩ | ⟨-, hchecksum⟩
  · have hne : bus.searched a ≠ [] := fun hnone =>
      hpair 0 (by omega) (pair_ones_of_none fun i hi => hnone ▸ hpairs i (by omega))
    refine ⟨found_mem hpairs hbits hne, hvalid, fun v hv => ?_⟩
    rw [hleft.active v hv, and_comm]
    exact and_congr_left' ⟨Agree.eq, fun heq => heq ▸ fun _ _ => rfl⟩
  · rw [hresult] at hchecksum; cases hchecksum

end Sys2Proof.Machine
end

section
/-! PROOF. The checksum (45_checksum.md): the bit rule and chaining (R200, R201), the zero remainder of a valid address (R203), the
change of one bit (R204) and the command `CRC` (R205). -/

namespace Sys2Proof.Machine

open Sys2Proof

/-! ## The bit rule and chaining -/

/-- The remainder after the `k` lowest bits of a byte (R200). -/
def crcRemainder (poly seed d : Byte) (k : Nat) : Byte := ((List.range k).map d.getLsbD).foldl (crcBit poly) seed

theorem crcRemainder_succ (poly seed d : Byte) (k : Nat) :
    crcRemainder poly seed d (k + 1) = crcBit poly (crcRemainder poly seed d k) (d.getLsbD k) := by
  simp only [crcRemainder, List.range_succ, List.map_append, List.map_singleton, List.foldl_append, List.foldl_cons,
    List.foldl_nil]

theorem crcRemainder_eight (poly seed d : Byte) : crcRemainder poly seed d 8 = crcByte poly seed d := rfl

/-- Settles O36: the remainders within a byte are those of `crcRemainder`, the eighth of which is the byte's
(`crcRemainder_eight`); chaining is `crc8_append`. -/
theorem crcBitRule : Obligations.CrcBitRule :=
  ⟨fun _ _ => rfl,
    fun seed poly d _ => ⟨crcRemainder poly seed d, rfl, fun k _ => crcRemainder_succ poly seed d k,
      by rw [crcRemainder_eight]; rfl⟩,
    crc8_append⟩

/-! ## The zero remainder -/

/-- A valid address leaves the remainder 0 (R203): its last byte equals the remainder of the others. -/
theorem zeroRemainder_of_valid {c : Config} {a : DeviceAddress} (h : addressValid c a = true) :
    crc8 c.crcSeedRom c.crcPoly (bytesOf a 8) = 0x00 := by
  rw [crc8_eight, addressValid_iff.mp h, crcByte_self]

/-- Settles O38: the eighth byte leaves 0 if it equals the remainder of the first seven (`zeroRemainder_of_valid`), and with bit
7 in the polynomial only then (`crcByte_zero`). -/
theorem validExactlyIfZeroRemainder : Obligations.ValidExactlyIfZeroRemainder := by
  refine ⟨fun _ _ => zeroRemainder_of_valid, fun c a hp hzero => addressValid_iff.mpr ?_⟩
  rw [crc8_eight] at hzero
  exact (crcByte_zero _ _ _ hp hzero).symm

/-! ## A change within one byte -/

/-- Two bytes that differ leave different remainders: by linearity their exclusive or would leave 0 from the remainder 0. -/
theorem crcByte_data_injective (poly a x y : Byte) (hp : poly.getLsbD 7 = true)
    (h : crcByte poly a x = crcByte poly a y) : x = y := by
  have hxor : crcByte poly (a ^^^ a) (x ^^^ y) = 0x00 := by rw [crcByte_xor, h]; exact BitVec.xor_self
  rw [BitVec.xor_self] at hxor
  exact BitVec.xor_eq_zero_iff.mp (crcByte_zero poly _ _ hp hxor).symm

/-- Data that differ in one byte only have different checksums: the byte changes the remainder, and what follows it keeps the
remainders apart (`crc8_injective`). -/
theorem crc8_oneByte_injective (poly seed x y : Byte) (before after : List Byte) (hp : poly.getLsbD 7 = true)
    (h : crc8 seed poly (before ++ x :: after) = crc8 seed poly (before ++ y :: after)) : x = y := by
  rw [crc8_append, crc8_append] at h
  exact crcByte_data_injective poly (crc8 seed poly before) x y hp (crc8_injective poly hp after _ _ h)

/-- The bytes of an address around byte `j`. -/
theorem bytesOf_split (a : DeviceAddress) {j : Nat} (hj : j < 8) :
    bytesOf a 8 = bytesOf a j ++ byteOf a j :: (List.range' (j + 1) (7 - j)).map (byteOf a) := by
  have hrange : List.range 8 = List.range j ++ j :: List.range' (j + 1) (7 - j) := by
    have hlen : 8 = j + (7 - j + 1) := by omega
    rw [← List.range'_succ, List.range_eq_range', List.range_eq_range', hlen, ← List.range'_append_1, Nat.zero_add]
  rw [bytesOf, hrange, List.map_append, List.map_cons, bytesOf]

/-- Valid addresses that agree in every byte but one are equal in that byte too. -/
theorem byteOf_eq_of_valid {c : Config} {a b : DeviceAddress} {j : Nat} (hp : c.crcPoly.getLsbD 7 = true) (hj : j < 8)
    (ha : addressValid c a = true) (hb : addressValid c b = true) (hrest : ∀ k ≠ j, byteOf b k = byteOf a k) :
    byteOf b j = byteOf a j := by
  have hbefore : bytesOf b j = bytesOf a j :=
    List.map_congr_left fun k hk => hrest k (List.mem_range.mp hk).ne
  have hafter : (List.range' (j + 1) (7 - j)).map (byteOf b) = (List.range' (j + 1) (7 - j)).map (byteOf a) :=
    List.map_congr_left fun k hk => hrest k (by have := List.mem_range'_1.mp hk; omega)
  have hsame := (zeroRemainder_of_valid hb).trans (zeroRemainder_of_valid ha).symm
  rw [bytesOf_split b hj, bytesOf_split a hj, hbefore, hafter] at hsame
  exact crc8_oneByte_injective _ _ _ _ _ _ hp hsame

theorem flippedBit_getLsbD (a : DeviceAddress) {i k : Nat} (hk : k < 64) :
    (a ^^^ (1#64 <<< i)).getLsbD k = (a.getLsbD k ^^ decide (k = i)) := by
  have hone : (1#64 <<< i).getLsbD k = decide (k = i) := by
    rw [← BitVec.twoPow_eq, BitVec.getLsbD_twoPow]
    rcases eq_or_ne k i with rfl | hne
    · simp [hk]
    · simp [hne, hne.symm]
  rw [BitVec.getLsbD_xor, hone]

/-- Flipping bit `i` leaves every byte but byte `i / 8` as it was. -/
theorem byteOf_flippedBit_other (a : DeviceAddress) {i k : Nat} (hk : k ≠ i / 8) :
    byteOf (a ^^^ (1#64 <<< i)) k = byteOf a k := by
  refine BitVec.eq_of_getLsbD_eq fun b hb => ?_
  rw [byteOf_getLsbD _ _ _ hb, byteOf_getLsbD _ _ _ hb]
  by_cases hin : 8 * k + b < 64
  · have hne : 8 * k + b ≠ i := by omega
    rw [flippedBit_getLsbD a hin, decide_eq_false hne, Bool.xor_false]
  · rw [BitVec.getLsbD_of_ge _ _ (by omega), BitVec.getLsbD_of_ge _ _ (by omega)]

/-- Flipping bit `i` changes byte `i / 8`. -/
theorem byteOf_flippedBit_ne (a : DeviceAddress) {i : Nat} (hi : i < 64) :
    byteOf (a ^^^ (1#64 <<< i)) (i / 8) ≠ byteOf a (i / 8) := by
  intro hsame
  have hbit := congrArg (BitVec.getLsbD · (i % 8)) hsame
  have hpos : 8 * (i / 8) + i % 8 = i := Nat.div_add_mod i 8
  simp only [byteOf_getLsbD _ _ _ (Nat.mod_lt i (by omega : 8 > 0)), hpos, flippedBit_getLsbD a hi, decide_true,
    Bool.xor_true] at hbit
  exact Bool.not_ne_self _ hbit

/-- Settles O39: were the flipped address valid as well, the byte with the flipped bit would be unchanged
(`byteOf_eq_of_valid`), and it is not (`byteOf_flippedBit_ne`). -/
theorem singleBitFlipInvalidates : Obligations.SingleBitFlipInvalidates := by
  intro c a i hp hi hvalid
  refine Bool.eq_false_iff.mpr fun hflipped => byteOf_flippedBit_ne a hi ?_
  exact byteOf_eq_of_valid hp (by omega) hvalid hflipped fun k hk => byteOf_flippedBit_other a hk

/-! ## The command -/

/-- Settles O37: `CRC` is its body, which tests the length before it computes anything. -/
theorem crcResult : Obligations.CrcResult := fun s len =>
  ⟨fun hle => exec_of_body (i := .crc len) (if_neg (Nat.not_lt.mpr hle)),
    fun hlt => exec_of_body (i := .crc len) (u := { s with busy := true }) (if_pos hlt)⟩

end Sys2Proof.Machine
end

section
/-! PROOF. Direct addressing (46_direct_addressing.md): the commands of one command byte, `SKIP` (R221) and `RDPWR` (R224). -/

namespace Sys2Proof.Machine

open Sys2Proof

/-- Settles O42: in its state the gate lets `SKIP` through (`gated_inside`), and its command byte is the write slots of its
bits in order (`writeByteSeq_eq`). -/
theorem skipResult : Obligations.SkipResult := by
  intro s h
  have hbody : bodyOf .skip { s with busy := true } = (.ok, { s with
      busy := true, busState := .functionCommand, line := s.line.after s.cfg (byteSlots s.cfg.cmdSkipRom) }) := by
    simp only [bodyOf, skipBody, gated_inside, h, writeByteSeq_eq]
  exact exec_of_body hbody

/-- Settles O43: the frames and the bit are those of `exec_rdpwr`, the byte of the bit written out. -/
theorem readPowerResult : Obligations.ReadPowerResult := fun _ h => exec_rdpwr h

end Sys2Proof.Machine
end

section
/-! PROOF. How long every command lasts (70_reset_and_hazards.md R286, R287): the bit slots and the reset frame that each
command puts on the line, and the time these take. -/

namespace Sys2Proof.Machine

open Sys2Proof

/-! ## A number of bit slots between two moments of the line -/

/-- Between the moments `l` and `m` of the line there are `n` whole bit slots and nothing else. -/
def Line.BitsTo (c : Config) (n : Nat) (l m : Line) : Prop :=
  ∃ slots : List Slot, (∀ slot ∈ slots, slot.Complete c = true ∧ slot.IsBit) ∧ slots.length = n ∧ m = l.after c slots

section
variable (c : Config) (l : Line)

/-- A byte written is eight bit slots (R136). -/
theorem Line.bitsTo_byteSlots (x : Byte) : l.BitsTo c 8 (l.after c (byteSlots x)) :=
  ⟨_, fun slot h => ⟨writeSlots_complete c _ slot h, writeSlots_isBit _ slot h⟩, byteSlots_length x, rfl⟩

/-- An address written is 64 bit slots (R64). -/
theorem Line.bitsTo_addressSlots (a : DeviceAddress) : l.BitsTo c 64 (l.after c (addressSlots a)) := by
  refine ⟨_, fun slot h => ?_, by simp [addressSlots], rfl⟩
  obtain ⟨i, -, rfl⟩ := List.mem_map.mp h
  exact ⟨rfl, .inl ⟨_, rfl⟩⟩

theorem Line.bitsTo_readFrames (n : Nat) : l.BitsTo c n (l.after c (l.readFrames c n)) :=
  ⟨_, fun slot h => ⟨Line.readFrames_complete c l n slot h, readFrames_isBit c l n slot h⟩,
    Line.readFrames_length c l n, rfl⟩

theorem Line.bitsTo_read {samples : List Level} (h : samples.length = c.nSamples) :
    l.BitsTo c 1 (l.after c [.read samples]) :=
  ⟨[.read samples], List.forall_mem_singleton.mpr ⟨decide_eq_true h, .inr ⟨_, rfl⟩⟩, rfl, rfl⟩

end

theorem Line.BitsTo.trans {c : Config} {j n : Nat} {l m p : Line} (hj : l.BitsTo c j m) (hn : m.BitsTo c n p) :
    l.BitsTo c (j + n) p := by
  obtain ⟨first, hfirst, rfl, rfl⟩ := hj
  obtain ⟨rest, hrest, rfl, rfl⟩ := hn
  exact ⟨first ++ rest, List.forall_mem_append.mpr ⟨hfirst, hrest⟩, List.length_append, Line.after_after c l first rest⟩

/-- Each of the slots lasts `T_SLOT` (R123, R128, R286). -/
theorem Line.BitsTo.duration {c : Config} (hc : c.Ok) {l m : Line} {n : Nat} (h : l.BitsTo c n m) :
    durationOf (l.since m) = n * c.tSlot := by
  obtain ⟨slots, hslots, rfl, rfl⟩ := h
  rw [Line.since_after, durationOf_bits hc slots hslots]

theorem Line.since_self (l : Line) : l.since l = [] := List.drop_length

section
variable {s t : State}

/-! ## The commands without a handshake -/

/-- A bit command lasts `T_SLOT` (R123, R128). -/
theorem durationOf_bitCommand (hc : s.cfg.Ok) {i : Instr} (hi : (∃ v, i = .wbit v) ∨ i = .rbit)
    (h : exec i s = .next t) : durationOf (s.line.since t.line) = s.cfg.tSlot := by
  rcases hi with ⟨v, rfl⟩ | rfl
  · exact (writeSlotTiming s t v hc h).1
  · exact (readSlotTiming s t hc h).1

/-- A byte command is eight bit slots (R136, R138). -/
theorem bitsTo_of_byteCommand {i : Instr} (hi : i = .wbyte ∨ i = .rbyte) (h : exec i s = .next t) :
    s.line.BitsTo s.cfg 8 t.line := by
  rcases hi with rfl | rfl
  · obtain rfl := Host.Outcome.next.inj ((writeByteResult s).symm.trans h)
    exact Line.bitsTo_byteSlots s.cfg s.line s.wdata
  · obtain ⟨x, -, hexec⟩ := readByteResult s
    obtain rfl := Host.Outcome.next.inj (hexec.symm.trans h)
    exact Line.bitsTo_readFrames s.cfg s.line 8

/-- A gated command that ends `OK` was issued in its state (R166). -/
theorem busState_of_gated_ok {i : Instr} {need : BusState} {body : State → Result × State}
    (hi : bodyOf i = gated need body) (h : exec i s = .next t) (hok : t.result = .ok) : s.busState = need := by
  by_contra hne
  obtain rfl := Host.Outcome.next.inj ((exec_gated_outside body hi hne).symm.trans h)
  cases hok

/-- `SKIP` is its command byte (R221). -/
theorem bitsTo_of_skip (h : exec .skip s = .next t) (hok : t.result = .ok) : s.line.BitsTo s.cfg 8 t.line := by
  have hstate := busState_of_gated_ok rfl h hok
  obtain rfl := Host.Outcome.next.inj ((skipResult s hstate).symm.trans h)
  exact Line.bitsTo_byteSlots s.cfg s.line s.cfg.cmdSkipRom

/-- `MATCH` is its command byte and the 64 bits of the address (R218). -/
theorem bitsTo_of_match (h : exec .matchRom s = .next t) (hok : t.result = .ok) : s.line.BitsTo s.cfg 72 t.line := by
  have hstate := busState_of_gated_ok rfl h hok
  obtain rfl := Host.Outcome.next.inj ((exec_matchRom hstate).symm.trans h)
  dsimp only
  rw [← Line.after_after]
  exact (Line.bitsTo_byteSlots s.cfg s.line _).trans (Line.bitsTo_addressSlots s.cfg _ s.abuf)

/-- `RDPWR` is its command byte and one read slot (R224). -/
theorem bitsTo_of_rdpwr (h : exec .rdpwr s = .next t) (hok : t.result = .ok) : s.line.BitsTo s.cfg 9 t.line := by
  have hstate := busState_of_gated_ok rfl h hok
  obtain rfl := Host.Outcome.next.inj ((exec_rdpwr hstate).symm.trans h)
  dsimp only
  rw [← Line.after_after]
  exact (Line.bitsTo_byteSlots s.cfg s.line _).trans (Line.bitsTo_read s.cfg _ (Line.slotSamples_length s.cfg s.line 0))

/-! ## RESET -/

/-- `RESET` ends as its handshake did, on the line that the handshake left (R146). -/
theorem exec_reset_outcome (h : exec .reset s = .next t) :
    t.result = resultOfReset s.resetSeq.1 ∧ t.line = s.resetSeq.2.line := by
  obtain rfl := exec_next h
  exact ⟨rfl, rfl⟩

theorem resultOfReset_eq_lfStillBusy {r : ResetResult} : resultOfReset r = .lfStillBusy ↔ r = .stillBusy := by
  cases r <;> simp [resultOfReset]

/-- A handshake that ends still busy is the read slots of the whole budget (R151, R156). -/
theorem State.bitsTo_of_stillBusy (h : s.resetSeq.1 = .stillBusy) :
    s.line.BitsTo s.cfg s.ibudget.toNat s.resetSeq.2.line := by
  rcases resetSeq_cases s.cfg s.busState s.ibudget s.line with ⟨-, he⟩ | ⟨-, k, -, -, -, he⟩ | ⟨hb, hz, -⟩
  · rw [State.resetSeq, he] at h
    exact absurd h (Handshake.outcome_ne_stillBusy _)
  · rw [State.resetSeq, he] at h
    exact absurd h (Handshake.outcome_ne_stillBusy _)
  · rw [State.resetSeq_of_spent hb hz]
    exact Line.bitsTo_readFrames s.cfg s.line s.ibudget.toNat

/-- The reset pulse and what follows it in a reset frame (R159). -/
def Handshake.units (c : Config) : Handshake → Nat
  | .noPresence => c.tRstl + c.tPdh
  | .neverReleased u1 => c.tRstl + u1 + c.tPdl
  | .success u1 u2 => c.tRstl + u1 + u2 + c.tRstRem

theorem durationOf_resetFrame (c : Config) (h : Handshake) : durationOf ((Slot.reset h).events c) = h.units c := by
  cases h <;> simp [Slot.events, Handshake.events, durationOf, durationOfEvent, Handshake.units, Nat.add_assoc]

/-- The handshake lasts as long as its idle-check reads and its reset frame (R150, R156). -/
theorem State.durationOf_resetSeq {n : Nat} (hc : s.cfg.Ok) (hn : s.IdleReads n) :
    durationOf (s.line.since s.resetSeq.2.line) = n * s.cfg.tSlot +
      ((s.line.after s.cfg (s.line.readFrames s.cfg n)).nextHandshake s.cfg).units s.cfg := by
  rw [(State.resetSeq_of_idleReads hn).2, ← Line.after_after, durationOf_since_after,
    (Line.bitsTo_readFrames s.cfg s.line n).duration hc, slotEvents_singleton, durationOf_resetFrame]

/-- A presence pulse that never ends has begun in time (R153, R154). -/
theorem Line.pollAt_of_neverReleased {c : Config} {l : Line} {u1 : Nat} (h : l.nextHandshake c = .neverReleased u1) :
    l.pollAt 0 = some u1 ∧ u1 ≤ c.tPdh := by
  unfold Line.nextHandshake at h
  split at h
  · cases h
  · next v1 h1 =>
    split at h
    · cases h
      exact pollAnswer_hit h1
    · cases h

/-- The rows of `RESET` with a reset pulse (R287): how the reset frame goes fixes the result and the time. -/
theorem durationOf_reset {n : Nat} (hc : s.cfg.Ok) (hn : s.IdleReads n) (h : exec .reset s = .next t) :
    let lasted := durationOf (s.line.since t.line)
    let m := s.line.after s.cfg (s.line.readFrames s.cfg n)
    (t.result = .noPresence → lasted = n * s.cfg.tSlot + s.cfg.tRstl + s.cfg.tPdh) ∧
    (t.result = .lfNeverReleased → ∃ u1, m.pollAt 0 = some u1 ∧ u1 ≤ s.cfg.tPdh ∧
      lasted = n * s.cfg.tSlot + s.cfg.tRstl + u1 + s.cfg.tPdl) ∧
    (t.result = .ok → ∃ u1 u2, m.pollAt 0 = some u1 ∧ u1 ≤ s.cfg.tPdh ∧ m.pollAt 1 = some u2 ∧ u2 ≤ s.cfg.tPdl ∧
      lasted = n * s.cfg.tSlot + s.cfg.tRstl + u1 + u2 + s.cfg.tRstRem) := by
  intro lasted m
  obtain ⟨hresult, hline⟩ := exec_reset_outcome h
  have hlasted : lasted = n * s.cfg.tSlot + (m.nextHandshake s.cfg).units s.cfg :=
    (congrArg (fun l => durationOf (s.line.since l)) hline).trans (State.durationOf_resetSeq hc hn)
  rw [(State.resetSeq_of_idleReads hn).1] at hresult
  cases hframe : m.nextHandshake s.cfg with
  | noPresence =>
    rw [hframe] at hresult hlasted
    rw [hresult]
    exact ⟨fun _ => hlasted.trans (Nat.add_assoc _ _ _).symm, nofun, nofun⟩
  | neverReleased u1 =>
    obtain ⟨h1, hle1⟩ := Line.pollAt_of_neverReleased hframe
    rw [hframe] at hresult hlasted
    rw [hresult]
    refine ⟨nofun, fun _ => ⟨u1, h1, hle1, ?_⟩, nofun⟩
    simp only [hlasted, Handshake.units, Nat.add_assoc]
  | success u1 u2 =>
    obtain ⟨h1, hle1, h2, hle2⟩ := (Line.nextHandshake_success _ _ _ _).mp hframe
    rw [hframe] at hresult hlasted
    rw [hresult]
    refine ⟨nofun, nofun, fun _ => ⟨u1, u2, h1, hle1, h2, hle2, ?_⟩⟩
    simp only [hlasted, Handshake.units, Nat.add_assoc]

/-! ## The composite commands -/

/-- The bit slots after a handshake come on top of its time (R287). -/
theorem State.durationOf_composite (hc : s.cfg.Ok) {m : Line} {n : Nat} (h : s.resetSeq.2.line.BitsTo s.cfg n m) :
    durationOf (s.line.since m) = durationOf (s.line.since s.resetSeq.2.line) + n * s.cfg.tSlot := by
  obtain ⟨frames, -, hframes⟩ := s.resetSeq_frames
  obtain ⟨slots, hslots, rfl, rfl⟩ := h
  rw [hframes, durationOf_since_after, durationOf_bits hc slots hslots]

/-- `RDROM` is its handshake and, if that succeeds, 72 bit slots (R215). -/
theorem bitsTo_of_rdrom (h : exec .rdrom s = .next t) :
    (t.result = .noDevices → t.line = s.resetSeq.2.line) ∧
      (t.result = .ok ∨ t.result = .checksumError → s.resetSeq.2.line.BitsTo s.cfg 72 t.line) := by
  obtain rfl := exec_next h
  simp only [runCommand_result, runCommand_line, bodyOf]
  obtain ⟨-, he⟩ | ⟨-, -, he⟩ := rdromBody_cases { s with busy := true }
  · rw [he]
    exact ⟨fun _ => rfl, nofun⟩
  · obtain ⟨x, n, slots, hslots, hlen, ⟨hsel, -⟩ | hsel⟩ :=
      rdromSelected_outcomes ({ s with busy := true } : State).resetSeq.2
    all_goals
      rw [he, hsel]
      exact ⟨nofun, fun _ => ⟨slots, hslots, hlen, rfl⟩⟩

/-- `SEARCH` is its handshake and, if that succeeds, 200 bit slots (R101, R180), or `10 + 3k` when the first pair `(1, 1)` is
read at bit `k` (R185). -/
theorem bitsTo_of_search {a : Bool} (h : exec (.search a) s = .next t) :
    (t.result = .noDevices → t.line = s.resetSeq.2.line) ∧
      (t.result = .ok ∨ t.result = .checksumError → s.resetSeq.2.line.BitsTo s.cfg 200 t.line) ∧
      (t.result = .protocolError → ∃ k < 64,
        let m := s.resetSeq.2.line.after s.cfg (byteSlots (searchCommand s.cfg a))
        (∀ j < k, ¬ (m.bitAt s.cfg (2 * j) = true ∧ m.bitAt s.cfg (2 * j + 1) = true)) ∧
        m.bitAt s.cfg (2 * k) = true ∧ m.bitAt s.cfg (2 * k + 1) = true ∧
        s.resetSeq.2.line.BitsTo s.cfg (10 + 3 * k) t.line) := by
  obtain rfl := exec_next h
  simp only [runCommand_result, runCommand_line, bodyOf]
  obtain ⟨-, he⟩ | ⟨-, -, he⟩ | ⟨-, -, -, he⟩ := searchBody_cases a { s with busy := true }
  · rw [he]
    exact ⟨nofun, nofun, nofun⟩
  · rw [he]
    exact ⟨fun _ => rfl, nofun, nofun⟩
  · obtain ⟨x, p, n, slots, hslots, ⟨hsel, -, -, hlen⟩ | ⟨hsel, hlen⟩ | ⟨hsel, k, hk, hpair, h0, h1, hlen⟩⟩ :=
      searchSelected_outcomes a ({ s with busy := true } : State).resetSeq.2
    · rw [he, hsel]
      exact ⟨nofun, fun _ => ⟨slots, hslots, hlen, rfl⟩, nofun⟩
    · rw [he, hsel]
      exact ⟨nofun, fun _ => ⟨slots, hslots, hlen, rfl⟩, nofun⟩
    · rw [he, hsel]
      exact ⟨nofun, nofun, fun _ => ⟨k, hk, hpair, h0, h1, slots, hslots, hlen, rfl⟩⟩

end

/-! ## The table of durations -/

/-- Settles O51: every command puts a number of bit slots on the line (`Line.BitsTo`), which last `T_SLOT` each, the composite
ones after a handshake (`bitsTo_of_rdrom`, `bitsTo_of_search`); how long that lasts follows from its idle-check reads and its
reset frame (`durationOf_reset`). -/
theorem durationsOfCommands : Obligations.DurationsOfCommands := by
  intro i s t r hc h hr lasted handshake
  have hhandshake : handshake = durationOf (s.line.since s.resetSeq.2.line) :=
    congrArg (fun l => durationOf (s.line.since l)) (exec_reset_outcome hr).2
  have hcomposite : ∀ n, s.resetSeq.2.line.BitsTo s.cfg n t.line → lasted = handshake + n * s.cfg.tSlot := fun n hbits => by
    rw [hhandshake]
    exact State.durationOf_composite hc hbits
  have hnone : t.line = s.resetSeq.2.line → lasted = handshake := fun hline => by
    rw [hhandshake, ← hline]
  refine ⟨fun hi => durationOf_bitCommand hc hi h, fun hi => (bitsTo_of_byteCommand hi h).duration hc, ?_, ?_, ?_, ?_, ?_,
    ?_, ?_, ?_, ?_, ?_⟩
  · rintro rfl hok
    exact (bitsTo_of_skip h hok).duration hc
  · rintro rfl hok
    exact (bitsTo_of_match h hok).duration hc
  · rintro rfl hok
    exact (bitsTo_of_rdpwr h hok).duration hc
  · rintro rfl hbusy
    obtain ⟨hresult, hline⟩ := exec_reset_outcome h
    have hspent := State.bitsTo_of_stillBusy (resultOfReset_eq_lfStillBusy.mp (hresult.symm.trans hbusy))
    rw [← hline] at hspent
    exact hspent.duration hc
  · rintro rfl hpulse
    rw [(exec_reset_outcome h).1, ne_eq, resultOfReset_eq_lfStillBusy] at hpulse
    obtain ⟨n, hn⟩ := s.idleReads_or_stillBusy.resolve_right hpulse
    exact ⟨n, hn, durationOf_reset hc hn h⟩
  · rintro (rfl | ⟨a, rfl⟩) hfailed
    · obtain ⟨hfail, -⟩ := bitsTo_of_rdrom h
      exact hnone (hfail hfailed)
    · obtain ⟨hfail, -, -⟩ := bitsTo_of_search h
      exact hnone (hfail hfailed)
  · rintro rfl hend
    obtain ⟨-, hslots⟩ := bitsTo_of_rdrom h
    exact hcomposite 72 (hslots hend)
  · rintro ⟨a, rfl⟩ hend
    obtain ⟨-, hslots, -⟩ := bitsTo_of_search h
    exact hcomposite 200 (hslots hend)
  · rintro a rfl hprotocol
    obtain ⟨-, -, hstop⟩ := bitsTo_of_search h
    obtain ⟨k, hk, hpair, h0, h1, hbits⟩ := hstop hprotocol
    rw [(exec_reset_outcome hr).2]
    exact ⟨k, hk, hpair, h0, h1, hcomposite _ hbits⟩
  · intro hi
    have hline : t.line = s.line := lineUntouched i s t h (by tauto)
    change durationOf (s.line.since t.line) = 0
    rw [hline, Line.since_self]
    rfl

end Sys2Proof.Machine
end
